-- ==== Sys2Proof/Word.lean ====
section
/-! DEFINITION. The word type: addresses, registers and results are XLEN = 64 bits (00_scope.md R6, R8, R9). -/

namespace Sys2Proof

/-- A 64-bit address, register value or result (XLEN = 64, 00_scope.md R8). -/
abbrev Word := BitVec 64

/-- A byte of the backing buffer. -/
abbrev Byte := BitVec 8

end Sys2Proof
end

