-- ==== Sys2Proof/Syntax.lean ====
section
/-! DEFINITION. The block's instructions: the 20 requests of spec/opcode_table.json (30_encoding.md R108), each with the
operand fields its rule reads. -/

namespace Sys2Proof

/-- One request. `a` is the operand field A and `d` the data field D, each whole (R100, R111). -/
inductive Instr where
  /-- LOAD.U8 (41_load_store.md R150) -/
  | loadU8 (a : Word)
  /-- LOAD.U16 (R151) -/
  | loadU16 (a : Word)
  /-- LOAD.U32 (R152) -/
  | loadU32 (a : Word)
  /-- LOAD.U64 (R153) -/
  | loadU64 (a : Word)
  /-- LOAD.S8 (R154) -/
  | loadS8 (a : Word)
  /-- LOAD.S16 (R155) -/
  | loadS16 (a : Word)
  /-- LOAD.S32 (R156) -/
  | loadS32 (a : Word)
  /-- LOAD.S64 (R157) -/
  | loadS64 (a : Word)
  /-- STORE.U8 (R158) -/
  | storeU8 (a d : Word)
  /-- STORE.U16 (R159) -/
  | storeU16 (a d : Word)
  /-- STORE.U32 (R160) -/
  | storeU32 (a d : Word)
  /-- STORE.U64 (R161) -/
  | storeU64 (a d : Word)
  /-- FETCH with the variable-length mode v = cmd[0] (40_fetch.md R130) -/
  | fetch (v : Bool) (a : Word)
  /-- GET_FAULT_ADDR (43_control.md R180) -/
  | getFaultAddr
  /-- GET_ROOT (R181) -/
  | getRoot
  /-- SET_ROOT (R182) -/
  | setRoot (a : Word)
  /-- SET_PRIV (R183) -/
  | setPriv (a : Word)
  /-- SET_VM (R184) -/
  | setVm (a : Word)
  /-- FLUSH_TLB (42_flush.md R170) -/
  | flushTlb
  /-- FLUSH_ICACHE (R171) -/
  | flushIcache
deriving DecidableEq, Repr

end Sys2Proof
end

