-- ==== Sys2Proof/Decode.lean ====
section
/-! DEFINITION. The 136-bit request record (30_encoding.md R100), the command map (R102 to R108), the decoder, total on
every record and rejecting a reserved command by name (R109), and the encoder written from the same table. -/

namespace Sys2Proof

/-- The fields of a request record (R100). -/
structure Request where
  cmd : BitVec 8
  a : Word
  d : Word
deriving DecidableEq, Repr

/-- R100: cmd in bits 7:0, A in bits 71:8, D in bits 135:72. -/
def Request.ofBits (w : BitVec 136) : Request :=
  { cmd := w.extractLsb' 0 8, a := w.extractLsb' 8 64, d := w.extractLsb' 72 64 }

/-- The record with the given fields (R100). -/
def Request.toBits (r : Request) : BitVec 136 := r.d ++ (r.a ++ r.cmd)

/-- Why a record has no meaning (R109). -/
inductive DecodeError where
  /-- The command code is reserved. -/
  | reservedCommand (cmd : BitVec 8)
deriving DecidableEq, Repr

/-- The command map of R108; every code it does not list is reserved (R109). -/
def decodeRequest (r : Request) : Except DecodeError Instr :=
  match r.cmd.toNat with
  | 0x00 => .ok (.loadU8 r.a)
  | 0x01 => .ok (.loadU16 r.a)
  | 0x02 => .ok (.loadU32 r.a)
  | 0x03 => .ok (.loadU64 r.a)
  | 0x08 => .ok (.loadS8 r.a)
  | 0x09 => .ok (.loadS16 r.a)
  | 0x0A => .ok (.loadS32 r.a)
  | 0x0B => .ok (.loadS64 r.a)
  | 0x10 => .ok (.storeU8 r.a r.d)
  | 0x11 => .ok (.storeU16 r.a r.d)
  | 0x12 => .ok (.storeU32 r.a r.d)
  | 0x13 => .ok (.storeU64 r.a r.d)
  | 0x20 => .ok (.fetch false r.a)
  | 0x21 => .ok (.fetch true r.a)
  | 0x30 => .ok .getFaultAddr
  | 0x31 => .ok .getRoot
  | 0x32 => .ok (.setRoot r.a)
  | 0x33 => .ok (.setPriv r.a)
  | 0x34 => .ok (.setVm r.a)
  | 0x40 => .ok .flushTlb
  | 0x41 => .ok .flushIcache
  | _ => .error (.reservedCommand r.cmd)

/-- The request a record stands for, or why it has none. -/
def decode (w : BitVec 136) : Except DecodeError Instr := decodeRequest (Request.ofBits w)

/-- The fields of the record a line of R115 assembles to: unused fields are 0. -/
def Instr.request : Instr → Request
  | .loadU8 a => ⟨0x00, a, 0⟩
  | .loadU16 a => ⟨0x01, a, 0⟩
  | .loadU32 a => ⟨0x02, a, 0⟩
  | .loadU64 a => ⟨0x03, a, 0⟩
  | .loadS8 a => ⟨0x08, a, 0⟩
  | .loadS16 a => ⟨0x09, a, 0⟩
  | .loadS32 a => ⟨0x0A, a, 0⟩
  | .loadS64 a => ⟨0x0B, a, 0⟩
  | .storeU8 a d => ⟨0x10, a, d⟩
  | .storeU16 a d => ⟨0x11, a, d⟩
  | .storeU32 a d => ⟨0x12, a, d⟩
  | .storeU64 a d => ⟨0x13, a, d⟩
  | .fetch v a => ⟨if v then 0x21 else 0x20, a, 0⟩
  | .getFaultAddr => ⟨0x30, 0, 0⟩
  | .getRoot => ⟨0x31, 0, 0⟩
  | .setRoot a => ⟨0x32, a, 0⟩
  | .setPriv a => ⟨0x33, a, 0⟩
  | .setVm a => ⟨0x34, a, 0⟩
  | .flushTlb => ⟨0x40, 0, 0⟩
  | .flushIcache => ⟨0x41, 0, 0⟩

/-- The 136-bit record of a request (R100, R115). -/
def encode (i : Instr) : BitVec 136 := i.request.toBits

/-- A row of spec/opcode_table.json: the command bits a mask selects and the value they must have. -/
structure OpcodeRow where
  mnemonic : String
  mask : BitVec 8
  pattern : BitVec 8
deriving DecidableEq, Repr

/-- spec/opcode_table.json, row by row. -/
def opcodeTable : List OpcodeRow :=
  [⟨"LOAD.U8", 0xFF, 0x00⟩, ⟨"LOAD.U16", 0xFF, 0x01⟩, ⟨"LOAD.U32", 0xFF, 0x02⟩, ⟨"LOAD.U64", 0xFF, 0x03⟩,
   ⟨"LOAD.S8", 0xFF, 0x08⟩, ⟨"LOAD.S16", 0xFF, 0x09⟩, ⟨"LOAD.S32", 0xFF, 0x0A⟩, ⟨"LOAD.S64", 0xFF, 0x0B⟩,
   ⟨"STORE.U8", 0xFF, 0x10⟩, ⟨"STORE.U16", 0xFF, 0x11⟩, ⟨"STORE.U32", 0xFF, 0x12⟩, ⟨"STORE.U64", 0xFF, 0x13⟩] ++
  [⟨"FETCH", 0xFE, 0x20⟩, ⟨"GET_FAULT_ADDR", 0xFF, 0x30⟩, ⟨"GET_ROOT", 0xFF, 0x31⟩, ⟨"SET_ROOT", 0xFF, 0x32⟩,
   ⟨"SET_PRIV", 0xFF, 0x33⟩, ⟨"SET_VM", 0xFF, 0x34⟩, ⟨"FLUSH_TLB", 0xFF, 0x40⟩, ⟨"FLUSH_ICACHE", 0xFF, 0x41⟩]

/-- Whether a command byte is of the row. -/
def OpcodeRow.covers (row : OpcodeRow) (cmd : BitVec 8) : Bool := cmd &&& row.mask == row.pattern

/-- The mnemonic of the row a request belongs to (R108). -/
def Instr.mnemonic : Instr → String
  | .loadU8 _ => "LOAD.U8"
  | .loadU16 _ => "LOAD.U16"
  | .loadU32 _ => "LOAD.U32"
  | .loadU64 _ => "LOAD.U64"
  | .loadS8 _ => "LOAD.S8"
  | .loadS16 _ => "LOAD.S16"
  | .loadS32 _ => "LOAD.S32"
  | .loadS64 _ => "LOAD.S64"
  | .storeU8 _ _ => "STORE.U8"
  | .storeU16 _ _ => "STORE.U16"
  | .storeU32 _ _ => "STORE.U32"
  | .storeU64 _ _ => "STORE.U64"
  | .fetch _ _ => "FETCH"
  | .getFaultAddr => "GET_FAULT_ADDR"
  | .getRoot => "GET_ROOT"
  | .setRoot _ => "SET_ROOT"
  | .setPriv _ => "SET_PRIV"
  | .setVm _ => "SET_VM"
  | .flushTlb => "FLUSH_TLB"
  | .flushIcache => "FLUSH_ICACHE"

/-- The request the decoder reads from a table word of `nbits` bits; every bit of the record above them is 0. -/
def decodeTableWord (nbits w : Nat) : Option Instr :=
  match decode (BitVec.ofNat 136 (w % 2 ^ nbits)) with
  | .ok i => some i
  | .error _ => none

end Sys2Proof
end

