-- ==== Sys2Proof/Config.lean ====
section
/-! DEFINITION. What is fixed for a run: the implementation parameters of 00_scope.md R6 as plain data with the
constraints of R8, the reference values, and the free values the spec leaves open. -/

namespace Sys2Proof

/-- A dispatch handle: a name the block stores, compares and returns (00_scope.md R12, decision D35). -/
structure Handle where
  code : Nat
deriving DecidableEq, Repr, Inhabited

/-- The parameter IS_SHORT (R6, D12): a predicate on a 16-bit unit, as plain data. -/
inductive ShortForm where
  /-- The reference predicate `u[1:0] != 0b11`. -/
  | lowBitsNotBoth
  /-- Exactly the listed units are short: every predicate on 16 bits has this form. -/
  | units (short : List (BitVec 16))
deriving DecidableEq, Repr

/-- The parameters of one instance (R6) and its launch parameters (10_state.md R37, D24).
They are constants of a run: no request changes them. -/
structure Config where
  /-- PTE_BYTES, the width of a PTE in bytes. -/
  pteBytes : Nat
  /-- PGSHIFT, log2 of the page size. -/
  pgshift : Nat
  /-- LEVELS, the walk depth. -/
  levels : Nat
  /-- PPN_SHIFT, the lowest bit of a PTE's page number. -/
  ppnShift : Nat
  /-- TLB_ENTRIES, rows in each access kind's array. -/
  tlbEntries : Nat
  /-- ICACHE_ENTRIES, icache rows. -/
  icacheEntries : Nat
  /-- DTS, the dispatch-table size. -/
  dts : Nat
  /-- Names the decode collaborator, and so its DISPATCH table. -/
  decoder : Nat
  /-- IS_SHORT. -/
  isShort : ShortForm
  /-- INIT_ROOT. -/
  initRoot : Word
  /-- INIT_SUP. -/
  initSup : Bool
  /-- INIT_VM. -/
  initVm : Bool
deriving DecidableEq, Repr

/-- The constraints of 00_scope.md R8 on one instance's parameters; XLEN = 64 is the type `Word`.
(MEMSZ >= 1 is checked beside it, since MEMSZ is shared.) -/
abbrev Config.Ok (c : Config) : Prop :=
  (c.pteBytes = 4 ∨ c.pteBytes = 8) ∧ 4 ≤ c.pgshift ∧ 1 ≤ c.levels ∧
  10 ≤ c.ppnShift ∧ c.ppnShift < 8 * c.pteBytes ∧
  1 ≤ c.tlbEntries ∧ 1 ≤ c.icacheEntries ∧ 1 ≤ c.dts ∧ 2 ^ 16 % c.dts = 0

/-- The reference values of R6 and of R37 (DESIGN CHOICE, log 1 and log 5). -/
def Config.reference : Config :=
  { pteBytes := 8, pgshift := 12, levels := 4, ppnShift := 12, tlbEntries := 256, icacheEntries := 256,
    dts := 1024, decoder := 0, isShort := .lowBitsNotBoth, initRoot := 0, initSup := true, initVm := false }

/-- The reference MEMSZ (R6, D44; DESIGN CHOICE, log 1). -/
def Config.referenceMemsz : Nat := 65536

/-- FREE VALUE. DISPATCH of the decode collaborator `decoder` at `index` (R6: uninterpreted; log 2). -/
opaque Config.dispatch (decoder index : Nat) : Handle

/-- FREE VALUE. The draw number `draw` of a 64-bit value the spec leaves unconstrained
(30_encoding.md R101, 10_state.md R27; log 6 and log 9). -/
opaque Config.freeWord (draw : Nat) : Word

/-- FREE VALUE. The draw number `draw` of a handle the spec leaves unconstrained (30_encoding.md R101; log 9). -/
opaque Config.freeHandle (draw : Nat) : Handle

end Sys2Proof
end

