-- ==== Sys2Proof/Machine/Params.lean ====
section
/-! DEFINITION. The quantities derived from the parameters (00_scope.md R7) and the address fields cut with them
(20_memory.md R66, R72; 40_fetch.md R131). -/

namespace Sys2Proof

/-- INSN_BYTES, the width of a full instruction unit (R6, R112). -/
def Config.insnBytes : Nat := 4

/-- HALF_BYTES, the width of a half unit (R6, R112). -/
def Config.halfBytes : Nat := 2

/-- PGSIZE (R7). -/
def Config.pgsize (c : Config) : Nat := 2 ^ c.pgshift

/-- PTIDXBITS, the index bits of a level: one table fills one page (R7, D6). -/
def Config.ptidxBits (c : Config) : Nat := c.pgshift - Nat.log2 c.pteBytes

/-- VA_BITS, the translated bits of a virtual address (R7). -/
def Config.vaBits (c : Config) : Nat := c.pgshift + c.levels * c.ptidxBits

/-- PGSIZE - 1 at 64 bits. -/
def Config.offsetMask (c : Config) : Word := BitVec.ofNat 64 c.pgsize - 1#64

/-- `va & ~(PGSIZE-1)`, the page-aligned value of an address (R66). -/
def Config.pageOf (c : Config) (va : Word) : Word := va &&& ~~~c.offsetMask

/-- `va & (PGSIZE-1)`, the offset within the page (R67). -/
def Config.pageOffset (c : Config) (va : Word) : Word := va &&& c.offsetMask

/-- `(va >> PGSHIFT) mod TLB_ENTRIES`, the row of a TLB array (R66). -/
def Config.tlbIndex (c : Config) (va : Word) : Nat := (va.toNat >>> c.pgshift) % c.tlbEntries

/-- `(A / 4) mod ICACHE_ENTRIES`, the icache row (40_fetch.md R131). -/
def Config.icacheIndex (c : Config) (a : Word) : Nat := (a.toNat / Config.insnBytes) % c.icacheEntries

/-- The index-bit group of `va` at the level with `below` levels after it (R72: below = LEVELS - 1 - l). -/
def Config.walkIndex (c : Config) (va : Word) (below : Nat) : Nat :=
  (va.toNat >>> (c.pgshift + below * c.ptidxBits)) % 2 ^ c.ptidxBits

/-- `base + idx * PTE_BYTES`, modulo 2^64 (R72, D42). -/
def Config.pteAddr (c : Config) (base va : Word) (below : Nat) : Word :=
  base + BitVec.ofNat 64 (c.walkIndex va below * c.pteBytes)

/-- `va[63:VA_BITS] != 0` when VA_BITS < 64, and false otherwise (R70). -/
def Config.beyondVa (c : Config) (va : Word) : Bool := 2 ^ c.vaBits ≤ va.toNat

/-- IS_SHORT(u) (R6). -/
def ShortForm.test (p : ShortForm) (u : BitVec 16) : Bool :=
  match p with
  | .lowBitsNotBoth => u.extractLsb' 0 2 != 0b11
  | .units short => short.contains u

/-- `DISPATCH[b mod DTS]` (30_encoding.md R114). -/
def Config.handleOf (c : Config) (b : Nat) : Handle := Config.dispatch c.decoder (b % c.dts)

end Sys2Proof
end

