-- ==== Sys2Proof/Machine/State.lean ====
section
/-! DEFINITION. The machine's state as plain data (10_state.md), the reasons it can stop, and the state after reset (R37).
One `Block` is one instance of the block; `State` holds the instance at hand, the others, the shared buffer and the
request port. -/

namespace Sys2Proof.Machine

open Sys2Proof

/-- The access kind (00_scope.md R12). -/
inductive Kind where
  | fetch
  | load
  | store
deriving DecidableEq, Repr

/-- The nine fault kinds a request can signal (60_exceptions.md R200). Each ends a request in a next state with a
response that names it: it is not a stop of the machine. -/
inductive FaultKind where
  | misalignedLoad
  | misalignedStore
  | fetchAccess
  | loadAccess
  | storeAccess
  | fetchPerm
  | loadPerm
  | storePerm
  | malformed
deriving DecidableEq, Repr

/-- The response status (30_encoding.md R113). -/
inductive Status where
  | ok
  | fault (kind : FaultKind)
  | fatal
deriving DecidableEq, Repr

/-- A response (30_encoding.md R101). -/
structure Response where
  status : Status
  r : Word
  h : Handle
  walked : Bool
  decoded : Bool
deriving DecidableEq, Repr

/-- A TLB row (10_state.md R33). The tag `none` is INVALID, which no lookup tag equals. -/
structure TlbRow where
  tag : Option Word
  base : Word
deriving DecidableEq, Repr

/-- The three TLB arrays, one for each access kind (R33). -/
structure Tlb where
  fetch : List TlbRow
  load : List TlbRow
  store : List TlbRow
deriving DecidableEq, Repr

/-- An icache row (R35). The tag `none` is INVALID. -/
structure IcRow where
  tag : Option Word
  bits : BitVec 32
  handle : Handle
deriving DecidableEq, Repr

/-- One instance of the block: the state no other instance shares (60_exceptions.md R212), with its parameters. -/
structure Block where
  /-- The parameters of this instance (00_scope.md R6), constant. -/
  cfg : Config
  /-- ROOT (R24). -/
  root : Word
  /-- SUP, true for supervisor (R25). -/
  sup : Bool
  /-- VM, true when translation is enabled (R26). -/
  vm : Bool
  /-- LAST_FAULT (R27). -/
  lastFault : Word
  /-- The model's own bit: a fault has written LAST_FAULT since reset (log 6). -/
  faultSeen : Bool
  /-- HALTED (R28). -/
  halted : Bool
  /-- The translation cache (R33). -/
  tlb : Tlb
  /-- The instruction-decode cache IC (R35). -/
  icache : List IcRow
  /-- The response port (30_encoding.md R101): the last response; `walked` and `decoded` of the request being
  performed while there is one (log 8). -/
  resp : Response
deriving DecidableEq, Repr

/-- A pending request: the instance it is issued to, and its 136-bit record (R100, R212). -/
structure PortEntry where
  block : Nat
  word : BitVec 136
deriving DecidableEq, Repr

/-- The buffer's contents: strictly rising addresses, no entry equal to `Memory.unlisted` (log 10). -/
abbrev Memory := List Host.Cell

/-- What an address of the buffer that is not listed reads as (DESIGN CHOICE, log 10). -/
def Memory.unlisted : Byte := 0

/-- The canonical form of a memory. -/
abbrev Memory.wf (m : Memory) : Prop :=
  m.Pairwise (fun c c' => c.1 < c'.1) ∧ ∀ c ∈ m, c.2 ≠ Memory.unlisted

structure State where
  /-- MEMSZ, the buffer's length in bytes, constant (00_scope.md R6). -/
  memsz : Nat
  /-- The backing buffer, shared by all instances (R31). -/
  mem : Memory
  /-- The instance at hand: the one that performs the request being served. -/
  blk : Block
  /-- Its number among the instances. -/
  index : Nat
  /-- The other instances, in order of their numbers (R212). -/
  others : List Block
  /-- The requests the callers have issued and the block has not yet taken, oldest first (R82, R83). -/
  port : List PortEntry
  /-- The model's own counter of unconstrained draws (log 9). -/
  draws : Nat
deriving DecidableEq, Repr

/-- Why the machine stops without a next state. -/
inductive Fault where
  /-- Raised by every request to an instance whose HALTED is 1, in `serve` and in `takeRequest`: the block accepts no
  request and there is no step (10_state.md R28). Safe: the spec gives no step either. -/
  | halted
deriving DecidableEq, Repr

/-- Why a request has no meaning. -/
inductive Refusal where
  /-- Raised by exec for an instruction without a meaning yet; no arm does. Safe. -/
  | notModelled (mnemonic : String)
  /-- Raised by the step for a reserved command code (30_encoding.md R109). Safe: the spec refuses it. -/
  | reservedCommand (cmd : BitVec 8)
  /-- Raised by FETCH at an address that breaks 20_memory.md R56. Safe: the spec refuses it. -/
  | misalignedFetch (v : Bool) (a : Word)
  /-- Raised by the step when MEMSZ, or the parameters of the instance the request names, break 00_scope.md R8. Safe: the
  spec refuses it. That requests to other instances go on is the model's choice (DESIGN CHOICE, log 15). -/
  | badConfiguration
  /-- Raised by the step for a request issued to an instance that does not exist (R212 gives every processor its
  own; log 12). Safe. -/
  | noSuchBlock (block : Nat)
deriving DecidableEq, Repr

/-- A row no lookup matches. The base is never read (R37; DESIGN CHOICE 0, log 7). -/
def TlbRow.invalid : TlbRow := { tag := none, base := 0 }

/-- A row no fetch matches. Bits and handle are never read (R37; DESIGN CHOICE 0, log 7). -/
def IcRow.invalid : IcRow := { tag := none, bits := 0, handle := ⟨0⟩ }

/-- The response port before the first response (DESIGN CHOICE, log 8). -/
def Response.none : Response := { status := .ok, r := 0, h := ⟨0⟩, walked := false, decoded := false }

/-- An instance right after its construction (10_state.md R37, 70_reset_and_hazards.md R230). -/
def Block.construct (c : Config) : Block :=
  { cfg := c, root := c.pageOf c.initRoot, sup := c.initSup, vm := c.initVm,
    lastFault := 0, faultSeen := false, halted := false,
    tlb := { fetch := List.replicate c.tlbEntries .invalid, load := List.replicate c.tlbEntries .invalid,
             store := List.replicate c.tlbEntries .invalid },
    icache := List.replicate c.icacheEntries .invalid, resp := .none }

/-- The state the host builds: MEMSZ, the launch memory, and the parameters of each instance
(70_reset_and_hazards.md R230 to R232). No request has been issued. -/
def State.launch (memsz : Nat) (mem : Memory) (c : Config) (cs : List Config) : State :=
  { memsz := memsz, mem := mem, blk := Block.construct c, index := 0, others := cs.map Block.construct,
    port := [], draws := 0 }

/-- The reference reset: one instance with the reference parameters and a buffer with nothing listed. -/
def State.reset : State := State.launch Config.referenceMemsz [] Config.reference []

end Sys2Proof.Machine
end

