-- ==== Sys2Proof/Machine/Flags.lean ====
section
/-! DEFINITION. The block has no condition flags (10_state.md R23). What it has is flag bits: the ten of a PTE
(20_memory.md R71), the permission selection by kind and privilege (R76), the R/D update (R78), and the status codes
(30_encoding.md R113). -/

namespace Sys2Proof.Machine

open Sys2Proof

/-- T, the table-descriptor flag: bit 0 (R71). -/
def pteT : Nat := 0
/-- V, valid: bit 1. -/
def pteV : Nat := 1
/-- R, referenced: bit 2. -/
def pteR : Nat := 2
/-- D, dirty: bit 3. -/
def pteD : Nat := 3
/-- UX, user execute: bit 4. -/
def pteUX : Nat := 4
/-- UW, user write: bit 5. -/
def pteUW : Nat := 5
/-- UR, user read: bit 6. -/
def pteUR : Nat := 6
/-- SX, supervisor execute: bit 7. -/
def pteSX : Nat := 7
/-- SW, supervisor write: bit 8. -/
def pteSW : Nat := 8
/-- SR, supervisor read: bit 9. -/
def pteSR : Nat := 9

/-- The bit a leaf is tested by (R76). -/
def permIndex (k : Kind) (sup : Bool) : Nat :=
  match k with
  | .fetch => if sup then pteSX else pteUX
  | .load => if sup then pteSR else pteUR
  | .store => if sup then pteSW else pteUW

/-- `PermBit(k, SUP, pte)` (R76). -/
def permBit (k : Kind) (sup : Bool) (pte : Word) : Bool := pte.getLsbD (permIndex k sup)

/-- A leaf after the referenced and dirty update (R78). -/
def updatedPte (k : Kind) (pte : Word) : Word :=
  match k with
  | .store => pte ||| BitVec.twoPow 64 pteR ||| BitVec.twoPow 64 pteD
  | .fetch | .load => pte ||| BitVec.twoPow 64 pteR

/-- The access fault of a kind (R73). -/
def accessFault (k : Kind) : FaultKind :=
  match k with
  | .fetch => .fetchAccess
  | .load => .loadAccess
  | .store => .storeAccess

/-- The permission-denied fault of a kind (R77). -/
def permFault (k : Kind) : FaultKind :=
  match k with
  | .fetch => .fetchPerm
  | .load => .loadPerm
  | .store => .storePerm

/-- The response code of a status (30_encoding.md R113); 10 to 14 are never produced. -/
def Status.code (st : Status) : BitVec 4 :=
  match st with
  | .ok => 0
  | .fault .misalignedLoad => 1
  | .fault .misalignedStore => 2
  | .fault .fetchAccess => 3
  | .fault .loadAccess => 4
  | .fault .storeAccess => 5
  | .fault .fetchPerm => 6
  | .fault .loadPerm => 7
  | .fault .storePerm => 8
  | .fault .malformed => 9
  | .fatal => 15

end Sys2Proof.Machine
end

