-- ==== Sys2Proof/Machine/Operands.lean ====
section
/-! DEFINITION. The operand forms (30_encoding.md R111): access widths and their alignment (20_memory.md R54, R58), the
flag operand A[0], the fetch paths' address tests (R56, 40_fetch.md R130), and the extension of a load's result
(00_scope.md R10, 41_load_store.md R162). -/

namespace Sys2Proof.Machine

open Sys2Proof

/-- The widths of loads and stores (R58). -/
inductive Width where
  | w1
  | w2
  | w4
  | w8
deriving DecidableEq, Repr

/-- W, in bytes. -/
def Width.bytes (w : Width) : Nat :=
  match w with
  | .w1 => 1
  | .w2 => 2
  | .w4 => 4
  | .w8 => 8

/-- `A mod W = 0` (R54). -/
def aligned (w : Width) (a : Word) : Bool := a.toNat % w.bytes = 0

/-- The flag operand of SET_PRIV and SET_VM: A[0]; A[63:1] is ignored (R111, D37). -/
def flagOperand (a : Word) : Bool := a.getLsbD 0

/-- The alignment a fetch address must have (20_memory.md R56). -/
def fetchAligned (v : Bool) (a : Word) : Bool :=
  a.toNat % Config.halfBytes = 0 && (v || a.toNat % Config.insnBytes = 0)

/-- The condition of the split path (40_fetch.md R133). -/
def splitPath (v : Bool) (a : Word) : Bool := v && a.toNat % Config.insnBytes = 2

/-- `signed ? sext_{8W}(v) : zext_{8W}(v)` (R10, R162), for `v` the bytes read as a number. -/
def extend (w : Width) (signed : Bool) (v : Nat) : Word :=
  if signed then (BitVec.ofNat (8 * w.bytes) v).signExtend 64 else BitVec.ofNat 64 (v % 2 ^ (8 * w.bytes))

end Sys2Proof.Machine
end

