-- ==== Sys2Proof/Machine/Ops.lean ====
section
/-! DEFINITION. The named operations over the buffer, the registers, the two caches and the response port, from which
every meaning is made; taking a fault (60_exceptions.md R201, R208) and ending fatal (20_memory.md R63) once for all
of them; and the request port. The block has no return from a fault (R209): a caller goes on by issuing requests. -/

namespace Sys2Proof.Machine

open Sys2Proof

/-! ### The buffer (20_memory.md R50, R62) -/

/-- The byte at an address. -/
def Memory.read (m : Memory) (a : Nat) : Byte :=
  match m with
  | [] => Memory.unlisted
  | c :: rest => if c.1 = a then c.2 else Memory.read rest a

/-- The buffer with one byte changed, in canonical form. -/
def Memory.write (m : Memory) (a : Nat) (b : Byte) : Memory :=
  match m with
  | [] => if b = Memory.unlisted then [] else [(a, b)]
  | c :: rest =>
    if c.1 < a then c :: Memory.write rest a b
    else if c.1 = a then (if b = Memory.unlisted then rest else (a, b) :: rest)
    else (if b = Memory.unlisted then c :: rest else (a, b) :: c :: rest)

/-- `MemRead(a, n)`: the n bytes from `a`, little-endian, as a number (R50). -/
def Memory.readLE (m : Memory) (a n : Nat) : Nat :=
  match n with
  | 0 => 0
  | n + 1 => (m.read a).toNat + 256 * Memory.readLE m (a + 1) n

/-- `MemWrite(a, n, v)`: the n low bytes of `v` from `a`, little-endian (R50). -/
def Memory.writeLE (m : Memory) (a n v : Nat) : Memory :=
  match n with
  | 0 => m
  | n + 1 => Memory.writeLE (m.write a (BitVec.ofNat 8 v)) (a + 1) n (v / 256)

/-- `Check(pa, n)` passes: `pa + n <= MEMSZ` over unbounded integers (R62). -/
def inBounds (s : State) (pa : Word) (n : Nat) : Bool := pa.toNat + n ≤ s.memsz

/-- The state with another buffer. -/
def setMem (m : Memory) (s : State) : State := { s with mem := m }

/-! ### The control registers (10_state.md R24 to R28) -/

/-- ROOT <- A with the low PGSHIFT bits cleared (R24, 43_control.md R182). -/
def setRoot (a : Word) (s : State) : State := { s with blk := { s.blk with root := s.blk.cfg.pageOf a } }

/-- SUP <- b (R183). -/
def setSup (b : Bool) (s : State) : State := { s with blk := { s.blk with sup := b } }

/-- VM <- b (R184). -/
def setVm (b : Bool) (s : State) : State := { s with blk := { s.blk with vm := b } }

/-- What a read of LAST_FAULT gives: the register, and before the first fault a free value (R27, R180; log 6). -/
def readLastFault (s : State) : Word :=
  if s.blk.faultSeen then s.blk.lastFault else Config.freeWord s.draws

/-! ### The translation cache (R33, 20_memory.md R66 to R68) -/

/-- The array of a kind (R33). -/
def Tlb.rows (t : Tlb) (k : Kind) : List TlbRow :=
  match k with
  | .fetch => t.fetch
  | .load => t.load
  | .store => t.store

/-- The cache with one kind's array replaced. -/
def Tlb.setRows (t : Tlb) (k : Kind) (rows : List TlbRow) : Tlb :=
  match k with
  | .fetch => { t with fetch := rows }
  | .load => { t with load := rows }
  | .store => { t with store := rows }

/-- `tag <- INVALID`, the base left as it is (42_flush.md R170). -/
def TlbRow.invalidate (row : TlbRow) : TlbRow := { row with tag := none }

/-- The base cached for the page of `va`, if its row's tag equals that page (R66, R67). -/
def tlbBase (s : State) (k : Kind) (va : Word) : Option Word :=
  match (s.blk.tlb.rows k)[s.blk.cfg.tlbIndex va]? with
  | some row => if row.tag = some (s.blk.cfg.pageOf va) then some row.base else none
  | none => none

/-- The rows of a kind after a refill: one row overwritten (R68). -/
def refilledRows (s : State) (k : Kind) (va base : Word) : List TlbRow :=
  (s.blk.tlb.rows k).set (s.blk.cfg.tlbIndex va) { tag := some (s.blk.cfg.pageOf va), base := base }

/-- The refill of one row of one kind; the other two arrays are left (R68, R81). -/
def refill (k : Kind) (va base : Word) (s : State) : State :=
  { s with blk := { s.blk with tlb := s.blk.tlb.setRows k (refilledRows s k va base) } }

/-- Every TLB tag INVALID (42_flush.md R170, 43_control.md R182). -/
def invalidateTlb (s : State) : State :=
  { s with blk := { s.blk with tlb := { fetch := s.blk.tlb.fetch.map TlbRow.invalidate,
                                        load := s.blk.tlb.load.map TlbRow.invalidate,
                                        store := s.blk.tlb.store.map TlbRow.invalidate } } }

/-! ### The icache (R35, 40_fetch.md R131 to R134) -/

/-- `tag <- INVALID`, bits and handle left as they are (42_flush.md R171). -/
def IcRow.invalidate (row : IcRow) : IcRow := { row with tag := none }

/-- The row whose tag equals the fetch address, if its index holds it (R131, R132). -/
def icacheHit (s : State) (a : Word) : Option IcRow :=
  match s.blk.icache[s.blk.cfg.icacheIndex a]? with
  | some row => if row.tag = some a then some row else none
  | none => none

/-- The rows after a fill: one row overwritten (R134). -/
def filledRows (s : State) (a : Word) (bits : BitVec 32) (h : Handle) : List IcRow :=
  s.blk.icache.set (s.blk.cfg.icacheIndex a) { tag := some a, bits := bits, handle := h }

/-- The fill of one row (R134). -/
def fillIcache (a : Word) (bits : BitVec 32) (h : Handle) (s : State) : State :=
  { s with blk := { s.blk with icache := filledRows s a bits h } }

/-- Every icache tag INVALID (42_flush.md R171). -/
def invalidateIcache (s : State) : State :=
  { s with blk := { s.blk with icache := s.blk.icache.map IcRow.invalidate } }

/-! ### The response port (30_encoding.md R101) -/

/-- At the start of a request `walked` and `decoded` are 0 (R101). -/
def start (s : State) : State :=
  { s with blk := { s.blk with resp := { s.blk.resp with walked := false, decoded := false } } }

/-- `resp.walked <- 1` (R65). -/
def markWalked (s : State) : State :=
  { s with blk := { s.blk with resp := { s.blk.resp with walked := true } } }

/-- `resp.decoded <- 1` (R130, R133). -/
def markDecoded (s : State) : State :=
  { s with blk := { s.blk with resp := { s.blk.resp with decoded := true } } }

/-- The end of an OK request other than FETCH: R its result, H without a meaning and so a draw (R101; log 9). -/
def answer (r : Word) (s : State) : State :=
  { s with draws := s.draws + 1,
           blk := { s.blk with resp :=
             { s.blk.resp with status := .ok, r := r, h := Config.freeHandle s.draws } } }

/-- The end of an OK FETCH (R101, R130). -/
def answerFetch (r : Word) (h : Handle) (s : State) : State :=
  { s with blk := { s.blk with resp := { s.blk.resp with status := .ok, r := r, h := h } } }

/-- `raise F(va)`: LAST_FAULT <- va and the response names F; nothing else of the architectural state changes
(60_exceptions.md R201, R208). R and H have no meaning and are draws (R101; log 9). -/
def takeFault (f : FaultKind) (va : Word) (s : State) : State :=
  { s with draws := s.draws + 1,
           blk := { s.blk with lastFault := va, faultSeen := true, resp :=
             { s.blk.resp with status := .fault f, r := Config.freeWord s.draws, h := Config.freeHandle s.draws } } }

/-- `fatal`: HALTED <- 1 and the response says FATAL; LAST_FAULT is not written (20_memory.md R63). -/
def takeFatal (s : State) : State :=
  { s with draws := s.draws + 1,
           blk := { s.blk with halted := true, resp :=
             { s.blk.resp with status := .fatal, r := Config.freeWord s.draws, h := Config.freeHandle s.draws } } }

/-! ### Parts of a request (00_scope.md R11, R13) -/

/-- How a part of a request ends: it goes on with a value, it raises a fault, or it ends fatal. Each carries the
state with the writes made so far (R13). -/
inductive Phase (α : Type) where
  | go (a : α) (s : State)
  | raise (f : FaultKind) (va : Word) (s : State)
  | fatal (s : State)
deriving DecidableEq, Repr

/-- Go on with the next part, unless the request has ended. -/
def Phase.andThen {α β : Type} (p : Phase α) (next : α → State → Phase β) : Phase β :=
  match p with
  | .go a s => next a s
  | .raise f va s => .raise f va s
  | .fatal s => .fatal s

/-- End the request: with its last part, by taking the fault, or fatal. -/
def Phase.finish {α : Type} (p : Phase α) (last : α → State → State) : State :=
  match p with
  | .go a s => last a s
  | .raise f va s => takeFault f va s
  | .fatal s => takeFatal s

/-- Perform a request that is not refused: while HALTED = 1 there is no step (10_state.md R28). -/
def serve (s : State) (body : State → State) : Host.Outcome State Fault Refusal :=
  if s.blk.halted then .fault .halted else .next (body (start s))

/-! ### The request port and the instances (20_memory.md R82, R83; 60_exceptions.md R212) -/

/-- All the instances, in order of their numbers. -/
def State.blocks (s : State) : List Block := s.others.insertIdx s.index s.blk

/-- The state with instance `k` at hand. No instance changes. -/
def select (k : Nat) (s : State) : Option State :=
  if k = s.index then some s
  else
    match s.blocks[k]? with
    | some b => some { s with blk := b, index := k, others := s.blocks.eraseIdx k }
    | none => none

/-- What the port holds for the next step. -/
inductive Taken where
  /-- No request is pending: the block is idle (60_exceptions.md R216). -/
  | idle
  /-- The pending request goes to an instance whose HALTED is 1: it has no step (10_state.md R28). -/
  | stuck
  /-- The pending request has no meaning. -/
  | refused (r : Refusal)
  /-- The pending request, taken from the port, with its instance at hand. -/
  | request (i : Instr) (s : State)
deriving DecidableEq, Repr

/-- Take the oldest pending request (R82), for the instance it names (R212). A configuration that breaks
00_scope.md R8 is refused; a halted instance accepts no request, whatever its command (10_state.md R28); a reserved
command is refused (30_encoding.md R109). DESIGN CHOICE (log 15): R8 is tested here, before HALTED, on MEMSZ and on the
parameters of the named instance alone; requests to other instances go on, where the spec does not say whether one
instance's parameters refuse the whole run. -/
def takeRequest (s : State) : Taken :=
  match s.port with
  | [] => .idle
  | e :: rest =>
    match select e.block { s with port := rest } with
    | none => .refused (.noSuchBlock e.block)
    | some t =>
      if t.blk.cfg.Ok ∧ 1 ≤ t.memsz then
        if t.blk.halted then .stuck
        else
          match decode e.word with
          | .ok i => .request i t
          | .error (.reservedCommand cmd) => .refused (.reservedCommand cmd)
      else .refused .badConfiguration

end Sys2Proof.Machine
end

