-- ==== Sys2Proof/Machine/Control.lean ====
section
/-! DEFINITION. The control-register requests (43_control.md R180 to R185). None checks the privilege (R185). -/

namespace Sys2Proof.Machine

open Sys2Proof

/-- GET_FAULT_ADDR (R180). -/
def execGetFaultAddr (s : State) : Host.Outcome State Fault Refusal :=
  serve s fun t => answer (readLastFault t) t

/-- GET_ROOT (R181). -/
def execGetRoot (s : State) : Host.Outcome State Fault Refusal :=
  serve s fun t => answer t.blk.root t

/-- SET_ROOT (R182): the low bits of A are cleared and the TLB is flushed; the icache is not. -/
def execSetRoot (a : Word) (s : State) : Host.Outcome State Fault Refusal :=
  serve s fun t => answer 0 (invalidateTlb (setRoot a t))

/-- SET_PRIV (R183). -/
def execSetPriv (a : Word) (s : State) : Host.Outcome State Fault Refusal :=
  serve s fun t => answer 0 (setSup (flagOperand a) t)

/-- SET_VM (R184). -/
def execSetVm (a : Word) (s : State) : Host.Outcome State Fault Refusal :=
  serve s fun t => answer 0 (setVm (flagOperand a) t)

end Sys2Proof.Machine
end

