-- ==== Sys2Proof/Machine/Translate.lean ====
section
/-! DEFINITION. Address translation: the walk (20_memory.md R72 to R75), the engine (R69, R70, R76 to R79) and the
TLB-then-walk procedure every load, store and fetch calls (R65). -/

namespace Sys2Proof.Machine

open Sys2Proof

/-- The PTE at an offset, zero-extended, or none where the bounds check fails (R51, R62, R72). -/
def readPte (s : State) (addr : Word) : Option Word :=
  if inBounds s addr s.blk.cfg.pteBytes then some (BitVec.ofNat 64 (s.mem.readLE addr.toNat s.blk.cfg.pteBytes))
  else none

/-- `(pte >> PPN_SHIFT) << PGSHIFT`, modulo 2^64 (R74, R79). -/
def ppnBase (c : Config) (pte : Word) : Word := (pte >>> c.ppnShift) <<< c.pgshift

/-- Where a walk ends. -/
inductive WalkEnd where
  /-- At a genuine leaf, before its permission is tested. -/
  | leaf (addr pte : Word)
  /-- With a fault. -/
  | fault (f : FaultKind)
  /-- At a PTE address out of bounds. -/
  | outOfBounds
deriving DecidableEq, Repr

/-- The walk from the table at `base`, with `below` levels after this one (R72): V is tested first, then T against
the level (R73 to R75). -/
def walk (s : State) (k : Kind) (va : Word) (below : Nat) (base : Word) : WalkEnd :=
  match below with
  | 0 =>
    match readPte s (s.blk.cfg.pteAddr base va 0) with
    | none => .outOfBounds
    | some pte =>
      if pte.getLsbD pteV then
        if pte.getLsbD pteT then .fault .malformed else .leaf (s.blk.cfg.pteAddr base va 0) pte
      else .fault (accessFault k)
  | n + 1 =>
    match readPte s (s.blk.cfg.pteAddr base va (n + 1)) with
    | none => .outOfBounds
    | some pte =>
      if pte.getLsbD pteV then
        if pte.getLsbD pteT then walk s k va n (ppnBase s.blk.cfg pte) else .fault .malformed
      else .fault (accessFault k)

/-- `UpdateRD` (R78): a write that would leave the PTE unchanged is skipped (D27). -/
def updateRD (k : Kind) (addr pte : Word) (s : State) : State :=
  if updatedPte k pte = pte then s
  else setMem (s.mem.writeLE addr.toNat s.blk.cfg.pteBytes (updatedPte k pte).toNat) s

/-- The engine with VM = 1 (R70, R72, R76 to R79): the page base. -/
def engineOn (va : Word) (k : Kind) (s : State) : Phase Word :=
  if s.blk.cfg.beyondVa va then .raise (accessFault k) va s
  else
    match walk s k va (s.blk.cfg.levels - 1) s.blk.root with
    | .outOfBounds => .fatal s
    | .fault f => .raise f va s
    | .leaf addr pte =>
      if permBit k s.blk.sup pte then .go (ppnBase s.blk.cfg pte) (updateRD k addr pte s)
      else .raise (permFault k) va s

/-- The engine with VM = 0 (R69): identity, within the buffer. -/
def engineOff (va : Word) (s : State) : Phase Word :=
  if s.memsz ≤ va.toNat then .fatal s else .go (s.blk.cfg.pageOf va) s

/-- The translation engine (R69, R70, R72). -/
def engine (va : Word) (k : Kind) (s : State) : Phase Word :=
  if s.blk.vm then engineOn va k s else engineOff va s

/-- `translate(va, k)` (R65): the physical offset. -/
def translateVa (va : Word) (k : Kind) (s : State) : Phase Word :=
  match tlbBase s k va with
  | some base => .go (base ||| s.blk.cfg.pageOffset va) s
  | none =>
    (engine va k (markWalked s)).andThen fun base t =>
      .go (base ||| s.blk.cfg.pageOffset va) (refill k va base t)

end Sys2Proof.Machine
end

