-- ==== Sys2Proof/Machine/Fetch.lean ====
section
/-! DEFINITION. Instruction fetch: the standard path with the icache and the split path without it (40_fetch.md R130 to
R136). -/

namespace Sys2Proof.Machine

open Sys2Proof

/-- `MemRead(pa, 4)` as the 32-bit instruction word (20_memory.md R52). -/
def readInsn (s : State) (pa : Word) : BitVec 32 := BitVec.ofNat 32 (s.mem.readLE pa.toNat Config.insnBytes)

/-- `MemRead(pa, 2)` as a 16-bit unit (R52). -/
def readHalf (s : State) (pa : Word) : BitVec 16 := BitVec.ofNat 16 (s.mem.readLE pa.toNat Config.halfBytes)

/-- The standard path (R130): a hit touches nothing (R132), a miss translates, reads, decodes and fills (R134). -/
def standardFetch (a : Word) (s : State) : State :=
  match icacheHit s a with
  | some row => answerFetch (row.bits.setWidth 64) row.handle s
  | none =>
    (translateVa a .fetch s).finish fun pa t =>
      if inBounds t pa Config.insnBytes then
        answerFetch ((readInsn t pa).setWidth 64) (t.blk.cfg.handleOf (readInsn t pa).toNat)
          (fillIcache a (readInsn t pa) (t.blk.cfg.handleOf (readInsn t pa).toNat) (markDecoded t))
      else takeFatal t

/-- The second unit of a split fetch, at A + 2 modulo 2^64 (R133, R136). -/
def splitHigh (a : Word) (lo : BitVec 16) (h : Handle) (s : State) : State :=
  (translateVa (a + 2) .fetch s).finish fun pa t =>
    if inBounds t pa Config.halfBytes then answerFetch ((readHalf t pa ++ lo).setWidth 64) h t else takeFatal t

/-- `SplitFetch(A)` (R133): the handle comes from the low unit alone (D14). -/
def splitFetch (a : Word) (s : State) : State :=
  (translateVa a .fetch s).finish fun pa t =>
    if inBounds t pa Config.halfBytes then
      if t.blk.cfg.isShort.test (readHalf t pa) then
        answerFetch ((readHalf t pa).setWidth 64) (t.blk.cfg.handleOf (readHalf t pa).toNat) (markDecoded t)
      else splitHigh a (readHalf t pa) (t.blk.cfg.handleOf (readHalf t pa).toNat) (markDecoded t)
    else takeFatal t

/-- FETCH (R130). A fetch address that breaks 20_memory.md R56 is refused; a halted instance has no step. -/
def execFetch (v : Bool) (a : Word) (s : State) : Host.Outcome State Fault Refusal :=
  if s.blk.halted || fetchAligned v a then
    serve s (if splitPath v a then splitFetch a else standardFetch a)
  else .refused (.misalignedFetch v a)

end Sys2Proof.Machine
end

