-- ==== Sys2Proof/Machine/Flush.lean ====
section
/-! DEFINITION. The flush requests (42_flush.md R170, R171). Neither implies the other (20_memory.md R90). -/

namespace Sys2Proof.Machine

open Sys2Proof

/-- FLUSH_TLB (R170). -/
def execFlushTlb (s : State) : Host.Outcome State Fault Refusal :=
  serve s fun t => answer 0 (invalidateTlb t)

/-- FLUSH_ICACHE (R171). -/
def execFlushIcache (s : State) : Host.Outcome State Fault Refusal :=
  serve s fun t => answer 0 (invalidateIcache t)

end Sys2Proof.Machine
end

