-- ==== Sys2Proof/Machine/LoadStore.lean ====
section
/-! DEFINITION. Loads and stores (41_load_store.md R150 to R163). -/

namespace Sys2Proof.Machine

open Sys2Proof

/-- `LoadOp(A, W, signed)` (R162). -/
def loadOp (w : Width) (signed : Bool) (a : Word) (s : State) : State :=
  if aligned w a then
    (translateVa a .load s).finish fun pa t =>
      if inBounds t pa w.bytes then answer (extend w signed (t.mem.readLE pa.toNat w.bytes)) t else takeFatal t
  else takeFault .misalignedLoad a s

/-- `StoreOp(A, W, D)` (R163). -/
def storeOp (w : Width) (a d : Word) (s : State) : State :=
  if aligned w a then
    (translateVa a .store s).finish fun pa t =>
      if inBounds t pa w.bytes then answer 0 (setMem (t.mem.writeLE pa.toNat w.bytes d.toNat) t) else takeFatal t
  else takeFault .misalignedStore a s

/-- LOAD.U8 (R150). -/
def execLoadU8 (a : Word) (s : State) : Host.Outcome State Fault Refusal := serve s (loadOp .w1 false a)
/-- LOAD.U16 (R151). -/
def execLoadU16 (a : Word) (s : State) : Host.Outcome State Fault Refusal := serve s (loadOp .w2 false a)
/-- LOAD.U32 (R152). -/
def execLoadU32 (a : Word) (s : State) : Host.Outcome State Fault Refusal := serve s (loadOp .w4 false a)
/-- LOAD.U64 (R153). -/
def execLoadU64 (a : Word) (s : State) : Host.Outcome State Fault Refusal := serve s (loadOp .w8 false a)
/-- LOAD.S8 (R154). -/
def execLoadS8 (a : Word) (s : State) : Host.Outcome State Fault Refusal := serve s (loadOp .w1 true a)
/-- LOAD.S16 (R155). -/
def execLoadS16 (a : Word) (s : State) : Host.Outcome State Fault Refusal := serve s (loadOp .w2 true a)
/-- LOAD.S32 (R156). -/
def execLoadS32 (a : Word) (s : State) : Host.Outcome State Fault Refusal := serve s (loadOp .w4 true a)
/-- LOAD.S64 (R157). -/
def execLoadS64 (a : Word) (s : State) : Host.Outcome State Fault Refusal := serve s (loadOp .w8 true a)

/-- STORE.U8 (R158). -/
def execStoreU8 (a d : Word) (s : State) : Host.Outcome State Fault Refusal := serve s (storeOp .w1 a d)
/-- STORE.U16 (R159). -/
def execStoreU16 (a d : Word) (s : State) : Host.Outcome State Fault Refusal := serve s (storeOp .w2 a d)
/-- STORE.U32 (R160). -/
def execStoreU32 (a d : Word) (s : State) : Host.Outcome State Fault Refusal := serve s (storeOp .w4 a d)
/-- STORE.U64 (R161). -/
def execStoreU64 (a d : Word) (s : State) : Host.Outcome State Fault Refusal := serve s (storeOp .w8 a d)

end Sys2Proof.Machine
end

