-- ==== Sys2Proof/Machine/Dispatch.lean ====
section
/-! DEFINITION. One arm for each request (30_encoding.md R108). -/

namespace Sys2Proof.Machine

open Sys2Proof

def exec (i : Instr) (s : State) : Host.Outcome State Fault Refusal :=
  match i with
  | .loadU8 a => Sys2Proof.Machine.execLoadU8 a s
  | .loadU16 a => Sys2Proof.Machine.execLoadU16 a s
  | .loadU32 a => Sys2Proof.Machine.execLoadU32 a s
  | .loadU64 a => Sys2Proof.Machine.execLoadU64 a s
  | .loadS8 a => Sys2Proof.Machine.execLoadS8 a s
  | .loadS16 a => Sys2Proof.Machine.execLoadS16 a s
  | .loadS32 a => Sys2Proof.Machine.execLoadS32 a s
  | .loadS64 a => Sys2Proof.Machine.execLoadS64 a s
  | .storeU8 a d => Sys2Proof.Machine.execStoreU8 a d s
  | .storeU16 a d => Sys2Proof.Machine.execStoreU16 a d s
  | .storeU32 a d => Sys2Proof.Machine.execStoreU32 a d s
  | .storeU64 a d => Sys2Proof.Machine.execStoreU64 a d s
  | .fetch v a => Sys2Proof.Machine.execFetch v a s
  | .getFaultAddr => Sys2Proof.Machine.execGetFaultAddr s
  | .getRoot => Sys2Proof.Machine.execGetRoot s
  | .setRoot a => Sys2Proof.Machine.execSetRoot a s
  | .setPriv a => Sys2Proof.Machine.execSetPriv a s
  | .setVm a => Sys2Proof.Machine.execSetVm a s
  | .flushTlb => Sys2Proof.Machine.execFlushTlb s
  | .flushIcache => Sys2Proof.Machine.execFlushIcache s

end Sys2Proof.Machine
end

