-- ==== Sys2Proof/Machine/Step.lean ====
section
/-! DEFINITION. One step: the block performs the oldest pending request as one indivisible step (00_scope.md R13), or is
idle (60_exceptions.md R216). -/

namespace Sys2Proof.Machine

open Sys2Proof

def step (s : State) : Host.Outcome State Fault Refusal :=
  match takeRequest s with
  | .idle => .next s
  | .stuck => .fault .halted
  | .refused r => .refused r
  | .request i t => exec i t

/-- `s` with one more request at the head of its port, for the instance at hand: the record whose low `nbits` bits are
`w`'s and whose other bits are 0 (log 11). -/
def State.withFetchWord (s : State) (nbits w : Nat) : State :=
  { s with port := { block := s.index, word := BitVec.ofNat 136 (w % 2 ^ nbits) } :: s.port }

end Sys2Proof.Machine
end

