-- ==== Sys2Proof/Laws/PerInstr.lean ====
section
/-! SUPPORT. Facts about every request as syntax, one lemma per constructor: the record it is encoded in has its fields,
and its command byte is of its own row of the opcode table (30_encoding.md R100, R108). -/

namespace Sys2Proof

/-- The bits of a record, field by field (R100). -/
theorem Request.getLsbD_toBits (r : Request) (i : Nat) :
    r.toBits.getLsbD i =
      if i < 72 then (if i < 8 then r.cmd.getLsbD i else r.a.getLsbD (i - 8)) else r.d.getLsbD (i - 72) := by
  refine (BitVec.getLsbD_append (x := r.d) (y := r.a ++ r.cmd) (i := i)).trans ?_
  by_cases h : i < 72
  · rw [if_pos h, if_pos h]
    exact BitVec.getLsbD_append
  · rw [if_neg h, if_neg h]

/-- The fields of a record made from fields are those fields (R100). -/
theorem Request.ofBits_toBits (r : Request) : Request.ofBits r.toBits = r := by
  cases r with
  | mk cmd a d =>
    simp only [Request.ofBits, Request.mk.injEq]
    refine ⟨?_, ?_, ?_⟩ <;> apply BitVec.eq_of_getLsbD_eq <;> intro i hi <;>
      simp only [BitVec.getLsbD_extractLsb', Request.getLsbD_toBits, hi, decide_true, Bool.true_and]
    · simp [show i < 72 by omega, hi]
    · simp [show 8 + i < 72 by omega]
    · simp

/-- The fields of a request's record (R100, R115). -/
@[simp] theorem Request.ofBits_encode (i : Instr) : Request.ofBits (encode i) = i.request :=
  Request.ofBits_toBits i.request

/-- The request's record carries a command of the request's own table row. -/
def Laws.EncodedRow.Statement (i : Instr) : Prop :=
  ∃ row ∈ opcodeTable, row.mnemonic = i.mnemonic ∧ row.covers (Request.ofBits (encode i)).cmd = true

namespace Laws.EncodedRow

/-- A row of the table that has a request's mnemonic and covers its command is a witness. -/
theorem intro (i : Instr) (row : OpcodeRow) (cmd : BitVec 8) (hc : i.request.cmd = cmd)
    (h : row ∈ opcodeTable ∧ row.covers cmd = true) (hm : row.mnemonic = i.mnemonic) : Statement i :=
  ⟨row, h.1, hm, by rw [Request.ofBits_encode, hc]; exact h.2⟩

theorem loadU8 (a : Word) : Statement (.loadU8 a) := intro _ ⟨"LOAD.U8", 0xFF, 0x00⟩ 0x00 rfl (by decide) rfl
theorem loadU16 (a : Word) : Statement (.loadU16 a) := intro _ ⟨"LOAD.U16", 0xFF, 0x01⟩ 0x01 rfl (by decide) rfl
theorem loadU32 (a : Word) : Statement (.loadU32 a) := intro _ ⟨"LOAD.U32", 0xFF, 0x02⟩ 0x02 rfl (by decide) rfl
theorem loadU64 (a : Word) : Statement (.loadU64 a) := intro _ ⟨"LOAD.U64", 0xFF, 0x03⟩ 0x03 rfl (by decide) rfl
theorem loadS8 (a : Word) : Statement (.loadS8 a) := intro _ ⟨"LOAD.S8", 0xFF, 0x08⟩ 0x08 rfl (by decide) rfl
theorem loadS16 (a : Word) : Statement (.loadS16 a) := intro _ ⟨"LOAD.S16", 0xFF, 0x09⟩ 0x09 rfl (by decide) rfl
theorem loadS32 (a : Word) : Statement (.loadS32 a) := intro _ ⟨"LOAD.S32", 0xFF, 0x0A⟩ 0x0A rfl (by decide) rfl
theorem loadS64 (a : Word) : Statement (.loadS64 a) := intro _ ⟨"LOAD.S64", 0xFF, 0x0B⟩ 0x0B rfl (by decide) rfl
theorem storeU8 (a d : Word) : Statement (.storeU8 a d) := intro _ ⟨"STORE.U8", 0xFF, 0x10⟩ 0x10 rfl (by decide) rfl
theorem storeU16 (a d : Word) : Statement (.storeU16 a d) := intro _ ⟨"STORE.U16", 0xFF, 0x11⟩ 0x11 rfl (by decide) rfl
theorem storeU32 (a d : Word) : Statement (.storeU32 a d) := intro _ ⟨"STORE.U32", 0xFF, 0x12⟩ 0x12 rfl (by decide) rfl
theorem storeU64 (a d : Word) : Statement (.storeU64 a d) := intro _ ⟨"STORE.U64", 0xFF, 0x13⟩ 0x13 rfl (by decide) rfl
theorem fetch (v : Bool) (a : Word) : Statement (.fetch v a) :=
  match v with
  | false => intro _ ⟨"FETCH", 0xFE, 0x20⟩ 0x20 rfl (by decide) rfl
  | true => intro _ ⟨"FETCH", 0xFE, 0x20⟩ 0x21 rfl (by decide) rfl
theorem getFaultAddr : Statement .getFaultAddr := intro _ ⟨"GET_FAULT_ADDR", 0xFF, 0x30⟩ 0x30 rfl (by decide) rfl
theorem getRoot : Statement .getRoot := intro _ ⟨"GET_ROOT", 0xFF, 0x31⟩ 0x31 rfl (by decide) rfl
theorem setRoot (a : Word) : Statement (.setRoot a) := intro _ ⟨"SET_ROOT", 0xFF, 0x32⟩ 0x32 rfl (by decide) rfl
theorem setPriv (a : Word) : Statement (.setPriv a) := intro _ ⟨"SET_PRIV", 0xFF, 0x33⟩ 0x33 rfl (by decide) rfl
theorem setVm (a : Word) : Statement (.setVm a) := intro _ ⟨"SET_VM", 0xFF, 0x34⟩ 0x34 rfl (by decide) rfl
theorem flushTlb : Statement .flushTlb := intro _ ⟨"FLUSH_TLB", 0xFF, 0x40⟩ 0x40 rfl (by decide) rfl
theorem flushIcache : Statement .flushIcache := intro _ ⟨"FLUSH_ICACHE", 0xFF, 0x41⟩ 0x41 rfl (by decide) rfl

end Laws.EncodedRow

end Sys2Proof
end

