-- ==== Sys2Proof/WellFormed.lean ====
section
/-! DEFINITION. Which requests keep the caller's contract. The only one the spec puts on a request's own operands is the
fetch alignment of 20_memory.md R56 and 70_reset_and_hazards.md R241; a request that breaks it is refused. -/

namespace Sys2Proof

/-- R56: a fetch address is even, and with v = 0 a multiple of four. Every other request is within the contract
whatever its operands are (R54 makes a misaligned load or store a fault, R111 ignores unused operand bits). -/
def Instr.wellFormed : Instr → Bool
  | .fetch v a => a.toNat % 2 = 0 && (v || a.toNat % 4 = 0)
  | .loadU8 _ | .loadU16 _ | .loadU32 _ | .loadU64 _ => true
  | .loadS8 _ | .loadS16 _ | .loadS32 _ | .loadS64 _ => true
  | .storeU8 _ _ | .storeU16 _ _ | .storeU32 _ _ | .storeU64 _ _ => true
  | .getFaultAddr | .getRoot | .setRoot _ | .setPriv _ | .setVm _ => true
  | .flushTlb | .flushIcache => true

end Sys2Proof
end

