-- ==== Sys2Proof/Safety.lean ====
section
/-! DEFINITION. The terms claims are stated in: the invariant of a legal state, the forms of requests, and the spec's
translation written as relations over memory, beside which the machine's functions can be held. -/

namespace Sys2Proof.Machine

open Sys2Proof

/-! ### The spec's formulas

Written out from the rules, apart from the machine's own functions, so that a statement made with them fixes what the
machine computes. Sys2Proof/Laws/Formula.lean has one equation for each. -/

namespace Formula

/-- `PGSIZE - 1` at 64 bits (00_scope.md R7). -/
def pageMask (c : Config) : Word := BitVec.ofNat 64 (2 ^ c.pgshift) - 1#64

/-- The lookup tag `va & ~(PGSIZE - 1)` (20_memory.md R66). -/
def page (c : Config) (va : Word) : Word := va &&& ~~~pageMask c

/-- `va & (PGSIZE - 1)` (R67). -/
def pageOffset (c : Config) (va : Word) : Word := va &&& pageMask c

/-- `(va >> PGSHIFT) mod TLB_ENTRIES` (R66). -/
def tlbRow (c : Config) (va : Word) : Nat := (va.toNat >>> c.pgshift) % c.tlbEntries

/-- `(A / 4) mod ICACHE_ENTRIES` (40_fetch.md R131). -/
def icacheRow (c : Config) (a : Word) : Nat := (a.toNat / 4) % c.icacheEntries

/-- `PTIDXBITS = PGSHIFT - log2(PTE_BYTES)` (R7). -/
def ptidxBits (c : Config) : Nat := c.pgshift - Nat.log2 c.pteBytes

/-- `VA_BITS = PGSHIFT + LEVELS * PTIDXBITS` (R7). -/
def vaBits (c : Config) : Nat := c.pgshift + c.levels * ptidxBits c

/-- `idx = (va >> shift) & (2^PTIDXBITS - 1)` with `shift = PGSHIFT + (LEVELS - 1 - l) * PTIDXBITS` (20_memory.md R72),
for `below = LEVELS - 1 - l`. -/
def index (c : Config) (va : Word) (below : Nat) : Nat :=
  (va.toNat >>> (c.pgshift + below * ptidxBits c)) &&& (2 ^ ptidxBits c - 1)

/-- `pte_addr = base + idx * PTE_BYTES`, modulo 2^64 (R72). -/
def pteAddr (c : Config) (base va : Word) (below : Nat) : Word :=
  base + BitVec.ofNat 64 (index c va below * c.pteBytes)

/-- `(pte >> PPN_SHIFT) << PGSHIFT` at 64 bits (R74, R79). -/
def ppnBase (c : Config) (pte : Word) : Word := (pte >>> c.ppnShift) <<< c.pgshift

/-- The bit a leaf is tested by (R76). -/
def permBit (k : Kind) (sup : Bool) (pte : Word) : Bool :=
  match k, sup with
  | .fetch, true => pte.getLsbD 7
  | .fetch, false => pte.getLsbD 4
  | .load, true => pte.getLsbD 9
  | .load, false => pte.getLsbD 6
  | .store, true => pte.getLsbD 8
  | .store, false => pte.getLsbD 5

/-- AccessFault(k) (R73). -/
def accessFault (k : Kind) : FaultKind :=
  if k = .fetch then .fetchAccess else if k = .load then .loadAccess else .storeAccess

/-- PermFault(k) (R77). -/
def permFault (k : Kind) : FaultKind :=
  if k = .fetch then .fetchPerm else if k = .load then .loadPerm else .storePerm

/-- `DISPATCH[b mod DTS]` (30_encoding.md R114). -/
def handle (c : Config) (b : Nat) : Handle := Config.dispatch c.decoder (b % c.dts)

/-- IS_SHORT(u) (00_scope.md R6). -/
def isShort (c : Config) (u : BitVec 16) : Bool :=
  match c.isShort with
  | .lowBitsNotBoth => u.extractLsb' 0 2 != 0b11
  | .units short => short.contains u

/-- The base of the row a lookup of `va` hits: the row at its index, if the row's tag is its page (20_memory.md R66,
R67). -/
def tlbHit (s : State) (k : Kind) (va : Word) : Option Word :=
  match (s.blk.tlb.rows k)[tlbRow s.blk.cfg va]? with
  | some row => if row.tag = some (page s.blk.cfg va) then some row.base else none
  | none => none

/-- The icache row a standard-path fetch of `a` hits: the row at its index, if the row's tag is `a` (40_fetch.md R131,
R132). -/
def icacheHit (s : State) (a : Word) : Option IcRow :=
  match s.blk.icache[icacheRow s.blk.cfg a]? with
  | some row => if row.tag = some a then some row else none
  | none => none

/-- The instance `b` that a request issued to number `n` goes to (60_exceptions.md R212): the one at hand, or another. -/
def Addressed (s : State) (n : Nat) (b : Block) : Prop :=
  (n = s.index ∧ b = s.blk) ∨ (n ≠ s.index ∧ (s.others.insertIdx s.index s.blk)[n]? = some b)

end Formula

/-! ### The invariant -/

/-- R33, R34: the arrays have TLB_ENTRIES rows; a valid row stands at its tag's index, and its tag and base are
page-aligned. -/
structure Block.TlbOk (b : Block) : Prop where
  length : ∀ k, (b.tlb.rows k).length = b.cfg.tlbEntries
  row : ∀ k i row t, (b.tlb.rows k)[i]? = some row → row.tag = some t →
    i = Formula.tlbRow b.cfg t ∧ Formula.page b.cfg t = t ∧ Formula.page b.cfg row.base = row.base

/-- R35: the icache has ICACHE_ENTRIES rows; a valid row stands at its tag's index, its tag is four-aligned, and its
handle is the one DISPATCH gives its bits. -/
structure Block.IcacheOk (b : Block) : Prop where
  length : b.icache.length = b.cfg.icacheEntries
  row : ∀ i row a, b.icache[i]? = some row → row.tag = some a →
    i = Formula.icacheRow b.cfg a ∧ a.toNat % 4 = 0 ∧ row.handle = Formula.handle b.cfg row.bits.toNat

/-- What holds of every instance: R24 (ROOT is page-aligned), R34, R35, and R63 (HALTED is 1 exactly after FATAL). -/
structure Block.Inv (b : Block) : Prop where
  root : Formula.page b.cfg b.root = b.root
  tlb : b.TlbOk
  icache : b.IcacheOk
  halted : b.halted = true ↔ b.resp.status = .fatal

/-- What holds of every state a run reaches: the buffer is in canonical form and within [0, MEMSZ) (R31), and every
instance is legal. -/
structure State.Inv (s : State) : Prop where
  memWf : s.mem.wf
  memBound : ∀ c ∈ s.mem, c.1 < s.memsz
  index : s.index ≤ s.others.length
  blk : s.blk.Inv
  others : ∀ b ∈ s.others, b.Inv

/-! ### Forms of requests -/

/-- The width, the signedness and the address of a load (41_load_store.md R150 to R157). -/
def loadForm : Instr → Option (Width × Bool × Word)
  | .loadU8 a => some (.w1, false, a)
  | .loadU16 a => some (.w2, false, a)
  | .loadU32 a => some (.w4, false, a)
  | .loadU64 a => some (.w8, false, a)
  | .loadS8 a => some (.w1, true, a)
  | .loadS16 a => some (.w2, true, a)
  | .loadS32 a => some (.w4, true, a)
  | .loadS64 a => some (.w8, true, a)
  | .storeU8 _ _ | .storeU16 _ _ | .storeU32 _ _ | .storeU64 _ _ | .fetch _ _ | .getFaultAddr | .getRoot
  | .setRoot _ | .setPriv _ | .setVm _ | .flushTlb | .flushIcache => none

/-- The width, the address and the data of a store (R158 to R161). -/
def storeForm : Instr → Option (Width × Word × Word)
  | .storeU8 a d => some (.w1, a, d)
  | .storeU16 a d => some (.w2, a, d)
  | .storeU32 a d => some (.w4, a, d)
  | .storeU64 a d => some (.w8, a, d)
  | .loadU8 _ | .loadU16 _ | .loadU32 _ | .loadU64 _ | .loadS8 _ | .loadS16 _ | .loadS32 _ | .loadS64 _
  | .fetch _ _ | .getFaultAddr | .getRoot | .setRoot _ | .setPriv _ | .setVm _ | .flushTlb | .flushIcache => none

/-- The access kind and the address a request translates first; none for a request that translates nothing. -/
def accessOf : Instr → Option (Kind × Word)
  | .loadU8 a | .loadU16 a | .loadU32 a | .loadU64 a | .loadS8 a | .loadS16 a | .loadS32 a | .loadS64 a =>
    some (.load, a)
  | .storeU8 a _ | .storeU16 a _ | .storeU32 a _ | .storeU64 a _ => some (.store, a)
  | .fetch _ a => some (.fetch, a)
  | .getFaultAddr | .getRoot | .setRoot _ | .setPriv _ | .setVm _ | .flushTlb | .flushIcache => none

/-- The alignment a request's address must have for it to translate (20_memory.md R54, R56). -/
def addressAligned : Instr → Bool
  | .loadU8 _ | .loadS8 _ | .storeU8 _ _ => true
  | .loadU16 a | .loadS16 a | .storeU16 a _ => a.toNat % 2 = 0
  | .loadU32 a | .loadS32 a | .storeU32 a _ => a.toNat % 4 = 0
  | .loadU64 a | .loadS64 a | .storeU64 a _ => a.toNat % 8 = 0
  | .fetch v a => a.toNat % 2 = 0 && (v || a.toNat % 4 = 0)
  | .getFaultAddr | .getRoot | .setRoot _ | .setPriv _ | .setVm _ | .flushTlb | .flushIcache => true

/-- Whether the icache serves a request: a standard-path fetch whose row's tag is its address (40_fetch.md R132). -/
def icacheServes (i : Instr) (s : State) : Bool :=
  match i with
  | .fetch _ a => a.toNat % 4 = 0 && (Formula.icacheHit s a).isSome
  | .loadU8 _ | .loadU16 _ | .loadU32 _ | .loadU64 _ | .loadS8 _ | .loadS16 _ | .loadS32 _ | .loadS64 _
  | .storeU8 _ _ | .storeU16 _ _ | .storeU32 _ _ | .storeU64 _ _ | .getFaultAddr | .getRoot | .setRoot _
  | .setPriv _ | .setVm _ | .flushTlb | .flushIcache => false

/-- The bytes an access of a request reads or writes at its first physical offset: W for loads and stores, 4 on the
standard fetch path and 2 on the split path (R58). -/
def accessBytes : Instr → Nat
  | .loadU8 _ | .loadS8 _ | .storeU8 _ _ => 1
  | .loadU16 _ | .loadS16 _ | .storeU16 _ _ => 2
  | .loadU32 _ | .loadS32 _ | .storeU32 _ _ => 4
  | .loadU64 _ | .loadS64 _ | .storeU64 _ _ => 8
  | .fetch _ a => if a.toNat % 4 = 0 then 4 else 2
  | .getFaultAddr | .getRoot | .setRoot _ | .setPriv _ | .setVm _ | .flushTlb | .flushIcache => 0

/-- A split fetch (40_fetch.md R133). -/
def isSplitFetch : Instr → Bool
  | .fetch v a => v && a.toNat % 4 = 2
  | .loadU8 _ | .loadU16 _ | .loadU32 _ | .loadU64 _ | .loadS8 _ | .loadS16 _ | .loadS32 _ | .loadS64 _
  | .storeU8 _ _ | .storeU16 _ _ | .storeU32 _ _ | .storeU64 _ _ | .getFaultAddr | .getRoot | .setRoot _
  | .setPriv _ | .setVm _ | .flushTlb | .flushIcache => false

/-- Whether the request reads the field A (30_encoding.md R108). -/
def readsA : Instr → Bool
  | .getFaultAddr | .getRoot | .flushTlb | .flushIcache => false
  | .loadU8 _ | .loadU16 _ | .loadU32 _ | .loadU64 _ | .loadS8 _ | .loadS16 _ | .loadS32 _ | .loadS64 _
  | .storeU8 _ _ | .storeU16 _ _ | .storeU32 _ _ | .storeU64 _ _ | .fetch _ _ | .setRoot _ | .setPriv _
  | .setVm _ => true

/-! ### The spec's results, field by field -/

/-- `s` after a response OK with result `r`, from a request other than FETCH (30_encoding.md R101): only the response
and the number of draws differ. -/
def answered (r : Word) (walked decoded : Bool) (s : State) : State :=
  { s with draws := s.draws + 1,
           blk := { s.blk with resp :=
             { status := .ok, r := r, h := Config.freeHandle s.draws, walked := walked, decoded := decoded } } }

/-- `s` after an OK FETCH: only the response differs. -/
def fetched (r : Word) (h : Handle) (walked decoded : Bool) (s : State) : State :=
  { s with blk := { s.blk with resp :=
      { status := .ok, r := r, h := h, walked := walked, decoded := decoded } } }

/-- `s` after `raise f(va)` (60_exceptions.md R201): LAST_FAULT, the response and the number of draws differ. -/
def faulted (f : FaultKind) (va : Word) (walked decoded : Bool) (s : State) : State :=
  { s with draws := s.draws + 1,
           blk := { s.blk with lastFault := va, faultSeen := true, resp :=
             { status := .fault f, r := Config.freeWord s.draws, h := Config.freeHandle s.draws,
               walked := walked, decoded := decoded } } }

/-- `s` after `fatal` (20_memory.md R63): HALTED, the response and the number of draws differ. -/
def halts (walked decoded : Bool) (s : State) : State :=
  { s with draws := s.draws + 1,
           blk := { s.blk with halted := true, resp :=
             { status := .fatal, r := Config.freeWord s.draws, h := Config.freeHandle s.draws,
               walked := walked, decoded := decoded } } }

/-- `s` after an icache fill (40_fetch.md R131, R134): row (A / 4) mod ICACHE_ENTRIES is overwritten. -/
def filled (a : Word) (bits : BitVec 32) (h : Handle) (s : State) : State :=
  let row : IcRow := { tag := some a, bits := bits, handle := h }
  { s with blk := { s.blk with icache := s.blk.icache.set (Formula.icacheRow s.blk.cfg a) row } }

/-- `s` with other values of ROOT, SUP and VM at the instance at hand. -/
def withModes (root : Word) (sup vm : Bool) (s : State) : State :=
  { s with blk := { s.blk with root := root, sup := sup, vm := vm } }

/-- `s` with other instances beside the one at hand, and another port. -/
def withOthers (index : Nat) (others : List Block) (port : List PortEntry) (s : State) : State :=
  { s with index := index, others := others, port := port }

/-! ### The spec's translation, as relations -/

/-- `sum over j in [0, n) of buffer[a + j] * 2^(8j)` (R50). -/
def bytesLE (m : Memory) (a n : Nat) : Nat :=
  ((List.range n).map fun j => (m.read (a + j)).toNat * 2 ^ (8 * j)).sum

/-- The PTE at `addr` is inside the buffer and reads as `pte` (R51, R62). -/
def PteAt (s : State) (addr pte : Word) : Prop :=
  addr.toNat + s.blk.cfg.pteBytes ≤ s.memsz ∧
  pte = BitVec.ofNat 64 (bytesLE s.mem addr.toNat s.blk.cfg.pteBytes)

/-- A walk for `va` from ROOT gets to the table at `base` with `below` levels after it (R72): it starts at ROOT, and
each valid table descriptor leads to the table it names (R74). -/
inductive Reaches (s : State) (va : Word) : Nat → Word → Prop where
  | root : Reaches s va (s.blk.cfg.levels - 1) s.blk.root
  | descend {n : Nat} {base pte : Word} : Reaches s va (n + 1) base →
      PteAt s (Formula.pteAddr s.blk.cfg base va (n + 1)) pte → pte.getLsbD 1 = true → pte.getLsbD 0 = true →
      Reaches s va n (Formula.ppnBase s.blk.cfg pte)

/-- A walk for `va` ends at a genuine leaf: a valid PTE with T = 0 at the final level (R72). -/
def LeafAt (s : State) (va addr pte : Word) : Prop :=
  ∃ base, Reaches s va 0 base ∧ addr = Formula.pteAddr s.blk.cfg base va 0 ∧ PteAt s addr pte ∧
    pte.getLsbD 1 = true ∧ pte.getLsbD 0 = false

/-- The leaf after its referenced bit, and for a store its dirty bit, are set (R78). -/
def referencedPte (k : Kind) (pte : Word) : Word :=
  pte ||| (if k = .store then 0b1100#64 else 0b0100#64)

/-- The buffer after the R/D update of a leaf (R78, D27). -/
def leafWritten (s : State) (k : Kind) (addr pte : Word) : Memory :=
  if referencedPte k pte = pte then s.mem
  else s.mem.writeLE addr.toNat s.blk.cfg.pteBytes (referencedPte k pte).toNat

/-- `translate(va, k)` updates the leaf `pte` at `addr`: it misses, the walk ends at that leaf, and the permission check
passes (R72, R76, R78). -/
def UpdatesLeaf (s : State) (k : Kind) (va addr pte : Word) : Prop :=
  Formula.tlbHit s k va = none ∧ s.blk.vm = true ∧ va.toNat < 2 ^ Formula.vaBits s.blk.cfg ∧
  LeafAt s va addr pte ∧ Formula.permBit k s.blk.sup pte = true

/-- `x` is one of the PTE_BYTES of the leaf that `translate(va, k)` updates. -/
def LeafByte (s : State) (k : Kind) (va : Word) (x : Nat) : Prop :=
  ∃ addr pte, UpdatesLeaf s k va addr pte ∧ addr.toNat ≤ x ∧ x < addr.toNat + s.blk.cfg.pteBytes

/-- `s` after a refill (R68): `walked` is 1, the row of the page of `va` in the kind's array is overwritten, and the
buffer is `m`. -/
def installed (s : State) (k : Kind) (va base : Word) (m : Memory) : State :=
  { s with mem := m,
           blk := { s.blk with
             tlb := s.blk.tlb.setRows k ((s.blk.tlb.rows k).set (Formula.tlbRow s.blk.cfg va)
               { tag := some (Formula.page s.blk.cfg va), base := base }),
             resp := { s.blk.resp with walked := true } } }

/-- `translate(va, k)` succeeds with offset `pa`, leaving `t` (R65 to R69, R72, R78, R79). -/
inductive Translates (s : State) (va : Word) (k : Kind) : Word → State → Prop where
  | hit {base : Word} : Formula.tlbHit s k va = some base →
      Translates s va k (base ||| Formula.pageOffset s.blk.cfg va) s
  | identity : Formula.tlbHit s k va = none → s.blk.vm = false → va.toNat < s.memsz →
      Translates s va k va (installed s k va (Formula.page s.blk.cfg va) s.mem)
  | walked {addr pte : Word} : Formula.tlbHit s k va = none → s.blk.vm = true →
      va.toNat < 2 ^ Formula.vaBits s.blk.cfg → LeafAt s va addr pte → Formula.permBit k s.blk.sup pte = true →
      Translates s va k (Formula.ppnBase s.blk.cfg pte ||| Formula.pageOffset s.blk.cfg va)
        (installed s k va (Formula.ppnBase s.blk.cfg pte) (leafWritten s k addr pte))

/-- `translate(va, k)` raises `f` (R70, R73, R75, R77). -/
inductive TranslateFaults (s : State) (va : Word) (k : Kind) : FaultKind → Prop where
  | highBits : Formula.tlbHit s k va = none → s.blk.vm = true → 2 ^ Formula.vaBits s.blk.cfg ≤ va.toNat →
      TranslateFaults s va k (Formula.accessFault k)
  | invalid {n : Nat} {base pte : Word} : Formula.tlbHit s k va = none → s.blk.vm = true →
      va.toNat < 2 ^ Formula.vaBits s.blk.cfg → Reaches s va n base →
      PteAt s (Formula.pteAddr s.blk.cfg base va n) pte → pte.getLsbD 1 = false →
      TranslateFaults s va k (Formula.accessFault k)
  | earlyLeaf {n : Nat} {base pte : Word} : Formula.tlbHit s k va = none → s.blk.vm = true →
      va.toNat < 2 ^ Formula.vaBits s.blk.cfg → Reaches s va (n + 1) base →
      PteAt s (Formula.pteAddr s.blk.cfg base va (n + 1)) pte → pte.getLsbD 1 = true → pte.getLsbD 0 = false →
      TranslateFaults s va k .malformed
  | lateTable {base pte : Word} : Formula.tlbHit s k va = none → s.blk.vm = true →
      va.toNat < 2 ^ Formula.vaBits s.blk.cfg → Reaches s va 0 base →
      PteAt s (Formula.pteAddr s.blk.cfg base va 0) pte → pte.getLsbD 1 = true → pte.getLsbD 0 = true →
      TranslateFaults s va k .malformed
  | denied {addr pte : Word} : Formula.tlbHit s k va = none → s.blk.vm = true →
      va.toNat < 2 ^ Formula.vaBits s.blk.cfg → LeafAt s va addr pte → Formula.permBit k s.blk.sup pte = false →
      TranslateFaults s va k (Formula.permFault k)

/-- `translate(va, k)` ends fatal (R62, R69). -/
inductive TranslateFatal (s : State) (va : Word) (k : Kind) : Prop where
  | outside : Formula.tlbHit s k va = none → s.blk.vm = false → s.memsz ≤ va.toNat → TranslateFatal s va k
  | pteOutside {n : Nat} {base : Word} : Formula.tlbHit s k va = none → s.blk.vm = true →
      va.toNat < 2 ^ Formula.vaBits s.blk.cfg → Reaches s va n base →
      s.memsz < (Formula.pteAddr s.blk.cfg base va n).toNat + s.blk.cfg.pteBytes → TranslateFatal s va k

end Sys2Proof.Machine
end

