-- ==== Sys2Proof/Certificates/Slice0/Obligations.lean ====
section
/-! DEFINITION. The statements for the provers. `answered`, `fetched`, `faulted` and `halts` (Safety.lean) are explicit
records: they say what a request leaves unchanged as well as what it writes. `Translates`, `TranslateFaults` and
`TranslateFatal` are the spec's translation as relations over the buffer, apart from the machine's functions. -/

open Sys2Proof Sys2Proof.Machine

/-! ### Encoding -/

/-- R100, R108, R115: decoding the record of a request gives the request back, with every operand at every value. -/
def Obligations.DecodeOfEncodeGivesTheRequest : Prop :=
  ∀ i : Instr, decode (encode i) = .ok i

/-- R100, R108: the other direction. Whatever record decodes to a request, the request's own record has the same
command, the same A where the request reads A, and the same D where it is a store. -/
def Obligations.EncodeOfDecodeKeepsReadFields : Prop :=
  ∀ (w : BitVec 136) (i : Instr), decode w = .ok i →
    (Request.ofBits (encode i)).cmd = (Request.ofBits w).cmd ∧
    (readsA i = true → (Request.ofBits (encode i)).a = (Request.ofBits w).a) ∧
    ((storeForm i).isSome = true → (Request.ofBits (encode i)).d = (Request.ofBits w).d)

/-- R100: the fields a request does not read are ignored, whatever their value. -/
def Obligations.UnreadFieldsAreIgnored : Prop :=
  ∀ (r r' : Request) (i : Instr), decodeRequest r = .ok i → r'.cmd = r.cmd →
    (readsA i = true → r'.a = r.a) → ((storeForm i).isSome = true → r'.d = r.d) →
    decodeRequest r' = .ok i

/-- R108, R109: a record has a meaning exactly when a row of the opcode table covers its command, and then it is a
request of that row. -/
def Obligations.CommandMapIsTheOpcodeTable : Prop :=
  ∀ w : BitVec 136,
    (∀ i, decode w = .ok i →
      ∃ row ∈ opcodeTable, row.mnemonic = i.mnemonic ∧ row.covers (Request.ofBits w).cmd = true) ∧
    (∀ row ∈ opcodeTable, row.covers (Request.ofBits w).cmd = true →
      ∃ i, decode w = .ok i ∧ i.mnemonic = row.mnemonic)

/-- R100, R108: records written out from the spec's encodings decode to their requests: those of 95_test_vectors.md E1,
F3, P1, P3, X1 and K4, and a SET_ROOT written out from R100 and R106. -/
def Obligations.WordsOfTheSpecDecode : Prop :=
  decode 0x00000000DEADBEEF000000000000100012#136 = .ok (.storeU32 0x1000 0xDEADBEEF) ∧
  decode 0x000000000000000000000000000010000A#136 = .ok (.loadS32 0x1000) ∧
  decode 0x0000000000000000000000000000100621#136 = .ok (.fetch true 0x1006) ∧
  decode 0x0000000000000000000000000000100020#136 = .ok (.fetch false 0x1000) ∧
  decode 0x000000000000000000000000003ABC0032#136 = .ok (.setRoot 0x3ABC00) ∧
  decode 0x0000000000000000000000000000000040#136 = .ok .flushTlb ∧
  decode 0x0000000000000000000000000000000004#136 = .error (.reservedCommand 0x04)

/-! ### The step -/

/-- R82, R212: a step takes the oldest request from the port and performs it at the instance it names, whether that is
the one at hand or another. (The port and the instance at hand are the model's form, log 11 and log 12.) -/
def Obligations.StepPerformsTheDecodedRequest : Prop :=
  (∀ (s t : State) (e : PortEntry) (rest : List PortEntry) (i : Instr),
    s.port = e :: rest → select e.block { s with port := rest } = some t → t.blk.cfg.Ok → 1 ≤ t.memsz →
    decode e.word = .ok i → step s = exec i t) ∧
  (∀ (s : State) (e : PortEntry) (rest : List PortEntry) (i : Instr),
    s.port = e :: rest → e.block = s.index → s.blk.cfg.Ok → 1 ≤ s.memsz →
    decode e.word = .ok i → step s = exec i { s with port := rest }) ∧
  (∀ (s : State) (e : PortEntry) (rest : List PortEntry) (b : Block) (i : Instr), s.index ≤ s.others.length →
    s.port = e :: rest → Formula.Addressed s e.block b → b.cfg.Ok → 1 ≤ s.memsz → decode e.word = .ok i →
    ∃ t, step s = exec i t ∧ t.blk = b ∧ t.index = e.block ∧ t.port = rest ∧ t.mem = s.mem ∧ t.memsz = s.memsz ∧
      t.draws = s.draws ∧ t.others.insertIdx t.index t.blk = s.others.insertIdx s.index s.blk)

/-- R216: with no request pending the block is idle and keeps all its state. -/
def Obligations.IdleStepKeepsAllState : Prop :=
  ∀ s : State, s.port = [] → step s = .next s

/-- R109: a request whose command no row covers is refused, and gives no next state, whichever instance it goes to. -/
def Obligations.ReservedCommandIsRefused : Prop :=
  ∀ (s : State) (e : PortEntry) (rest : List PortEntry) (b : Block),
    s.port = e :: rest → Formula.Addressed s e.block b → b.cfg.Ok → 1 ≤ s.memsz → b.halted = false →
    (∀ row ∈ opcodeTable, row.covers (Request.ofBits e.word).cmd = false) →
    step s = .refused (.reservedCommand (Request.ofBits e.word).cmd)

/-- R8: a request is refused when the parameters of the instance it goes to, or MEMSZ, break a constraint. (That the
refusal happens at the step, and is decided by that instance's parameters alone, is the model's choice, log 15.) -/
def Obligations.BadConfigurationIsRefused : Prop :=
  ∀ (s : State) (e : PortEntry) (rest : List PortEntry) (b : Block),
    s.port = e :: rest → Formula.Addressed s e.block b → ¬ (b.cfg.Ok ∧ 1 ≤ s.memsz) →
    step s = .refused .badConfiguration

/-- R28: while HALTED = 1 the block accepts no request, and no request has a step, whichever instance it is. (That a
reserved command or a misaligned fetch to a halted instance is stuck too, and not refused, is the model's reading,
log 13.) -/
def Obligations.HaltedInstanceHasNoStep : Prop :=
  (∀ (i : Instr) (s : State), s.blk.halted = true → exec i s = .fault .halted) ∧
  (∀ (s : State) (e : PortEntry) (rest : List PortEntry) (b : Block),
    s.port = e :: rest → Formula.Addressed s e.block b → b.cfg.Ok → 1 ≤ s.memsz → b.halted = true →
    step s = .fault .halted)

/-- R12, R56, R185: in either privilege, every request within the fetch-alignment contract completes, and whatever it
does it leaves the parameters, MEMSZ, the other instances and the port as they are. -/
def Obligations.EveryRequestCompletes : Prop :=
  ∀ (i : Instr) (s : State), s.blk.halted = false → i.wellFormed = true →
    ∃ t, exec i s = .next t ∧ t.memsz = s.memsz ∧ t.blk.cfg = s.blk.cfg ∧ t.index = s.index ∧
      t.others = s.others ∧ t.port = s.port

/-- R56, R203: a fetch at an odd address, or with v = 0 at an address that is not four-aligned, is refused. -/
def Obligations.MisalignedFetchIsRefused : Prop :=
  ∀ (v : Bool) (a : Word) (s : State), s.blk.halted = false →
    (a.toNat % 2 = 1 ∨ (v = false ∧ a.toNat % 4 ≠ 0)) →
    exec (.fetch v a) s = .refused (.misalignedFetch v a)

/-! ### Invariants and whole-machine rules -/

/-- R24, R31, R33, R34, R35, R63: every step keeps the state legal. -/
def Obligations.StepKeepsTheStateLegal : Prop :=
  ∀ s t : State, s.Inv → step s = .next t → t.Inv

/-- R37, R230: every launch of a canonical memory within MEMSZ is legal, and so is the reference reset. -/
def Obligations.LaunchIsLegal : Prop :=
  (∀ (memsz : Nat) (mem : Memory) (c : Config) (cs : List Config), mem.wf → (∀ x ∈ mem, x.1 < memsz) →
    (State.launch memsz mem c cs).Inv) ∧
  State.reset.Inv

/-- R37, R230, R231: the launch values of every instance, and the buffer left as the host made it. (That the bit
`faultSeen` is clear is the model's own form of "LAST_FAULT is unspecified", log 6.) -/
def Obligations.LaunchValues : Prop :=
  ∀ (memsz : Nat) (mem : Memory) (c : Config) (cs : List Config),
    (State.launch memsz mem c cs).mem = mem ∧ (State.launch memsz mem c cs).memsz = memsz ∧
    (State.launch memsz mem c cs).port = [] ∧
    (State.launch memsz mem c cs).blocks = (c :: cs).map Block.construct ∧
    ∀ c' : Config, (Block.construct c').cfg = c' ∧
      (Block.construct c').root = c'.initRoot &&& ~~~(BitVec.ofNat 64 (2 ^ c'.pgshift) - 1#64) ∧
      (Block.construct c').sup = c'.initSup ∧ (Block.construct c').vm = c'.initVm ∧
      (Block.construct c').halted = false ∧ (Block.construct c').faultSeen = false ∧
      (∀ k, ((Block.construct c').tlb.rows k).length = c'.tlbEntries ∧
        ∀ row ∈ (Block.construct c').tlb.rows k, row.tag = none) ∧
      (Block.construct c').icache.length = c'.icacheEntries ∧
      ∀ row ∈ (Block.construct c').icache, row.tag = none

/-- R232: the parameters and MEMSZ are fixed for the whole run. -/
def Obligations.ConfigurationIsFixed : Prop :=
  ∀ s t : State, s.index ≤ s.others.length → step s = .next t →
    t.memsz = s.memsz ∧ t.blocks.map Block.cfg = s.blocks.map Block.cfg

/-- R212: a request changes only the instance it names (and the shared buffer). -/
def Obligations.StepLeavesOtherInstances : Prop :=
  ∀ (s t : State) (e : PortEntry) (rest : List PortEntry), s.index ≤ s.others.length → s.port = e :: rest →
    step s = .next t →
    t.port = rest ∧ t.blocks.length = s.blocks.length ∧ ∀ j, j ≠ e.block → t.blocks[j]? = s.blocks[j]?

/-- R212: a request reads nothing of the other instances: with any others in their place it does the same. -/
def Obligations.RequestReadsNoOtherInstance : Prop :=
  ∀ (i : Instr) (s t : State) (n : Nat) (o : List Block) (p : List PortEntry), exec i s = .next t →
    exec i (withOthers n o p s) = .next (withOthers n o p t)

/-- R24 to R28, R182 to R184, R201, R210: ROOT changes only by SET_ROOT, SUP only by SET_PRIV, VM only by SET_VM,
LAST_FAULT only by a fault, and HALTED only by a fatal end. -/
def Obligations.OnlyTheirRequestsChangeRegisters : Prop :=
  ∀ (i : Instr) (s t : State), exec i s = .next t →
    (t.blk.root ≠ s.blk.root → ∃ a, i = .setRoot a) ∧
    (t.blk.sup ≠ s.blk.sup → ∃ a, i = .setPriv a) ∧
    (t.blk.vm ≠ s.blk.vm → ∃ a, i = .setVm a) ∧
    (t.blk.lastFault ≠ s.blk.lastFault → ∃ f, t.blk.resp.status = .fault f) ∧
    (t.blk.halted ≠ s.blk.halted → t.blk.resp.status = .fatal)

/-- R63, R204: a fatal end sets HALTED, leaves LAST_FAULT, and no later request has a step. (That a misaligned fetch is
stuck then, and not refused, is the model's reading, log 13.) -/
def Obligations.FatalEndIsTerminal : Prop :=
  ∀ (i : Instr) (s t : State), exec i s = .next t → t.blk.resp.status = .fatal →
    t.blk.halted = true ∧ t.blk.lastFault = s.blk.lastFault ∧ t.blk.faultSeen = s.blk.faultSeen ∧
    ∀ j, exec j t = .fault .halted

/-- R202: faults are precise. A faulting load, store or standard fetch changes nothing but LAST_FAULT, which receives
the address translated, and its response. A split fetch that faults either changes nothing but LAST_FAULT (the first
unit's fault, with A), or keeps the effects of the first unit's translation and nothing else (the second unit's fault,
with A + 2). -/
def Obligations.FaultsArePrecise : Prop :=
  (∀ (i : Instr) (s t : State) (f : FaultKind), exec i s = .next t → t.blk.resp.status = .fault f →
    isSplitFetch i = false →
    ∃ k a, accessOf i = some (k, a) ∧ t = faulted f a t.blk.resp.walked false s) ∧
  (∀ (a : Word) (s t : State) (f : FaultKind), a.toNat % 4 = 2 → exec (.fetch true a) s = .next t →
    t.blk.resp.status = .fault f →
    t = faulted f a true false s ∨
    (∃ pa u, Translates (start s) a .fetch pa u ∧ t = faulted f (a + 2) true true u))


/-- R113, R200: which fault kinds each request can signal; requests that translate nothing always answer OK. -/
def Obligations.FaultKindsOfEachRequest : Prop :=
  ∀ (i : Instr) (s t : State), exec i s = .next t →
    (accessOf i = none → t.blk.resp.status = .ok) ∧
    ∀ f, t.blk.resp.status = .fault f →
      ((loadForm i).isSome = true →
        (f = .misalignedLoad ∧ addressAligned i = false) ∨ f = .loadAccess ∨ f = .loadPerm ∨ f = .malformed) ∧
      ((storeForm i).isSome = true →
        (f = .misalignedStore ∧ addressAligned i = false) ∨ f = .storeAccess ∨ f = .storePerm ∨ f = .malformed) ∧
      (∀ v a, i = .fetch v a → f = .fetchAccess ∨ f = .fetchPerm ∨ f = .malformed)

/-- R113: the response code of each status; no status has a reserved code. -/
def Obligations.StatusCodeTable : Prop :=
  Status.code .ok = 0 ∧ Status.code (.fault .misalignedLoad) = 1 ∧ Status.code (.fault .misalignedStore) = 2 ∧
  Status.code (.fault .fetchAccess) = 3 ∧ Status.code (.fault .loadAccess) = 4 ∧
  Status.code (.fault .storeAccess) = 5 ∧ Status.code (.fault .fetchPerm) = 6 ∧ Status.code (.fault .loadPerm) = 7 ∧
  Status.code (.fault .storePerm) = 8 ∧ Status.code (.fault .malformed) = 9 ∧ Status.code .fatal = 15 ∧
  ∀ st : Status, st.code.toNat < 10 ∨ st.code.toNat = 15

/-- R81, R87, R88: which requests change a cache. A TLB array changes only by FLUSH_TLB, SET_ROOT or a request of its
own kind, which (unless it is a split fetch) changes one row; the icache only by FLUSH_ICACHE or an OK standard fetch
that decoded, which changes one row. -/
def Obligations.CachesChangeOnlyByTheirRequests : Prop :=
  ∀ (i : Instr) (s t : State), exec i s = .next t →
    (∀ k, t.blk.tlb.rows k ≠ s.blk.tlb.rows k →
      i = .flushTlb ∨ (∃ a, i = .setRoot a) ∨ ∃ a, accessOf i = some (k, a)) ∧
    (∀ k a, accessOf i = some (k, a) → isSplitFetch i = false → ∀ n, n ≠ Formula.tlbRow s.blk.cfg a →
      (t.blk.tlb.rows k)[n]? = (s.blk.tlb.rows k)[n]?) ∧
    (t.blk.icache ≠ s.blk.icache → i = .flushIcache ∨
      ∃ v a, i = .fetch v a ∧ a.toNat % 4 = 0 ∧ t.blk.resp.status = .ok ∧ t.blk.resp.decoded = true ∧
        ∀ n, n ≠ Formula.icacheRow s.blk.cfg a → t.blk.icache[n]? = s.blk.icache[n]?)

/-- R61, R78, R80: a request that translates nothing leaves the buffer. A load or a fetch changes it only by setting R
(bit 2) of the leaf its translation walks to: every byte outside that leaf reads as before, so all of memory does when
it walks to none (a misaligned load, an icache hit, a TLB hit, VM = 0, a fault, a fatal walk), and the leaf reads as
before but for R. A split fetch may also update the leaf of A + 2, which it translates after a low unit that is in
bounds and not short. -/
def Obligations.LoadsAndFetchesSetOnlyReferenced : Prop :=
  ∀ (i : Instr) (s t : State), exec i s = .next t →
    (accessOf i = none → t.mem = s.mem) ∧
    (∀ k a, accessOf i = some (k, a) → k ≠ .store → isSplitFetch i = false →
      (∀ x, ¬ (addressAligned i = true ∧ icacheServes i s = false ∧ LeafByte (start s) k a x) →
        t.mem.read x = s.mem.read x) ∧
      (s.mem.wf → (s.blk.cfg.pteBytes = 4 ∨ s.blk.cfg.pteBytes = 8) → addressAligned i = true →
        icacheServes i s = false → ∀ addr pte, UpdatesLeaf (start s) k a addr pte → PteAt t addr (pte ||| 0b100#64))) ∧
    (∀ a, i = .fetch true a → a.toNat % 4 = 2 → ∀ x, ¬ LeafByte (start s) .fetch a x →
      (∀ pa u, Translates (start s) a .fetch pa u → pa.toNat + 2 ≤ s.memsz →
        Formula.isShort s.blk.cfg (BitVec.ofNat 16 (bytesLE u.mem pa.toNat 2)) = false →
        ¬ LeafByte u .fetch (a + 2) x) →
      t.mem.read x = s.mem.read x) ∧
    (s.mem.wf → (s.blk.cfg.pteBytes = 4 ∨ s.blk.cfg.pteBytes = 8) →
      ∀ k a, accessOf i = some (k, a) → k ≠ .store →
        ∀ x, t.mem.read x = s.mem.read x ∨ t.mem.read x = s.mem.read x ||| 0b100#8)

/-- R69, R211: with VM = 0 the privilege has no effect on any request but the one that sets it. -/
def Obligations.PrivilegeHasNoEffectWithTranslationOff : Prop :=
  ∀ (i : Instr) (s t : State) (b : Bool), s.blk.vm = false → (∀ a, i ≠ .setPriv a) → exec i s = .next t →
    exec i (withModes s.blk.root b s.blk.vm s) = .next (withModes t.blk.root b t.blk.vm t)

/-- R67, R89, R236: a load or store whose page hits the TLB, and a standard fetch the icache serves, do the same
whatever ROOT, SUP and VM are. -/
def Obligations.HitsIgnoreTheModes : Prop :=
  ∀ (i : Instr) (s t : State) (root : Word) (sup vm : Bool), exec i s = .next t →
    (icacheServes i s = true ∨
      ∃ k a base, accessOf i = some (k, a) ∧ k ≠ .fetch ∧ Formula.tlbHit s k a = some base) →
    exec i (withModes root sup vm s) = .next (withModes root sup vm t)

/-- R213: what the instrumentation bits say. A request that translates nothing has both clear; a load or store never
decodes, and walked exactly when its aligned address missed its TLB array; a standard fetch walked exactly when it
missed the icache and the TLB, and decoded exactly when it missed the icache and completed. -/
def Obligations.InstrumentationBits : Prop :=
  ∀ (i : Instr) (s t : State), exec i s = .next t →
    (accessOf i = none → t.blk.resp.walked = false ∧ t.blk.resp.decoded = false) ∧
    (∀ k a, accessOf i = some (k, a) → k ≠ .fetch → t.blk.resp.decoded = false ∧
      (t.blk.resp.walked = true ↔ addressAligned i = true ∧ Formula.tlbHit s k a = none)) ∧
    (∀ v a, i = .fetch v a → a.toNat % 4 = 0 →
      (t.blk.resp.walked = true ↔ Formula.icacheHit s a = none ∧ Formula.tlbHit s .fetch a = none) ∧
      (t.blk.resp.decoded = true ↔ Formula.icacheHit s a = none ∧ t.blk.resp.status = .ok))

/-! ### Translation -/

/-- R65 to R79: the machine's translation is the spec's, in both directions and for every end. -/
def Obligations.TranslateFollowsTheRules : Prop :=
  ∀ (s : State) (va : Word) (k : Kind),
    (∀ pa t, translateVa va k s = .go pa t ↔ Translates s va k pa t) ∧
    (∀ f va' t, translateVa va k s = .raise f va' t ↔
      TranslateFaults s va k f ∧ va' = va ∧ t = markWalked s) ∧
    (∀ t, translateVa va k s = .fatal t ↔ TranslateFatal s va k ∧ t = markWalked s)

/-- R67: a TLB row whose tag is the page-aligned address gives the result, whatever ROOT, SUP, VM and the buffer are
now, and the state does not change: no walk, no permission check, no R/D update, the row as it was. -/
def Obligations.TlbHitIsUsed : Prop :=
  ∀ (s : State) (va : Word) (k : Kind) (row : TlbRow),
    (s.blk.tlb.rows k)[(va.toNat >>> s.blk.cfg.pgshift) % s.blk.cfg.tlbEntries]? = some row →
    row.tag = some (va &&& ~~~(BitVec.ofNat 64 (2 ^ s.blk.cfg.pgshift) - 1#64)) →
    translateVa va k s = .go (row.base ||| (va &&& (BitVec.ofNat 64 (2 ^ s.blk.cfg.pgshift) - 1#64))) s

/-- R69: with VM = 0 a miss ends fatal at an address at or beyond MEMSZ, and otherwise gives the address itself,
whatever SUP is: no fault is raised, the buffer is neither read nor written, and the row is installed. -/
def Obligations.IdentityTranslation : Prop :=
  ∀ (s : State) (va : Word) (k : Kind), Formula.tlbHit s k va = none → s.blk.vm = false →
    (s.memsz ≤ va.toNat → translateVa va k s = .fatal (markWalked s)) ∧
    (va.toNat < s.memsz → translateVa va k s =
      .go va (installed s k va (va &&& ~~~(BitVec.ofNat 64 (2 ^ s.blk.cfg.pgshift) - 1#64)) s.mem))

/-- R70: with VM = 1 a miss on an address with a bit set at or above VA_BITS raises the access fault of its kind,
whatever the tables hold: the check comes before any PTE read. -/
def Obligations.HighAddressBitsFault : Prop :=
  ∀ (s : State) (va : Word) (k : Kind), Formula.tlbHit s k va = none → s.blk.vm = true →
    Formula.vaBits s.blk.cfg < 64 → va >>> (Formula.vaBits s.blk.cfg) ≠ 0 →
    translateVa va k s = .raise
      (if k = .fetch then .fetchAccess else if k = .load then .loadAccess else .storeAccess) va (markWalked s)

/-- R76: the permission bit of each kind and privilege. -/
def Obligations.PermissionBitTable : Prop :=
  ∀ pte : Word,
    permBit .fetch true pte = pte.getLsbD 7 ∧ permBit .fetch false pte = pte.getLsbD 4 ∧
    permBit .load true pte = pte.getLsbD 9 ∧ permBit .load false pte = pte.getLsbD 6 ∧
    permBit .store true pte = pte.getLsbD 8 ∧ permBit .store false pte = pte.getLsbD 5

/-- R77: a leaf whose selected bit is clear raises FETCH_PERM, LOAD_PERM or STORE_PERM with the address; the leaf is not
updated and no row is installed. -/
def Obligations.DeniedLeafRaisesThePermissionFault : Prop :=
  ∀ (s : State) (va addr pte : Word) (k : Kind), Formula.tlbHit s k va = none → s.blk.vm = true →
    va.toNat < 2 ^ Formula.vaBits s.blk.cfg → LeafAt s va addr pte → Formula.permBit k s.blk.sup pte = false →
    translateVa va k s = .raise
      (if k = .fetch then .fetchPerm else if k = .load then .loadPerm else .storePerm) va (markWalked s)

/-- R78, R80: after a successful walk the leaf in the buffer has R set (and D for a store) and its other bits as they
were, and every byte outside the leaf is unchanged. -/
def Obligations.RefillUpdatesTheLeafAlone : Prop :=
  ∀ (s t : State) (va pa addr pte : Word) (k : Kind), s.mem.wf →
    (s.blk.cfg.pteBytes = 4 ∨ s.blk.cfg.pteBytes = 8) → Formula.tlbHit s k va = none → s.blk.vm = true →
    va.toNat < 2 ^ Formula.vaBits s.blk.cfg → LeafAt s va addr pte → translateVa va k s = .go pa t →
    (∀ x, x < addr.toNat ∨ addr.toNat + s.blk.cfg.pteBytes ≤ x → t.mem.read x = s.mem.read x) ∧
    PteAt t addr (pte ||| 0b100#64 ||| (if k = .store then 0b1000#64 else 0#64))

/-- R70, R73, R75, R77, R200, R201: a load, a store, or a fetch the icache does not serve, whose translation faults,
ends with that fault: LAST_FAULT is the address, and nothing else changes. -/
def Obligations.TranslationFaultIsSignalled : Prop :=
  ∀ (i : Instr) (s : State) (k : Kind) (a : Word) (f : FaultKind), s.blk.halted = false →
    accessOf i = some (k, a) → addressAligned i = true → icacheServes i s = false →
    TranslateFaults (start s) a k f → exec i s = .next (faulted f a true false s)

/-- R62, R63, R69, R79, R206, R207: where a load, a store or a fetch ends fatal: a translation that leaves the buffer,
or an access that does; the refill and the R/D update made before it remain. -/
def Obligations.BoundsViolationIsFatal : Prop :=
  ∀ (i : Instr) (s : State) (k : Kind) (a : Word), s.blk.halted = false →
    accessOf i = some (k, a) → addressAligned i = true → icacheServes i s = false →
    (TranslateFatal (start s) a k → exec i s = .next (halts true false s)) ∧
    (∀ pa u, Translates (start s) a k pa u → s.memsz < pa.toNat + accessBytes i →
      exec i s = .next (halts u.blk.resp.walked false u))

/-! ### Loads and stores -/

/-- R150 to R157, R162: every load whose address is aligned, translates and is in bounds answers OK with the
little-endian bytes at the physical offset, zero- or sign-extended to 64 bits; beyond the translation's own effects
only the response changes. -/
def Obligations.LoadCompletes : Prop :=
  ∀ (i : Instr) (w : Width) (signed : Bool) (a : Word) (s : State) (pa : Word) (u : State),
    loadForm i = some (w, signed, a) → s.blk.halted = false → a.toNat % w.bytes = 0 →
    Translates (start s) a .load pa u → pa.toNat + w.bytes ≤ s.memsz →
    exec i s = .next (answered
      (if signed then (BitVec.ofNat (8 * w.bytes) (bytesLE u.mem pa.toNat w.bytes)).signExtend 64
        else BitVec.ofNat 64 (bytesLE u.mem pa.toNat w.bytes))
      u.blk.resp.walked false u)

/-- R158 to R161, R163: every store whose address is aligned, translates and is in bounds answers OK; the W bytes at
the physical offset become the low bytes of D, every other byte is as the translation left it, and beyond the
translation's own effects only the buffer and the response change. -/
def Obligations.StoreCompletes : Prop :=
  ∀ (i : Instr) (w : Width) (a d : Word) (s : State) (pa : Word) (u : State),
    storeForm i = some (w, a, d) → s.blk.halted = false → a.toNat % w.bytes = 0 → s.mem.wf →
    Translates (start s) a .store pa u → pa.toNat + w.bytes ≤ s.memsz →
    ∃ m : Memory, exec i s = .next (answered 0 u.blk.resp.walked false { u with mem := m }) ∧ m.wf ∧
      (∀ j, j < w.bytes → m.read (pa.toNat + j) = d.extractLsb' (8 * j) 8) ∧
      (∀ x, x < pa.toNat ∨ pa.toNat + w.bytes ≤ x → m.read x = u.mem.read x)

/-- R54: a load or a store of W bytes at an address that is not a multiple of W raises its misaligned fault with that
address, before any translation: there is no TLB lookup, walk, PTE update or buffer access, and nothing but LAST_FAULT
and the response changes. A one-byte access is always aligned. -/
def Obligations.MisalignedAccessFaults : Prop :=
  (∀ (i : Instr) (w : Width) (signed : Bool) (a : Word) (s : State),
    loadForm i = some (w, signed, a) → s.blk.halted = false → a.toNat % w.bytes ≠ 0 →
    exec i s = .next (faulted .misalignedLoad a false false s)) ∧
  (∀ (i : Instr) (w : Width) (a d : Word) (s : State),
    storeForm i = some (w, a, d) → s.blk.halted = false → a.toNat % w.bytes ≠ 0 →
    exec i s = .next (faulted .misalignedStore a false false s)) ∧
  (∀ a : Word, a.toNat % Width.w1.bytes = 0)


/-- R164: a load after a store of the same width to the same address, translated to the same offset, gives the stored
value back. (The last premise is the model's reading of the corner R164 leaves out: the load's own R-bit update must
not fall on the stored bytes, log 18.) -/
def Obligations.LoadAfterStoreGivesTheValue : Prop :=
  ∀ (i j : Instr) (w : Width) (signed : Bool) (a d : Word) (s t u u' : State) (pa : Word),
    storeForm i = some (w, a, d) → loadForm j = some (w, signed, a) → s.mem.wf →
    exec i s = .next t → t.blk.resp.status = .ok → Translates (start s) a .store pa u →
    Translates (start t) a .load pa u' →
    (∀ x, pa.toNat ≤ x → x < pa.toNat + w.bytes → u'.mem.read x = t.mem.read x) →
    ∃ v, exec j t = .next v ∧ v.blk.resp.status = .ok ∧
      v.blk.resp.r = if signed then (d.setWidth (8 * w.bytes)).signExtend 64
        else (d.setWidth (8 * w.bytes)).setWidth 64

/-! ### Fetches -/

/-- R132: a standard-path fetch that hits the icache returns the row, with no walk and no decode, and changes nothing
but the response; the hit does not depend on v. -/
def Obligations.IcacheHitIsReturned : Prop :=
  ∀ (v : Bool) (a : Word) (s : State) (row : IcRow), s.blk.halted = false → a.toNat % 4 = 0 →
    s.blk.icache[(a.toNat / 4) % s.blk.cfg.icacheEntries]? = some row → row.tag = some a →
    exec (.fetch v a) s = .next (fetched (row.bits.setWidth 64) row.handle false false s)

/-- R130, R131, R134: a standard-path fetch that misses the icache, translates and is in bounds returns the 32-bit word
at the offset and its handle, and fills one icache row with them. -/
def Obligations.StandardFetchFillsTheIcache : Prop :=
  ∀ (v : Bool) (a : Word) (s : State) (pa : Word) (u : State), s.blk.halted = false → a.toNat % 4 = 0 →
    Formula.icacheHit s a = none → Translates (start s) a .fetch pa u → pa.toNat + 4 ≤ s.memsz →
    exec (.fetch v a) s = .next (fetched
      ((BitVec.ofNat 32 (bytesLE u.mem pa.toNat 4)).setWidth 64)
      (Config.dispatch s.blk.cfg.decoder (bytesLE u.mem pa.toNat 4 % s.blk.cfg.dts)) u.blk.resp.walked true
      (filled a (BitVec.ofNat 32 (bytesLE u.mem pa.toNat 4))
        (Config.dispatch s.blk.cfg.decoder (bytesLE u.mem pa.toNat 4 % s.blk.cfg.dts)) u))

/-- R133: a split fetch whose low unit is a complete short-form instruction returns that unit; the second is not
translated, and no icache row is read or written. -/
def Obligations.SplitFetchOfAShortUnit : Prop :=
  ∀ (a : Word) (s : State) (pa : Word) (u : State), s.blk.halted = false → a.toNat % 4 = 2 →
    Translates (start s) a .fetch pa u → pa.toNat + 2 ≤ s.memsz →
    Formula.isShort s.blk.cfg (BitVec.ofNat 16 (bytesLE u.mem pa.toNat 2)) = true →
    exec (.fetch true a) s = .next (fetched
      ((BitVec.ofNat 16 (bytesLE u.mem pa.toNat 2)).setWidth 64)
      (Config.dispatch s.blk.cfg.decoder (bytesLE u.mem pa.toNat 2 % s.blk.cfg.dts)) u.blk.resp.walked true u)

/-- R133, R135: a split fetch whose low unit is not short translates A + 2 after A. If both succeed and are in bounds
the instruction is the two units, low first, with the handle of the low unit; if the second translation faults,
LAST_FAULT is A + 2; if it ends fatal or its unit is out of bounds, so does the request. The icache is untouched, and
the effects of the first translation remain in each case. -/
def Obligations.SplitFetchOfTwoUnits : Prop :=
  ∀ (a : Word) (s : State) (pa : Word) (u : State), s.blk.halted = false → a.toNat % 4 = 2 →
    Translates (start s) a .fetch pa u → pa.toNat + 2 ≤ s.memsz →
    Formula.isShort s.blk.cfg (BitVec.ofNat 16 (bytesLE u.mem pa.toNat 2)) = false →
    (∀ pa' u', Translates u (a + 2) .fetch pa' u' → pa'.toNat + 2 ≤ s.memsz →
      exec (.fetch true a) s = .next (fetched
        (BitVec.ofNat 64 (bytesLE u.mem pa.toNat 2 + 2 ^ 16 * bytesLE u'.mem pa'.toNat 2))
        (Config.dispatch s.blk.cfg.decoder (bytesLE u.mem pa.toNat 2 % s.blk.cfg.dts))
        u'.blk.resp.walked true u')) ∧
    (∀ f, TranslateFaults u (a + 2) .fetch f →
      exec (.fetch true a) s = .next (faulted f (a + 2) true true u)) ∧
    (TranslateFatal u (a + 2) .fetch → exec (.fetch true a) s = .next (halts true true u)) ∧
    (∀ pa' u', Translates u (a + 2) .fetch pa' u' → s.memsz < pa'.toNat + 2 →
      exec (.fetch true a) s = .next (halts u'.blk.resp.walked true u'))

/-- R114: when DTS divides 2^16, the handle of the low unit is the handle of the two units together. -/
def Obligations.LowUnitHandleIsWholeHandle : Prop :=
  ∀ (c : Config) (hi lo : BitVec 16), c.Ok → c.handleOf lo.toNat = c.handleOf (hi ++ lo).toNat

/-- §8 property 4, R132: a standard-path fetch that answers OK, issued again at once, returns the same bits and handle
with no walk and no decode. -/
def Obligations.SecondFetchIsAHit : Prop :=
  ∀ (v v' : Bool) (a : Word) (s t : State), s.blk.icache.length = s.blk.cfg.icacheEntries →
    1 ≤ s.blk.cfg.icacheEntries → a.toNat % 4 = 0 → exec (.fetch v a) s = .next t → t.blk.resp.status = .ok →
    exec (.fetch v' a) t = .next (fetched t.blk.resp.r t.blk.resp.h false false t)

/-- R87, R89, R235, R238: a cached instruction word outlives every request but FLUSH_ICACHE and a standard fetch of
another address of its row: a store to its bytes, a flush of the TLB, and a change of root or mode leave it. -/
def Obligations.CachedWordOutlivesOtherRequests : Prop :=
  ∀ (i : Instr) (v : Bool) (a : Word) (s t : State) (row : IcRow), a.toNat % 4 = 0 → Formula.icacheHit s a = some row →
    i ≠ .flushIcache →
    (∀ v' b, i = .fetch v' b → isSplitFetch i = true ∨ b = a ∨
      Formula.icacheRow s.blk.cfg b ≠ Formula.icacheRow s.blk.cfg a) →
    exec i s = .next t → t.blk.halted = false →
    exec (.fetch v a) t = .next (fetched (row.bits.setWidth 64) row.handle false false t)

/-! ### Control registers and flushes -/

/-- R180, R27: GET_FAULT_ADDR answers LAST_FAULT once a fault has been recorded; before that it answers a draw, of
which nothing is known (log 6). It changes nothing but the response. -/
def Obligations.GetFaultAddrAnswersLastFault : Prop :=
  ∀ s : State, s.blk.halted = false →
    (s.blk.faultSeen = true → exec .getFaultAddr s = .next (answered s.blk.lastFault false false s)) ∧
    (s.blk.faultSeen = false → ∃ r, exec .getFaultAddr s = .next (answered r false false s))

/-- R180, R201, R209: after a fault, GET_FAULT_ADDR answers the address it recorded. -/
def Obligations.FaultAddressIsReadBack : Prop :=
  ∀ (i : Instr) (s t : State) (f : FaultKind), exec i s = .next t → t.blk.resp.status = .fault f →
    ∃ u k a, exec .getFaultAddr t = .next u ∧ u.blk.resp.status = .ok ∧ accessOf i = some (k, a) ∧
      (u.blk.resp.r = a ∨ (isSplitFetch i = true ∧ u.blk.resp.r = a + 2))

/-- R181: GET_ROOT (0x31) answers ROOT, whose low PGSHIFT bits are zero in every legal state, and changes nothing but
the response. -/
def Obligations.GetRootAnswersRoot : Prop :=
  (∀ w : BitVec 136, (Request.ofBits w).cmd = 0x31 → decode w = .ok .getRoot) ∧
  (∀ s : State, s.blk.halted = false → exec .getRoot s = .next (answered s.blk.root false false s)) ∧
  (∀ s : State, s.Inv → ∀ n, n < s.blk.cfg.pgshift → s.blk.root.getLsbD n = false)

/-- R182: SET_ROOT (0x32) writes A with its low PGSHIFT bits clear to ROOT and makes every TLB tag INVALID; the icache
and all else are unchanged. -/
def Obligations.SetRootMasksAndFlushesTheTlb : Prop :=
  (∀ w : BitVec 136, (Request.ofBits w).cmd = 0x32 → decode w = .ok (.setRoot (Request.ofBits w).a)) ∧
  (∀ (a : Word) (s : State), s.blk.halted = false →
      exec (.setRoot a) s = .next (answered 0 false false
        { s with blk := { s.blk with
            root := a &&& ~~~(BitVec.ofNat 64 (2 ^ s.blk.cfg.pgshift) - 1#64),
            tlb := { fetch := s.blk.tlb.fetch.map fun row => { row with tag := none },
                     load := s.blk.tlb.load.map fun row => { row with tag := none },
                     store := s.blk.tlb.store.map fun row => { row with tag := none } } } }))

/-- R183: SET_PRIV (0x33) writes A[0] to SUP; nothing is flushed and all else is unchanged. -/
def Obligations.SetPrivWritesSup : Prop :=
  (∀ w : BitVec 136, (Request.ofBits w).cmd = 0x33 → decode w = .ok (.setPriv (Request.ofBits w).a)) ∧
  (∀ (a : Word) (s : State), s.blk.halted = false →
      exec (.setPriv a) s = .next (answered 0 false false { s with blk := { s.blk with sup := a.getLsbD 0 } }))

/-- R184: SET_VM (0x34) writes A[0] to VM; nothing is flushed and all else is unchanged. -/
def Obligations.SetVmWritesVm : Prop :=
  (∀ w : BitVec 136, (Request.ofBits w).cmd = 0x34 → decode w = .ok (.setVm (Request.ofBits w).a)) ∧
  (∀ (a : Word) (s : State), s.blk.halted = false →
      exec (.setVm a) s = .next (answered 0 false false { s with blk := { s.blk with vm := a.getLsbD 0 } }))

/-- R170: FLUSH_TLB (0x40) makes every TLB tag INVALID, leaves the bases, and changes nothing else. -/
def Obligations.FlushTlbInvalidatesEveryTag : Prop :=
  (∀ w : BitVec 136, (Request.ofBits w).cmd = 0x40 → decode w = .ok .flushTlb) ∧
  (∀ s : State, s.blk.halted = false →
      exec .flushTlb s = .next (answered 0 false false
        { s with blk := { s.blk with
            tlb := { fetch := s.blk.tlb.fetch.map fun row => { row with tag := none },
                     load := s.blk.tlb.load.map fun row => { row with tag := none },
                     store := s.blk.tlb.store.map fun row => { row with tag := none } } } }))

/-- R171: FLUSH_ICACHE (0x41) makes every icache tag INVALID, leaves bits and handles, and changes nothing else. -/
def Obligations.FlushIcacheInvalidatesEveryTag : Prop :=
  (∀ w : BitVec 136, (Request.ofBits w).cmd = 0x41 → decode w = .ok .flushIcache) ∧
  (∀ s : State, s.blk.halted = false →
      exec .flushIcache s = .next (answered 0 false false
        { s with blk := { s.blk with icache := s.blk.icache.map fun row => { row with tag := none } } }))

/-- R90: after FLUSH_TLB or SET_ROOT, no address hits any TLB array, so the next aligned load or store walks. -/
def Obligations.TranslationsWalkAfterAFlush : Prop :=
  ∀ (i : Instr) (s t : State), (i = .flushTlb ∨ ∃ a, i = .setRoot a) → exec i s = .next t →
    (∀ k va, Formula.tlbHit t k va = none) ∧
    ∀ j u, accessOf j ≠ none → addressAligned j = true → icacheServes j t = false → exec j t = .next u →
      u.blk.resp.walked = true

/-- R90: after FLUSH_ICACHE no address hits the icache, so a standard fetch that answers OK has read the buffer and
decoded; the TLB is unchanged. -/
def Obligations.FetchDecodesAfterFlushIcache : Prop :=
  ∀ s t : State, exec .flushIcache s = .next t →
    t.blk.tlb = s.blk.tlb ∧ (∀ a, Formula.icacheHit t a = none) ∧
    ∀ v a u, a.toNat % 4 = 0 → exec (.fetch v a) t = .next u → u.blk.resp.status = .ok →
      u.blk.resp.decoded = true
end

