-- ==== Sys2Proof/Laws/Params.lean ====
section
/-! SUPPORT. Page arithmetic: the page and the offset of an address, and the index of a page's row (20_memory.md R66,
R67, R79). -/

namespace Sys2Proof.Machine

open Sys2Proof

/-- PGSIZE - 1 has ones below bit PGSHIFT. -/
theorem getLsbD_offsetMask (c : Config) (i : Nat) :
    c.offsetMask.getLsbD i = (decide (i < 64) && decide (i < c.pgshift)) := by
  unfold Config.offsetMask Config.pgsize
  by_cases h : c.pgshift < 64
  · have hn : (BitVec.ofNat 64 (2 ^ c.pgshift) - 1#64).toNat = 2 ^ c.pgshift - 1 := by
      have h2 : 2 ^ c.pgshift < 2 ^ 64 := Nat.pow_lt_pow_right (by omega) h
      have h1 : 0 < 2 ^ c.pgshift := Nat.two_pow_pos _
      rw [BitVec.toNat_sub, BitVec.toNat_ofNat, BitVec.toNat_ofNat]
      omega
    rw [BitVec.getLsbD, hn, Nat.testBit_two_pow_sub_one]
    by_cases hi : i < c.pgshift
    · simp [hi, show i < 64 by omega]
    · simp [hi]
  · have hz : BitVec.ofNat 64 (2 ^ c.pgshift) = 0#64 := by
      apply BitVec.eq_of_toNat_eq
      have : 2 ^ 64 ∣ 2 ^ c.pgshift := Nat.pow_dvd_pow 2 (by omega)
      simpa using Nat.mod_eq_zero_of_dvd this
    rw [hz]
    have : (0#64 - 1#64) = BitVec.allOnes 64 := by decide
    rw [this, BitVec.getLsbD_allOnes]
    by_cases hi : i < 64
    · simp [hi, show i < c.pgshift by omega]
    · simp [hi]

/-- The page and the offset put together give the address back (R67). -/
@[simp] theorem pageOf_or_pageOffset (c : Config) (va : Word) : c.pageOf va ||| c.pageOffset va = va := by
  apply BitVec.eq_of_getLsbD_eq
  intro i hi
  simp only [Config.pageOf, Config.pageOffset, BitVec.getLsbD_or, BitVec.getLsbD_and, BitVec.getLsbD_not, hi]
  cases va.getLsbD i <;> cases c.offsetMask.getLsbD i <;> rfl

/-- The page of a page is that page. -/
@[simp] theorem pageOf_pageOf (c : Config) (va : Word) : c.pageOf (c.pageOf va) = c.pageOf va := by
  simp [Config.pageOf, BitVec.and_assoc]

/-- A PPN's base is page-aligned (R74, R79). -/
@[simp] theorem pageOf_ppnBase (c : Config) (pte : Word) : c.pageOf (ppnBase c pte) = ppnBase c pte := by
  apply BitVec.eq_of_getLsbD_eq
  intro i hi
  simp only [Config.pageOf, ppnBase, BitVec.getLsbD_and, BitVec.getLsbD_not, getLsbD_offsetMask,
    BitVec.getLsbD_shiftLeft, hi]
  by_cases h : i < c.pgshift <;> simp [h]

/-- The row of a page is the row of its addresses (R66). -/
@[simp] theorem tlbIndex_pageOf (c : Config) (va : Word) : c.tlbIndex (c.pageOf va) = c.tlbIndex va := by
  have h : (c.pageOf va).toNat >>> c.pgshift = va.toNat >>> c.pgshift := by
    apply Nat.eq_of_testBit_eq
    intro i
    have := getLsbD_offsetMask c (c.pgshift + i)
    simp only [Nat.testBit_shiftRight, ← BitVec.getLsbD.eq_1, Config.pageOf, BitVec.getLsbD_and,
      BitVec.getLsbD_not, this]
    by_cases hi : c.pgshift + i < 64
    · simp [hi]
    · simp [hi, BitVec.getLsbD_of_ge _ _ (Nat.le_of_not_lt hi)]
  rw [Config.tlbIndex, h, Config.tlbIndex]

/-- The address-width check of R70. -/
theorem beyondVa_iff (c : Config) (va : Word) : c.beyondVa va = true ↔ 2 ^ c.vaBits ≤ va.toNat := by
  simp [Config.beyondVa]

theorem beyondVa_eq_false_iff (c : Config) (va : Word) : c.beyondVa va = false ↔ va.toNat < 2 ^ c.vaBits := by
  simp [Config.beyondVa]

/-- The handle of the low unit is the handle of the whole instruction, when DTS divides 2^16 (30_encoding.md R114). -/
theorem handleOf_low (c : Config) (h : 2 ^ 16 % c.dts = 0) (lo hi : Nat) :
    c.handleOf (lo + 2 ^ 16 * hi) = c.handleOf lo := by
  obtain ⟨q, hq⟩ := Nat.dvd_of_mod_eq_zero h
  rw [Config.handleOf, Config.handleOf, hq, Nat.mul_assoc, Nat.add_mul_mod_self_left]

end Sys2Proof.Machine
end

