-- ==== Sys2Proof/Laws/State.lean ====
section
/-! SUPPORT. What each named update does to each field of the state, one lemma per field per update. -/

namespace Sys2Proof.Machine

open Sys2Proof

section start
variable (s : State)
@[simp] theorem start_memsz : (start s).memsz = s.memsz := rfl
@[simp] theorem start_mem : (start s).mem = s.mem := rfl
@[simp] theorem start_index : (start s).index = s.index := rfl
@[simp] theorem start_others : (start s).others = s.others := rfl
@[simp] theorem start_port : (start s).port = s.port := rfl
@[simp] theorem start_draws : (start s).draws = s.draws := rfl
@[simp] theorem start_cfg : (start s).blk.cfg = s.blk.cfg := rfl
@[simp] theorem start_root : (start s).blk.root = s.blk.root := rfl
@[simp] theorem start_sup : (start s).blk.sup = s.blk.sup := rfl
@[simp] theorem start_vm : (start s).blk.vm = s.blk.vm := rfl
@[simp] theorem start_lastFault : (start s).blk.lastFault = s.blk.lastFault := rfl
@[simp] theorem start_faultSeen : (start s).blk.faultSeen = s.blk.faultSeen := rfl
@[simp] theorem start_halted : (start s).blk.halted = s.blk.halted := rfl
@[simp] theorem start_tlb : (start s).blk.tlb = s.blk.tlb := rfl
@[simp] theorem start_icache : (start s).blk.icache = s.blk.icache := rfl
@[simp] theorem start_resp : (start s).blk.resp = { s.blk.resp with walked := false, decoded := false } := rfl
end start

section markWalked
variable (s : State)
@[simp] theorem markWalked_memsz : (markWalked s).memsz = s.memsz := rfl
@[simp] theorem markWalked_mem : (markWalked s).mem = s.mem := rfl
@[simp] theorem markWalked_index : (markWalked s).index = s.index := rfl
@[simp] theorem markWalked_others : (markWalked s).others = s.others := rfl
@[simp] theorem markWalked_port : (markWalked s).port = s.port := rfl
@[simp] theorem markWalked_draws : (markWalked s).draws = s.draws := rfl
@[simp] theorem markWalked_cfg : (markWalked s).blk.cfg = s.blk.cfg := rfl
@[simp] theorem markWalked_root : (markWalked s).blk.root = s.blk.root := rfl
@[simp] theorem markWalked_sup : (markWalked s).blk.sup = s.blk.sup := rfl
@[simp] theorem markWalked_vm : (markWalked s).blk.vm = s.blk.vm := rfl
@[simp] theorem markWalked_lastFault : (markWalked s).blk.lastFault = s.blk.lastFault := rfl
@[simp] theorem markWalked_faultSeen : (markWalked s).blk.faultSeen = s.blk.faultSeen := rfl
@[simp] theorem markWalked_halted : (markWalked s).blk.halted = s.blk.halted := rfl
@[simp] theorem markWalked_tlb : (markWalked s).blk.tlb = s.blk.tlb := rfl
@[simp] theorem markWalked_icache : (markWalked s).blk.icache = s.blk.icache := rfl
@[simp] theorem markWalked_resp : (markWalked s).blk.resp = { s.blk.resp with walked := true } := rfl
end markWalked

section markDecoded
variable (s : State)
@[simp] theorem markDecoded_memsz : (markDecoded s).memsz = s.memsz := rfl
@[simp] theorem markDecoded_mem : (markDecoded s).mem = s.mem := rfl
@[simp] theorem markDecoded_index : (markDecoded s).index = s.index := rfl
@[simp] theorem markDecoded_others : (markDecoded s).others = s.others := rfl
@[simp] theorem markDecoded_port : (markDecoded s).port = s.port := rfl
@[simp] theorem markDecoded_draws : (markDecoded s).draws = s.draws := rfl
@[simp] theorem markDecoded_cfg : (markDecoded s).blk.cfg = s.blk.cfg := rfl
@[simp] theorem markDecoded_root : (markDecoded s).blk.root = s.blk.root := rfl
@[simp] theorem markDecoded_sup : (markDecoded s).blk.sup = s.blk.sup := rfl
@[simp] theorem markDecoded_vm : (markDecoded s).blk.vm = s.blk.vm := rfl
@[simp] theorem markDecoded_lastFault : (markDecoded s).blk.lastFault = s.blk.lastFault := rfl
@[simp] theorem markDecoded_faultSeen : (markDecoded s).blk.faultSeen = s.blk.faultSeen := rfl
@[simp] theorem markDecoded_halted : (markDecoded s).blk.halted = s.blk.halted := rfl
@[simp] theorem markDecoded_tlb : (markDecoded s).blk.tlb = s.blk.tlb := rfl
@[simp] theorem markDecoded_icache : (markDecoded s).blk.icache = s.blk.icache := rfl
@[simp] theorem markDecoded_resp : (markDecoded s).blk.resp = { s.blk.resp with decoded := true } := rfl
end markDecoded

section setMem
variable (m : Memory) (s : State)
@[simp] theorem setMem_memsz : (setMem m s).memsz = s.memsz := rfl
@[simp] theorem setMem_mem : (setMem m s).mem = m := rfl
@[simp] theorem setMem_index : (setMem m s).index = s.index := rfl
@[simp] theorem setMem_others : (setMem m s).others = s.others := rfl
@[simp] theorem setMem_port : (setMem m s).port = s.port := rfl
@[simp] theorem setMem_draws : (setMem m s).draws = s.draws := rfl
@[simp] theorem setMem_cfg : (setMem m s).blk.cfg = s.blk.cfg := rfl
@[simp] theorem setMem_root : (setMem m s).blk.root = s.blk.root := rfl
@[simp] theorem setMem_sup : (setMem m s).blk.sup = s.blk.sup := rfl
@[simp] theorem setMem_vm : (setMem m s).blk.vm = s.blk.vm := rfl
@[simp] theorem setMem_lastFault : (setMem m s).blk.lastFault = s.blk.lastFault := rfl
@[simp] theorem setMem_faultSeen : (setMem m s).blk.faultSeen = s.blk.faultSeen := rfl
@[simp] theorem setMem_halted : (setMem m s).blk.halted = s.blk.halted := rfl
@[simp] theorem setMem_tlb : (setMem m s).blk.tlb = s.blk.tlb := rfl
@[simp] theorem setMem_icache : (setMem m s).blk.icache = s.blk.icache := rfl
@[simp] theorem setMem_resp : (setMem m s).blk.resp = s.blk.resp := rfl
end setMem

section setRoot
variable (a : Word) (s : State)
@[simp] theorem setRoot_memsz : (setRoot a s).memsz = s.memsz := rfl
@[simp] theorem setRoot_mem : (setRoot a s).mem = s.mem := rfl
@[simp] theorem setRoot_index : (setRoot a s).index = s.index := rfl
@[simp] theorem setRoot_others : (setRoot a s).others = s.others := rfl
@[simp] theorem setRoot_port : (setRoot a s).port = s.port := rfl
@[simp] theorem setRoot_draws : (setRoot a s).draws = s.draws := rfl
@[simp] theorem setRoot_cfg : (setRoot a s).blk.cfg = s.blk.cfg := rfl
@[simp] theorem setRoot_root : (setRoot a s).blk.root = s.blk.cfg.pageOf a := rfl
@[simp] theorem setRoot_sup : (setRoot a s).blk.sup = s.blk.sup := rfl
@[simp] theorem setRoot_vm : (setRoot a s).blk.vm = s.blk.vm := rfl
@[simp] theorem setRoot_lastFault : (setRoot a s).blk.lastFault = s.blk.lastFault := rfl
@[simp] theorem setRoot_faultSeen : (setRoot a s).blk.faultSeen = s.blk.faultSeen := rfl
@[simp] theorem setRoot_halted : (setRoot a s).blk.halted = s.blk.halted := rfl
@[simp] theorem setRoot_tlb : (setRoot a s).blk.tlb = s.blk.tlb := rfl
@[simp] theorem setRoot_icache : (setRoot a s).blk.icache = s.blk.icache := rfl
@[simp] theorem setRoot_resp : (setRoot a s).blk.resp = s.blk.resp := rfl
end setRoot

section setSup
variable (b : Bool) (s : State)
@[simp] theorem setSup_memsz : (setSup b s).memsz = s.memsz := rfl
@[simp] theorem setSup_mem : (setSup b s).mem = s.mem := rfl
@[simp] theorem setSup_index : (setSup b s).index = s.index := rfl
@[simp] theorem setSup_others : (setSup b s).others = s.others := rfl
@[simp] theorem setSup_port : (setSup b s).port = s.port := rfl
@[simp] theorem setSup_draws : (setSup b s).draws = s.draws := rfl
@[simp] theorem setSup_cfg : (setSup b s).blk.cfg = s.blk.cfg := rfl
@[simp] theorem setSup_root : (setSup b s).blk.root = s.blk.root := rfl
@[simp] theorem setSup_sup : (setSup b s).blk.sup = b := rfl
@[simp] theorem setSup_vm : (setSup b s).blk.vm = s.blk.vm := rfl
@[simp] theorem setSup_lastFault : (setSup b s).blk.lastFault = s.blk.lastFault := rfl
@[simp] theorem setSup_faultSeen : (setSup b s).blk.faultSeen = s.blk.faultSeen := rfl
@[simp] theorem setSup_halted : (setSup b s).blk.halted = s.blk.halted := rfl
@[simp] theorem setSup_tlb : (setSup b s).blk.tlb = s.blk.tlb := rfl
@[simp] theorem setSup_icache : (setSup b s).blk.icache = s.blk.icache := rfl
@[simp] theorem setSup_resp : (setSup b s).blk.resp = s.blk.resp := rfl
end setSup

section setVm
variable (b : Bool) (s : State)
@[simp] theorem setVm_memsz : (setVm b s).memsz = s.memsz := rfl
@[simp] theorem setVm_mem : (setVm b s).mem = s.mem := rfl
@[simp] theorem setVm_index : (setVm b s).index = s.index := rfl
@[simp] theorem setVm_others : (setVm b s).others = s.others := rfl
@[simp] theorem setVm_port : (setVm b s).port = s.port := rfl
@[simp] theorem setVm_draws : (setVm b s).draws = s.draws := rfl
@[simp] theorem setVm_cfg : (setVm b s).blk.cfg = s.blk.cfg := rfl
@[simp] theorem setVm_root : (setVm b s).blk.root = s.blk.root := rfl
@[simp] theorem setVm_sup : (setVm b s).blk.sup = s.blk.sup := rfl
@[simp] theorem setVm_vm : (setVm b s).blk.vm = b := rfl
@[simp] theorem setVm_lastFault : (setVm b s).blk.lastFault = s.blk.lastFault := rfl
@[simp] theorem setVm_faultSeen : (setVm b s).blk.faultSeen = s.blk.faultSeen := rfl
@[simp] theorem setVm_halted : (setVm b s).blk.halted = s.blk.halted := rfl
@[simp] theorem setVm_tlb : (setVm b s).blk.tlb = s.blk.tlb := rfl
@[simp] theorem setVm_icache : (setVm b s).blk.icache = s.blk.icache := rfl
@[simp] theorem setVm_resp : (setVm b s).blk.resp = s.blk.resp := rfl
end setVm

section refill
variable (k : Kind) (va base : Word) (s : State)
@[simp] theorem refill_memsz : (refill k va base s).memsz = s.memsz := rfl
@[simp] theorem refill_mem : (refill k va base s).mem = s.mem := rfl
@[simp] theorem refill_index : (refill k va base s).index = s.index := rfl
@[simp] theorem refill_others : (refill k va base s).others = s.others := rfl
@[simp] theorem refill_port : (refill k va base s).port = s.port := rfl
@[simp] theorem refill_draws : (refill k va base s).draws = s.draws := rfl
@[simp] theorem refill_cfg : (refill k va base s).blk.cfg = s.blk.cfg := rfl
@[simp] theorem refill_root : (refill k va base s).blk.root = s.blk.root := rfl
@[simp] theorem refill_sup : (refill k va base s).blk.sup = s.blk.sup := rfl
@[simp] theorem refill_vm : (refill k va base s).blk.vm = s.blk.vm := rfl
@[simp] theorem refill_lastFault : (refill k va base s).blk.lastFault = s.blk.lastFault := rfl
@[simp] theorem refill_faultSeen : (refill k va base s).blk.faultSeen = s.blk.faultSeen := rfl
@[simp] theorem refill_halted : (refill k va base s).blk.halted = s.blk.halted := rfl
@[simp] theorem refill_tlb : (refill k va base s).blk.tlb = s.blk.tlb.setRows k (refilledRows s k va base) := rfl
@[simp] theorem refill_icache : (refill k va base s).blk.icache = s.blk.icache := rfl
@[simp] theorem refill_resp : (refill k va base s).blk.resp = s.blk.resp := rfl
end refill

section invalidateTlb
variable (s : State)
@[simp] theorem invalidateTlb_memsz : (invalidateTlb s).memsz = s.memsz := rfl
@[simp] theorem invalidateTlb_mem : (invalidateTlb s).mem = s.mem := rfl
@[simp] theorem invalidateTlb_index : (invalidateTlb s).index = s.index := rfl
@[simp] theorem invalidateTlb_others : (invalidateTlb s).others = s.others := rfl
@[simp] theorem invalidateTlb_port : (invalidateTlb s).port = s.port := rfl
@[simp] theorem invalidateTlb_draws : (invalidateTlb s).draws = s.draws := rfl
@[simp] theorem invalidateTlb_cfg : (invalidateTlb s).blk.cfg = s.blk.cfg := rfl
@[simp] theorem invalidateTlb_root : (invalidateTlb s).blk.root = s.blk.root := rfl
@[simp] theorem invalidateTlb_sup : (invalidateTlb s).blk.sup = s.blk.sup := rfl
@[simp] theorem invalidateTlb_vm : (invalidateTlb s).blk.vm = s.blk.vm := rfl
@[simp] theorem invalidateTlb_lastFault : (invalidateTlb s).blk.lastFault = s.blk.lastFault := rfl
@[simp] theorem invalidateTlb_faultSeen : (invalidateTlb s).blk.faultSeen = s.blk.faultSeen := rfl
@[simp] theorem invalidateTlb_halted : (invalidateTlb s).blk.halted = s.blk.halted := rfl
@[simp] theorem invalidateTlb_tlb : (invalidateTlb s).blk.tlb =
    { fetch := s.blk.tlb.fetch.map TlbRow.invalidate, load := s.blk.tlb.load.map TlbRow.invalidate,
      store := s.blk.tlb.store.map TlbRow.invalidate } := rfl
@[simp] theorem invalidateTlb_icache : (invalidateTlb s).blk.icache = s.blk.icache := rfl
@[simp] theorem invalidateTlb_resp : (invalidateTlb s).blk.resp = s.blk.resp := rfl
end invalidateTlb

section fillIcache
variable (a : Word) (bits : BitVec 32) (h : Handle) (s : State)
@[simp] theorem fillIcache_memsz : (fillIcache a bits h s).memsz = s.memsz := rfl
@[simp] theorem fillIcache_mem : (fillIcache a bits h s).mem = s.mem := rfl
@[simp] theorem fillIcache_index : (fillIcache a bits h s).index = s.index := rfl
@[simp] theorem fillIcache_others : (fillIcache a bits h s).others = s.others := rfl
@[simp] theorem fillIcache_port : (fillIcache a bits h s).port = s.port := rfl
@[simp] theorem fillIcache_draws : (fillIcache a bits h s).draws = s.draws := rfl
@[simp] theorem fillIcache_cfg : (fillIcache a bits h s).blk.cfg = s.blk.cfg := rfl
@[simp] theorem fillIcache_root : (fillIcache a bits h s).blk.root = s.blk.root := rfl
@[simp] theorem fillIcache_sup : (fillIcache a bits h s).blk.sup = s.blk.sup := rfl
@[simp] theorem fillIcache_vm : (fillIcache a bits h s).blk.vm = s.blk.vm := rfl
@[simp] theorem fillIcache_lastFault : (fillIcache a bits h s).blk.lastFault = s.blk.lastFault := rfl
@[simp] theorem fillIcache_faultSeen : (fillIcache a bits h s).blk.faultSeen = s.blk.faultSeen := rfl
@[simp] theorem fillIcache_halted : (fillIcache a bits h s).blk.halted = s.blk.halted := rfl
@[simp] theorem fillIcache_tlb : (fillIcache a bits h s).blk.tlb = s.blk.tlb := rfl
@[simp] theorem fillIcache_icache : (fillIcache a bits h s).blk.icache = filledRows s a bits h := rfl
@[simp] theorem fillIcache_resp : (fillIcache a bits h s).blk.resp = s.blk.resp := rfl
end fillIcache

section invalidateIcache
variable (s : State)
@[simp] theorem invalidateIcache_memsz : (invalidateIcache s).memsz = s.memsz := rfl
@[simp] theorem invalidateIcache_mem : (invalidateIcache s).mem = s.mem := rfl
@[simp] theorem invalidateIcache_index : (invalidateIcache s).index = s.index := rfl
@[simp] theorem invalidateIcache_others : (invalidateIcache s).others = s.others := rfl
@[simp] theorem invalidateIcache_port : (invalidateIcache s).port = s.port := rfl
@[simp] theorem invalidateIcache_draws : (invalidateIcache s).draws = s.draws := rfl
@[simp] theorem invalidateIcache_cfg : (invalidateIcache s).blk.cfg = s.blk.cfg := rfl
@[simp] theorem invalidateIcache_root : (invalidateIcache s).blk.root = s.blk.root := rfl
@[simp] theorem invalidateIcache_sup : (invalidateIcache s).blk.sup = s.blk.sup := rfl
@[simp] theorem invalidateIcache_vm : (invalidateIcache s).blk.vm = s.blk.vm := rfl
@[simp] theorem invalidateIcache_lastFault : (invalidateIcache s).blk.lastFault = s.blk.lastFault := rfl
@[simp] theorem invalidateIcache_faultSeen : (invalidateIcache s).blk.faultSeen = s.blk.faultSeen := rfl
@[simp] theorem invalidateIcache_halted : (invalidateIcache s).blk.halted = s.blk.halted := rfl
@[simp] theorem invalidateIcache_tlb : (invalidateIcache s).blk.tlb = s.blk.tlb := rfl
@[simp] theorem invalidateIcache_icache : (invalidateIcache s).blk.icache = s.blk.icache.map IcRow.invalidate := rfl
@[simp] theorem invalidateIcache_resp : (invalidateIcache s).blk.resp = s.blk.resp := rfl
end invalidateIcache

section answer
variable (r : Word) (s : State)
@[simp] theorem answer_memsz : (answer r s).memsz = s.memsz := rfl
@[simp] theorem answer_mem : (answer r s).mem = s.mem := rfl
@[simp] theorem answer_index : (answer r s).index = s.index := rfl
@[simp] theorem answer_others : (answer r s).others = s.others := rfl
@[simp] theorem answer_port : (answer r s).port = s.port := rfl
@[simp] theorem answer_draws : (answer r s).draws = s.draws + 1 := rfl
@[simp] theorem answer_cfg : (answer r s).blk.cfg = s.blk.cfg := rfl
@[simp] theorem answer_root : (answer r s).blk.root = s.blk.root := rfl
@[simp] theorem answer_sup : (answer r s).blk.sup = s.blk.sup := rfl
@[simp] theorem answer_vm : (answer r s).blk.vm = s.blk.vm := rfl
@[simp] theorem answer_lastFault : (answer r s).blk.lastFault = s.blk.lastFault := rfl
@[simp] theorem answer_faultSeen : (answer r s).blk.faultSeen = s.blk.faultSeen := rfl
@[simp] theorem answer_halted : (answer r s).blk.halted = s.blk.halted := rfl
@[simp] theorem answer_tlb : (answer r s).blk.tlb = s.blk.tlb := rfl
@[simp] theorem answer_icache : (answer r s).blk.icache = s.blk.icache := rfl
@[simp] theorem answer_resp : (answer r s).blk.resp =
    { s.blk.resp with status := .ok, r := r, h := Config.freeHandle s.draws } := rfl
end answer

section answerFetch
variable (r : Word) (h : Handle) (s : State)
@[simp] theorem answerFetch_memsz : (answerFetch r h s).memsz = s.memsz := rfl
@[simp] theorem answerFetch_mem : (answerFetch r h s).mem = s.mem := rfl
@[simp] theorem answerFetch_index : (answerFetch r h s).index = s.index := rfl
@[simp] theorem answerFetch_others : (answerFetch r h s).others = s.others := rfl
@[simp] theorem answerFetch_port : (answerFetch r h s).port = s.port := rfl
@[simp] theorem answerFetch_draws : (answerFetch r h s).draws = s.draws := rfl
@[simp] theorem answerFetch_cfg : (answerFetch r h s).blk.cfg = s.blk.cfg := rfl
@[simp] theorem answerFetch_root : (answerFetch r h s).blk.root = s.blk.root := rfl
@[simp] theorem answerFetch_sup : (answerFetch r h s).blk.sup = s.blk.sup := rfl
@[simp] theorem answerFetch_vm : (answerFetch r h s).blk.vm = s.blk.vm := rfl
@[simp] theorem answerFetch_lastFault : (answerFetch r h s).blk.lastFault = s.blk.lastFault := rfl
@[simp] theorem answerFetch_faultSeen : (answerFetch r h s).blk.faultSeen = s.blk.faultSeen := rfl
@[simp] theorem answerFetch_halted : (answerFetch r h s).blk.halted = s.blk.halted := rfl
@[simp] theorem answerFetch_tlb : (answerFetch r h s).blk.tlb = s.blk.tlb := rfl
@[simp] theorem answerFetch_icache : (answerFetch r h s).blk.icache = s.blk.icache := rfl
@[simp] theorem answerFetch_resp : (answerFetch r h s).blk.resp =
    { s.blk.resp with status := .ok, r := r, h := h } := rfl
end answerFetch

section takeFault
variable (f : FaultKind) (va : Word) (s : State)
@[simp] theorem takeFault_memsz : (takeFault f va s).memsz = s.memsz := rfl
@[simp] theorem takeFault_mem : (takeFault f va s).mem = s.mem := rfl
@[simp] theorem takeFault_index : (takeFault f va s).index = s.index := rfl
@[simp] theorem takeFault_others : (takeFault f va s).others = s.others := rfl
@[simp] theorem takeFault_port : (takeFault f va s).port = s.port := rfl
@[simp] theorem takeFault_draws : (takeFault f va s).draws = s.draws + 1 := rfl
@[simp] theorem takeFault_cfg : (takeFault f va s).blk.cfg = s.blk.cfg := rfl
@[simp] theorem takeFault_root : (takeFault f va s).blk.root = s.blk.root := rfl
@[simp] theorem takeFault_sup : (takeFault f va s).blk.sup = s.blk.sup := rfl
@[simp] theorem takeFault_vm : (takeFault f va s).blk.vm = s.blk.vm := rfl
@[simp] theorem takeFault_lastFault : (takeFault f va s).blk.lastFault = va := rfl
@[simp] theorem takeFault_faultSeen : (takeFault f va s).blk.faultSeen = true := rfl
@[simp] theorem takeFault_halted : (takeFault f va s).blk.halted = s.blk.halted := rfl
@[simp] theorem takeFault_tlb : (takeFault f va s).blk.tlb = s.blk.tlb := rfl
@[simp] theorem takeFault_icache : (takeFault f va s).blk.icache = s.blk.icache := rfl
@[simp] theorem takeFault_resp : (takeFault f va s).blk.resp =
    { s.blk.resp with status := .fault f, r := Config.freeWord s.draws, h := Config.freeHandle s.draws } := rfl
end takeFault

section takeFatal
variable (s : State)
@[simp] theorem takeFatal_memsz : (takeFatal s).memsz = s.memsz := rfl
@[simp] theorem takeFatal_mem : (takeFatal s).mem = s.mem := rfl
@[simp] theorem takeFatal_index : (takeFatal s).index = s.index := rfl
@[simp] theorem takeFatal_others : (takeFatal s).others = s.others := rfl
@[simp] theorem takeFatal_port : (takeFatal s).port = s.port := rfl
@[simp] theorem takeFatal_draws : (takeFatal s).draws = s.draws + 1 := rfl
@[simp] theorem takeFatal_cfg : (takeFatal s).blk.cfg = s.blk.cfg := rfl
@[simp] theorem takeFatal_root : (takeFatal s).blk.root = s.blk.root := rfl
@[simp] theorem takeFatal_sup : (takeFatal s).blk.sup = s.blk.sup := rfl
@[simp] theorem takeFatal_vm : (takeFatal s).blk.vm = s.blk.vm := rfl
@[simp] theorem takeFatal_lastFault : (takeFatal s).blk.lastFault = s.blk.lastFault := rfl
@[simp] theorem takeFatal_faultSeen : (takeFatal s).blk.faultSeen = s.blk.faultSeen := rfl
@[simp] theorem takeFatal_halted : (takeFatal s).blk.halted = true := rfl
@[simp] theorem takeFatal_tlb : (takeFatal s).blk.tlb = s.blk.tlb := rfl
@[simp] theorem takeFatal_icache : (takeFatal s).blk.icache = s.blk.icache := rfl
@[simp] theorem takeFatal_resp : (takeFatal s).blk.resp =
    { s.blk.resp with status := .fatal, r := Config.freeWord s.draws, h := Config.freeHandle s.draws } := rfl
end takeFatal

end Sys2Proof.Machine
end

