-- ==== Sys2Proof/Laws/Ops.lean ====
section
/-! SUPPORT. The shared operations: the caches' rows, `serve`, the instances and the request port. -/

namespace Sys2Proof.Machine

open Sys2Proof

/-! ### Cache rows -/

/-- A refill of one kind leaves the arrays of the others (20_memory.md R81). -/
theorem Tlb.rows_setRows (t : Tlb) (k k' : Kind) (rows : List TlbRow) :
    (t.setRows k rows).rows k' = if k' = k then rows else t.rows k' := by
  cases k <;> cases k' <;> rfl

@[simp] theorem Tlb.rows_setRows_self (t : Tlb) (k : Kind) (rows : List TlbRow) :
    (t.setRows k rows).rows k = rows := by
  cases k <;> rfl

theorem Tlb.rows_setRows_ne (t : Tlb) (k k' : Kind) (rows : List TlbRow) (h : k' ≠ k) :
    (t.setRows k rows).rows k' = t.rows k' := by
  rw [Tlb.rows_setRows, if_neg h]

/-- Every array of a flushed cache is the old one with its tags INVALID (42_flush.md R170). -/
@[simp] theorem invalidateTlb_rows (s : State) (k : Kind) :
    (invalidateTlb s).blk.tlb.rows k = (s.blk.tlb.rows k).map TlbRow.invalidate := by
  cases k <;> rfl

@[simp] theorem TlbRow.invalidate_tag (row : TlbRow) : row.invalidate.tag = none := rfl
@[simp] theorem TlbRow.invalidate_base (row : TlbRow) : row.invalidate.base = row.base := rfl
@[simp] theorem IcRow.invalidate_tag (row : IcRow) : row.invalidate.tag = none := rfl
@[simp] theorem IcRow.invalidate_bits (row : IcRow) : row.invalidate.bits = row.bits := rfl
@[simp] theorem IcRow.invalidate_handle (row : IcRow) : row.invalidate.handle = row.handle := rfl

/-- What a TLB hit is (20_memory.md R67). -/
theorem tlbBase_eq_some (s : State) (k : Kind) (va base : Word) :
    tlbBase s k va = some base ↔
      (s.blk.tlb.rows k)[s.blk.cfg.tlbIndex va]? = some { tag := some (s.blk.cfg.pageOf va), base := base } := by
  unfold tlbBase
  cases h : (s.blk.tlb.rows k)[s.blk.cfg.tlbIndex va]? with
  | none => simp
  | some row =>
    cases row with
    | mk tag b =>
      simp only [Option.ite_none_right_eq_some, Option.some.injEq, TlbRow.mk.injEq]

/-- A lookup sees only its kind's rows and the parameters. -/
theorem tlbBase_congr (s t : State) (k : Kind) (va : Word) (hc : t.blk.cfg = s.blk.cfg)
    (hr : t.blk.tlb.rows k = s.blk.tlb.rows k) : tlbBase t k va = tlbBase s k va := by
  rw [tlbBase, tlbBase, hc, hr]

/-- What an icache hit is (40_fetch.md R132). -/
theorem icacheHit_eq_some (s : State) (a : Word) (row : IcRow) :
    icacheHit s a = some row ↔ s.blk.icache[s.blk.cfg.icacheIndex a]? = some row ∧ row.tag = some a := by
  unfold icacheHit
  cases h : s.blk.icache[s.blk.cfg.icacheIndex a]? with
  | none => simp
  | some r =>
    simp only [Option.ite_none_right_eq_some, Option.some.injEq]
    constructor
    · rintro ⟨h1, rfl⟩; exact ⟨rfl, h1⟩
    · rintro ⟨rfl, h1⟩; exact ⟨h1, rfl⟩

/-- A lookup sees only the icache and the parameters. -/
theorem icacheHit_congr (s t : State) (a : Word) (hc : t.blk.cfg = s.blk.cfg)
    (hr : t.blk.icache = s.blk.icache) : icacheHit t a = icacheHit s a := by
  rw [icacheHit, icacheHit, hc, hr]

/-- After a fill the same address hits the row just written, if the icache has that row (R134). -/
theorem icacheHit_fillIcache (s : State) (a : Word) (bits : BitVec 32) (h : Handle)
    (hi : s.blk.cfg.icacheIndex a < s.blk.icache.length) :
    icacheHit (fillIcache a bits h s) a = some { tag := some a, bits := bits, handle := h } := by
  rw [icacheHit_eq_some]
  exact ⟨by simp [filledRows, hi], rfl⟩

/-! ### Bounds -/

/-- The bounds check over unbounded integers (20_memory.md R62). -/
theorem inBounds_iff (s : State) (pa : Word) (n : Nat) : inBounds s pa n = true ↔ pa.toNat + n ≤ s.memsz := by
  simp [inBounds]

theorem inBounds_eq_false_iff (s : State) (pa : Word) (n : Nat) :
    inBounds s pa n = false ↔ s.memsz < pa.toNat + n := by
  simp [inBounds]

/-! ### Performing a request -/

/-- A request that is not refused gives a next state exactly when the instance is not halted. -/
theorem serve_eq_next (s t : State) (body : State → State) :
    serve s body = .next t ↔ s.blk.halted = false ∧ t = body (start s) := by
  unfold serve
  cases s.blk.halted <;> simp [eq_comm]

theorem serve_of_halted (s : State) (body : State → State) (h : s.blk.halted = true) :
    serve s body = .fault .halted := by
  simp [serve, h]

/-- How a request's last part is reached. -/
theorem finish_go {α : Type} (a : α) (s : State) (last : α → State → State) :
    (Phase.go a s).finish last = last a s := rfl

theorem finish_raise {α : Type} (f : FaultKind) (va : Word) (s : State) (last : α → State → State) :
    (Phase.raise f va s).finish last = takeFault f va s := rfl

theorem finish_fatal {α : Type} (s : State) (last : α → State → State) :
    (Phase.fatal s).finish last = takeFatal s := rfl

/-! ### The instances -/

/-- The instance at hand is number `index`. -/
theorem blocks_getElem?_index (s : State) (h : s.index ≤ s.others.length) : s.blocks[s.index]? = some s.blk := by
  simp [State.blocks, List.getElem?_insertIdx_self, h]

/-- A change of the instance at hand changes that entry of the list of instances alone (60_exceptions.md R212). -/
theorem blocks_eq_set (s t : State) (hi : t.index = s.index) (ho : t.others = s.others)
    (h : s.index ≤ s.others.length) : t.blocks = s.blocks.set s.index t.blk := by
  rw [State.blocks, State.blocks, hi, ho]
  apply List.ext_getElem?
  intro n
  rw [List.getElem?_set, List.length_insertIdx]
  by_cases hn : s.index = n
  · subst hn
    simp [List.getElem?_insertIdx_self, h]
  · rw [if_neg hn]
    rcases Nat.lt_or_gt_of_ne hn with hlt | hgt
    · rw [List.getElem?_insertIdx_of_gt hlt, List.getElem?_insertIdx_of_gt hlt]
    · rw [List.getElem?_insertIdx_of_lt hgt, List.getElem?_insertIdx_of_lt hgt]

/-- What selecting an instance does: it puts that instance at hand and changes none (R212). -/
theorem select_eq_some (k : Nat) (s t : State) (hs : s.index ≤ s.others.length) (h : select k s = some t) :
    t.index = k ∧ t.index ≤ t.others.length ∧ s.blocks[k]? = some t.blk ∧ t.blocks = s.blocks ∧
    t.memsz = s.memsz ∧ t.mem = s.mem ∧ t.port = s.port ∧ t.draws = s.draws := by
  unfold select at h
  split at h
  · rename_i hk
    obtain rfl := Option.some.inj h
    exact ⟨hk.symm, hs, hk ▸ blocks_getElem?_index _ hs, rfl, rfl, rfl, rfl, rfl⟩
  · split at h
    · rename_i b hb
      obtain rfl := Option.some.inj h
      have hlen : k < s.blocks.length := (List.getElem?_eq_some_iff.mp hb).1
      have hb' : s.blocks[k] = b := (List.getElem?_eq_some_iff.mp hb).2
      refine ⟨rfl, ?_, hb, ?_, rfl, rfl, rfl, rfl⟩
      · simp only [List.length_eraseIdx_of_lt hlen]
        omega
      · simp only [State.blocks] at hlen hb' ⊢
        subst hb'
        exact List.insertIdx_eraseIdx_getElem hlen
    · cases h

/-- Selecting the instance at hand changes nothing. -/
@[simp] theorem select_index (s : State) : select s.index s = some s := by simp [select]

/-- What a request taken from the port is: the oldest, decoded, on an instance that is not halted and whose
configuration is legal. -/
theorem takeRequest_eq_request (s t : State) (i : Instr) (h : takeRequest s = .request i t) :
    ∃ e rest, s.port = e :: rest ∧ select e.block { s with port := rest } = some t ∧ t.blk.cfg.Ok ∧ 1 ≤ t.memsz ∧
      t.blk.halted = false ∧ decode e.word = .ok i := by
  unfold takeRequest at h
  split at h
  · cases h
  · rename_i e rest hp
    split at h
    · cases h
    · rename_i u hu
      split at h
      · rename_i hok
        split at h
        · cases h
        · rename_i hh
          split at h
          · rename_i j hj
            cases h
            exact ⟨e, rest, hp, hu, hok.1, hok.2, by simpa using hh, hj⟩
          · cases h
      · cases h

/-- What a step that gives a next state does: it is idle, or it performs the oldest pending request. -/
theorem step_eq_next (s t : State) (h : step s = .next t) :
    (s.port = [] ∧ t = s) ∨
    (∃ e rest i u, s.port = e :: rest ∧ select e.block { s with port := rest } = some u ∧ u.blk.cfg.Ok ∧
      1 ≤ u.memsz ∧ u.blk.halted = false ∧ decode e.word = .ok i ∧ exec i u = .next t) := by
  unfold step at h
  split at h
  · rename_i hi
    refine .inl ⟨?_, by cases h; rfl⟩
    unfold takeRequest at hi
    split at hi
    · assumption
    · repeat' split at hi
      all_goals cases hi
  · cases h
  · cases h
  · rename_i i u hr
    obtain ⟨e, rest, h1, h2, h3, h4, h5, h6⟩ := takeRequest_eq_request s u i hr
    exact .inr ⟨e, rest, i, u, h1, h2, h3, h4, h5, h6, h⟩

end Sys2Proof.Machine
end

