-- ==== Sys2Proof/Laws/Formula.lean ====
section
/-! SUPPORT. The machine's functions compute the spec's formulas (Safety.lean): one equation for each, from the formula
to the machine's name. -/

namespace Sys2Proof.Machine

open Sys2Proof

@[simp] theorem Formula.page_eq (c : Config) (va : Word) : Formula.page c va = c.pageOf va := rfl

@[simp] theorem Formula.pageOffset_eq (c : Config) (va : Word) : Formula.pageOffset c va = c.pageOffset va := rfl

@[simp] theorem Formula.tlbRow_eq (c : Config) (va : Word) : Formula.tlbRow c va = c.tlbIndex va := rfl

@[simp] theorem Formula.icacheRow_eq (c : Config) (a : Word) : Formula.icacheRow c a = c.icacheIndex a := rfl

@[simp] theorem Formula.vaBits_eq (c : Config) : Formula.vaBits c = c.vaBits := rfl

/-- The index group is a remainder: masking with `2^n - 1` keeps the low n bits. -/
@[simp] theorem Formula.index_eq (c : Config) (va : Word) (below : Nat) :
    Formula.index c va below = c.walkIndex va below := by
  rw [Formula.index, Nat.and_two_pow_sub_one_eq_mod]
  rfl

@[simp] theorem Formula.pteAddr_eq (c : Config) (base va : Word) (below : Nat) :
    Formula.pteAddr c base va below = c.pteAddr base va below := by
  rw [Formula.pteAddr, Formula.index_eq]
  rfl

@[simp] theorem Formula.ppnBase_eq (c : Config) (pte : Word) :
    Formula.ppnBase c pte = Sys2Proof.Machine.ppnBase c pte := rfl

@[simp] theorem Formula.permBit_eq (k : Kind) (sup : Bool) (pte : Word) :
    Formula.permBit k sup pte = Sys2Proof.Machine.permBit k sup pte := by
  cases k <;> cases sup <;> rfl

@[simp] theorem Formula.accessFault_eq (k : Kind) : Formula.accessFault k = Sys2Proof.Machine.accessFault k := by
  cases k <;> rfl

@[simp] theorem Formula.permFault_eq (k : Kind) : Formula.permFault k = Sys2Proof.Machine.permFault k := by
  cases k <;> rfl

@[simp] theorem Formula.handle_eq (c : Config) (b : Nat) : Formula.handle c b = c.handleOf b := rfl

@[simp] theorem Formula.isShort_eq (c : Config) (u : BitVec 16) : Formula.isShort c u = c.isShort.test u := by
  unfold Formula.isShort ShortForm.test
  cases c.isShort <;> rfl

@[simp] theorem Formula.tlbHit_eq (s : State) (k : Kind) (va : Word) : Formula.tlbHit s k va = tlbBase s k va := rfl

@[simp] theorem Formula.icacheHit_eq (s : State) (a : Word) :
    Formula.icacheHit s a = Sys2Proof.Machine.icacheHit s a := rfl

/-- A request's instance is the one `select` puts at hand. -/
theorem select_of_addressed (s : State) (n : Nat) (b : Block) (h : Formula.Addressed s n b) :
    ∃ t, select n s = some t ∧ t.blk = b ∧ t.memsz = s.memsz := by
  rcases h with ⟨hn, rfl⟩ | ⟨hn, hb⟩
  · exact ⟨s, by rw [hn, select_index], rfl, rfl⟩
  · have hb' : s.blocks[n]? = some b := hb
    refine ⟨{ s with blk := b, index := n, others := s.blocks.eraseIdx n }, ?_, rfl, rfl⟩
    simp [select, hn, hb']

end Sys2Proof.Machine
end

