-- ==== Sys2Proof/Laws/Memory.lean ====
section
/-! SUPPORT. The buffer: a read after a write, the canonical form, and little-endian reads and writes of n bytes. -/

namespace Sys2Proof.Machine

open Sys2Proof

/-- A write leaves every other byte alone. -/
theorem Memory.read_write_ne (m : Memory) (a x : Nat) (b : Byte) (h : x ≠ a) :
    (m.write a b).read x = m.read x := by
  induction m with
  | nil =>
    simp only [Memory.write]
    split
    · rfl
    · simp [Memory.read, Ne.symm h]
  | cons c rest ih =>
    simp only [Memory.write]
    split
    · simp only [Memory.read, ih]
    · split
      · rename_i hc
        split
        · simp [Memory.read, hc, Ne.symm h]
        · simp [Memory.read, hc, Ne.symm h]
      · split
        · rfl
        · simp [Memory.read, Ne.symm h]

/-- A byte below every listed address reads as unlisted. -/
theorem Memory.read_of_lt (m : Memory) (a : Nat) (h : ∀ c ∈ m, a < c.1) : m.read a = Memory.unlisted := by
  induction m with
  | nil => rfl
  | cons c rest ih =>
    have hc := h c (by simp)
    have hne : c.1 ≠ a := by omega
    rw [Memory.read, if_neg hne]
    exact ih fun c' hc' => h c' (by simp [hc'])

/-- A read after a write to the same place gives the value written. -/
theorem Memory.read_write_eq (m : Memory) (a : Nat) (b : Byte) (h : m.wf) : (m.write a b).read a = b := by
  induction m with
  | nil =>
    simp only [Memory.write]
    split
    · simp_all [Memory.read]
    · simp [Memory.read]
  | cons c rest ih =>
    obtain ⟨hp, hz⟩ := h
    rw [List.pairwise_cons] at hp
    have hrest : Memory.wf rest := ⟨hp.2, fun c' hc' => hz c' (by simp [hc'])⟩
    simp only [Memory.write]
    split
    · rename_i hlt
      have hne : c.1 ≠ a := by omega
      rw [Memory.read, if_neg hne]
      exact ih hrest
    · split
      · rename_i hc
        split
        · rename_i hb
          rw [Memory.read_of_lt rest a (fun c' hc' => hc ▸ hp.1 c' hc'), hb]
        · simp [Memory.read]
      · split
        · rename_i h1 h2 hb
          rw [Memory.read_of_lt, hb]
          intro c' hc'
          rcases List.mem_cons.mp hc' with rfl | hc'
          · omega
          · have := hp.1 c' hc'
            omega
        · simp [Memory.read]

/-- Whatever a write lists is the byte written or was listed. -/
theorem Memory.mem_write (m : Memory) (a : Nat) (b : Byte) (c : Host.Cell) (h : c ∈ m.write a b) :
    (c = (a, b) ∧ b ≠ Memory.unlisted) ∨ c ∈ m := by
  induction m with
  | nil =>
    simp only [Memory.write] at h
    split at h
    · simp at h
    · exact .inl ⟨by simpa using h, ‹_›⟩
  | cons d rest ih =>
    simp only [Memory.write] at h
    split at h
    · rcases List.mem_cons.mp h with rfl | h
      · exact .inr (by simp)
      · exact (ih h).imp id fun h => by simp [h]
    · split at h
      · split at h
        · exact .inr (by simp [h])
        · rcases List.mem_cons.mp h with rfl | h
          · exact .inl ⟨rfl, ‹_›⟩
          · exact .inr (by simp [h])
      · split at h
        · exact .inr h
        · rcases List.mem_cons.mp h with rfl | h
          · exact .inl ⟨rfl, ‹_›⟩
          · exact .inr h

/-- A write keeps the canonical form. -/
theorem Memory.wf_write (m : Memory) (a : Nat) (b : Byte) (h : m.wf) : (m.write a b).wf := by
  refine ⟨?_, fun c hc => ?_⟩
  · induction m with
    | nil =>
      simp only [Memory.write]
      split <;> simp
    | cons d rest ih =>
      obtain ⟨hp, hz⟩ := h
      have hp' := List.pairwise_cons.mp hp
      have hrest : Memory.wf rest := ⟨hp'.2, fun c' hc' => hz c' (by simp [hc'])⟩
      simp only [Memory.write]
      split
      · rename_i hlt
        refine List.pairwise_cons.mpr ⟨fun c hc => ?_, ih hrest⟩
        rcases Memory.mem_write rest a b c hc with ⟨rfl, -⟩ | hc
        · exact hlt
        · exact hp'.1 c hc
      · split
        · rename_i hc
          split
          · exact hp'.2
          · exact List.pairwise_cons.mpr ⟨fun c hc' => hc ▸ hp'.1 c hc', hp'.2⟩
        · split
          · exact hp
          · refine List.pairwise_cons.mpr ⟨fun c hc => ?_, hp⟩
            rcases List.mem_cons.mp hc with rfl | hc
            · simp only; omega
            · have := hp'.1 c hc
              simp only; omega
  · rcases Memory.mem_write m a b c hc with ⟨rfl, hb⟩ | hc
    · exact hb
    · exact h.2 c hc

/-- A wide write leaves every byte outside its n bytes alone (R50). -/
theorem Memory.read_writeLE_outside (m : Memory) (a n v x : Nat) (h : x < a ∨ a + n ≤ x) :
    (m.writeLE a n v).read x = m.read x := by
  induction n generalizing m a v with
  | zero => rfl
  | succ n ih =>
    rw [Memory.writeLE, ih _ _ _ (by omega), Memory.read_write_ne _ _ _ _ (by omega)]

/-- Byte j of a wide write is bits 8j+7:8j of the value (R50). -/
theorem Memory.read_writeLE_inside (m : Memory) (a n v j : Nat) (hm : m.wf) (h : j < n) :
    (m.writeLE a n v).read (a + j) = BitVec.ofNat 8 (v / 256 ^ j) := by
  induction n generalizing m a v j with
  | zero => omega
  | succ n ih =>
    rw [Memory.writeLE]
    cases j with
    | zero =>
      rw [Memory.read_writeLE_outside _ _ _ _ _ (by omega)]
      simpa using Memory.read_write_eq m a _ hm
    | succ j =>
      have := ih (m.write a (BitVec.ofNat 8 v)) (a + 1) (v / 256) j (Memory.wf_write m a _ hm) (by omega)
      rw [show a + (j + 1) = a + 1 + j by omega, this, Nat.div_div_eq_div_mul, pow_succ, Nat.mul_comm]

/-- A wide write keeps the canonical form. -/
theorem Memory.wf_writeLE (m : Memory) (a n v : Nat) (h : m.wf) : (m.writeLE a n v).wf := by
  induction n generalizing m a v with
  | zero => exact h
  | succ n ih => exact ih _ _ _ (Memory.wf_write m a _ h)

/-- A wide write lists nothing outside its bytes that was not listed. -/
theorem Memory.mem_writeLE (m : Memory) (a n v : Nat) (c : Host.Cell) (h : c ∈ m.writeLE a n v) :
    (a ≤ c.1 ∧ c.1 < a + n) ∨ c ∈ m := by
  induction n generalizing m a v with
  | zero => exact .inr h
  | succ n ih =>
    rcases ih _ _ _ h with h | h
    · exact .inl (by omega)
    · rcases Memory.mem_write _ _ _ _ h with ⟨rfl, -⟩ | h
      · exact .inl (by simp only; omega)
      · exact .inr h

/-- Equal bytes give equal wide reads. -/
theorem Memory.readLE_congr (m m' : Memory) (a n : Nat) (h : ∀ j, j < n → m.read (a + j) = m'.read (a + j)) :
    m.readLE a n = m'.readLE a n := by
  induction n generalizing a with
  | zero => rfl
  | succ n ih =>
    rw [Memory.readLE, Memory.readLE, ← Nat.add_zero a, h 0 (by omega), Nat.add_zero,
      ih (a + 1) fun j hj => by rw [show a + 1 + j = a + (j + 1) by omega]; exact h _ (by omega)]

/-- A wide read is below 256^n. -/
theorem Memory.readLE_lt (m : Memory) (a n : Nat) : m.readLE a n < 256 ^ n := by
  induction n generalizing a with
  | zero => simp [Memory.readLE]
  | succ n ih =>
    have h1 := ih (a + 1)
    have h2 := (m.read a).isLt
    rw [Memory.readLE, pow_succ]
    omega

/-- A wide read takes byte j as bits 8j+7:8j (R50). -/
theorem Memory.readLE_div_mod (m : Memory) (a n j : Nat) (h : j < n) :
    m.readLE a n / 256 ^ j % 256 = (m.read (a + j)).toNat := by
  induction n generalizing a j with
  | zero => omega
  | succ n ih =>
    have hb := (m.read a).isLt
    rw [Memory.readLE]
    cases j with
    | zero => simp; omega
    | succ j =>
      rw [pow_succ', ← Nat.div_div_eq_div_mul, show a + (j + 1) = a + 1 + j by omega, ← ih (a + 1) j (by omega)]
      congr 2
      omega

/-- A wide read after the same wide write gives the value's low bytes (R50, R53). -/
theorem Memory.readLE_writeLE (m : Memory) (a n v : Nat) (hm : m.wf) :
    (m.writeLE a n v).readLE a n = v % 256 ^ n := by
  induction n generalizing m a v with
  | zero => simp [Memory.readLE, Nat.mod_one]
  | succ n ih =>
    rw [Memory.readLE, Memory.writeLE, Memory.read_writeLE_outside _ _ _ _ _ (by omega),
      Memory.read_write_eq _ _ _ hm, ih _ _ _ (Memory.wf_write m a _ hm), pow_succ, Nat.mul_comm (256 ^ n),
      Nat.mod_mul]
    simp

end Sys2Proof.Machine
end

