-- ==== Sys2Proof/Laws/Translate.lean ====
section
/-! SUPPORT. Everything a translation can do (20_memory.md R65 to R80), said once: what a PTE read gives, where a walk
ends, what the R/D update writes, and what the engine and `translate` change and leave. -/

namespace Sys2Proof.Machine

open Sys2Proof

/-! ### PTE reads and walks -/

/-- A PTE read passes its bounds check and gives the bytes of the buffer (R51, R62). -/
theorem readPte_eq_some (s : State) (addr pte : Word) :
    readPte s addr = some pte ↔ addr.toNat + s.blk.cfg.pteBytes ≤ s.memsz ∧
      pte = BitVec.ofNat 64 (s.mem.readLE addr.toNat s.blk.cfg.pteBytes) := by
  unfold readPte
  by_cases h : addr.toNat + s.blk.cfg.pteBytes ≤ s.memsz
  · rw [if_pos ((inBounds_iff ..).mpr h)]
    simp [h, eq_comm]
  · simp [inBounds, h]

/-- A PTE read fails exactly out of bounds (R62). -/
theorem readPte_eq_none (s : State) (addr : Word) :
    readPte s addr = none ↔ s.memsz < addr.toNat + s.blk.cfg.pteBytes := by
  unfold readPte
  by_cases h : addr.toNat + s.blk.cfg.pteBytes ≤ s.memsz
  · rw [if_pos ((inBounds_iff ..).mpr h)]
    simp only [reduceCtorEq, false_iff]
    omega
  · rw [if_neg (by simp [inBounds, h])]
    simp only [true_iff]
    omega

/-- The three fields a PTE read depends on. -/
theorem readPte_congr (s t : State) (addr : Word) (hc : t.blk.cfg = s.blk.cfg) (hm : t.mem = s.mem)
    (hz : t.memsz = s.memsz) : readPte t addr = readPte s addr := by
  rw [readPte, readPte, inBounds, inBounds, hc, hm, hz]

/-- A walk depends on the buffer and the parameters alone. -/
theorem walk_congr (s t : State) (k : Kind) (va : Word) (n : Nat) (base : Word) (hc : t.blk.cfg = s.blk.cfg)
    (hm : t.mem = s.mem) (hz : t.memsz = s.memsz) : walk t k va n base = walk s k va n base := by
  induction n generalizing base with
  | zero => simp only [walk, hc, readPte_congr s t _ hc hm hz]
  | succ n ih => simp only [walk, hc, readPte_congr s t _ hc hm hz, ih]

/-- A walk that ends at a leaf read a valid PTE with T = 0 there (R72). -/
theorem walk_eq_leaf (s : State) (k : Kind) (va : Word) (n : Nat) (base addr pte : Word)
    (h : walk s k va n base = .leaf addr pte) :
    readPte s addr = some pte ∧ pte.getLsbD pteV = true ∧ pte.getLsbD pteT = false := by
  induction n generalizing base with
  | zero =>
    simp only [walk] at h
    split at h
    · cases h
    · rename_i p hp
      split at h
      · rename_i hv
        split at h
        · cases h
        · rename_i ht
          cases h
          exact ⟨hp, hv, by simpa using ht⟩
      · cases h
  | succ n ih =>
    simp only [walk] at h
    split at h
    · cases h
    · split at h
      · split at h
        · exact ih _ h
        · cases h
      · cases h

/-- A walk that faults raises the access fault of its kind or MALFORMED (R73, R75). -/
theorem walk_eq_fault (s : State) (k : Kind) (va : Word) (n : Nat) (base : Word) (f : FaultKind)
    (h : walk s k va n base = .fault f) : f = accessFault k ∨ f = .malformed := by
  induction n generalizing base with
  | zero =>
    simp only [walk] at h
    repeat' split at h
    all_goals cases h
    all_goals simp
  | succ n ih =>
    simp only [walk] at h
    split at h
    · cases h
    · split at h
      · split at h
        · exact ih _ h
        · cases h; simp
      · cases h; simp

/-! ### The R/D update -/

/-- The update only changes the buffer (R78). -/
theorem updateRD_eq (k : Kind) (addr pte : Word) (s : State) :
    updateRD k addr pte s = setMem (updateRD k addr pte s).mem s := by
  unfold updateRD
  split <;> rfl

@[simp] theorem updateRD_memsz (k : Kind) (addr pte : Word) (s : State) :
    (updateRD k addr pte s).memsz = s.memsz := by rw [updateRD_eq]; rfl
@[simp] theorem updateRD_blk (k : Kind) (addr pte : Word) (s : State) :
    (updateRD k addr pte s).blk = s.blk := by rw [updateRD_eq]; rfl
@[simp] theorem updateRD_index (k : Kind) (addr pte : Word) (s : State) :
    (updateRD k addr pte s).index = s.index := by rw [updateRD_eq]; rfl
@[simp] theorem updateRD_others (k : Kind) (addr pte : Word) (s : State) :
    (updateRD k addr pte s).others = s.others := by rw [updateRD_eq]; rfl
@[simp] theorem updateRD_port (k : Kind) (addr pte : Word) (s : State) :
    (updateRD k addr pte s).port = s.port := by rw [updateRD_eq]; rfl
@[simp] theorem updateRD_draws (k : Kind) (addr pte : Word) (s : State) :
    (updateRD k addr pte s).draws = s.draws := by rw [updateRD_eq]; rfl

/-- The update keeps the canonical form. -/
theorem updateRD_wf (k : Kind) (addr pte : Word) (s : State) (h : s.mem.wf) : (updateRD k addr pte s).mem.wf := by
  unfold updateRD
  split
  · exact h
  · exact Memory.wf_writeLE _ _ _ _ h

/-- The update writes inside the leaf it was read from, and nothing else (R80). -/
theorem updateRD_read_outside (k : Kind) (addr pte : Word) (s : State) (x : Nat)
    (h : x < addr.toNat ∨ addr.toNat + s.blk.cfg.pteBytes ≤ x) :
    (updateRD k addr pte s).mem.read x = s.mem.read x := by
  unfold updateRD
  split
  · rfl
  · exact Memory.read_writeLE_outside _ _ _ _ _ h

/-- The update lists nothing outside the buffer. -/
theorem updateRD_bound (k : Kind) (addr pte : Word) (s : State) (h : ∀ c ∈ s.mem, c.1 < s.memsz)
    (hp : readPte s addr = some pte) : ∀ c ∈ (updateRD k addr pte s).mem, c.1 < s.memsz := by
  have hb := ((readPte_eq_some ..).mp hp).1
  unfold updateRD
  split
  · exact h
  · intro c hc
    rcases Memory.mem_writeLE _ _ _ _ _ hc with hc | hc
    · omega
    · exact h c hc

/-! ### The engine and translate -/

/-- What a translation leaves unchanged, whatever its end: everything but the buffer, the TLB and `walked`. -/
structure KeepsRest (s t : State) : Prop where
  memsz : t.memsz = s.memsz
  index : t.index = s.index
  others : t.others = s.others
  port : t.port = s.port
  draws : t.draws = s.draws
  cfg : t.blk.cfg = s.blk.cfg
  root : t.blk.root = s.blk.root
  sup : t.blk.sup = s.blk.sup
  vm : t.blk.vm = s.blk.vm
  lastFault : t.blk.lastFault = s.blk.lastFault
  faultSeen : t.blk.faultSeen = s.blk.faultSeen
  halted : t.blk.halted = s.blk.halted
  icache : t.blk.icache = s.blk.icache
  decoded : t.blk.resp.decoded = s.blk.resp.decoded

theorem KeepsRest.refl (s : State) : KeepsRest s s := by constructor <;> rfl

theorem KeepsRest.trans {s t u : State} (h : KeepsRest s t) (h' : KeepsRest t u) : KeepsRest s u := by
  constructor
  · exact h'.memsz.trans h.memsz
  · exact h'.index.trans h.index
  · exact h'.others.trans h.others
  · exact h'.port.trans h.port
  · exact h'.draws.trans h.draws
  · exact h'.cfg.trans h.cfg
  · exact h'.root.trans h.root
  · exact h'.sup.trans h.sup
  · exact h'.vm.trans h.vm
  · exact h'.lastFault.trans h.lastFault
  · exact h'.faultSeen.trans h.faultSeen
  · exact h'.halted.trans h.halted
  · exact h'.icache.trans h.icache
  · exact h'.decoded.trans h.decoded

/-- Everything the engine can do (R69, R70, R72, R76 to R79). -/
theorem engine_cases (va : Word) (k : Kind) (s : State) :
    (s.blk.vm = false ∧ s.memsz ≤ va.toNat ∧ engine va k s = .fatal s) ∨
    (s.blk.vm = false ∧ va.toNat < s.memsz ∧ engine va k s = .go (s.blk.cfg.pageOf va) s) ∨
    (s.blk.vm = true ∧ s.blk.cfg.beyondVa va = true ∧ engine va k s = .raise (accessFault k) va s) ∨
    (s.blk.vm = true ∧ s.blk.cfg.beyondVa va = false ∧
      walk s k va (s.blk.cfg.levels - 1) s.blk.root = .outOfBounds ∧ engine va k s = .fatal s) ∨
    (∃ f, s.blk.vm = true ∧ s.blk.cfg.beyondVa va = false ∧
      walk s k va (s.blk.cfg.levels - 1) s.blk.root = .fault f ∧ engine va k s = .raise f va s) ∨
    (∃ addr pte, s.blk.vm = true ∧ s.blk.cfg.beyondVa va = false ∧
      walk s k va (s.blk.cfg.levels - 1) s.blk.root = .leaf addr pte ∧ permBit k s.blk.sup pte = true ∧
      engine va k s = .go (ppnBase s.blk.cfg pte) (updateRD k addr pte s)) ∨
    (∃ addr pte, s.blk.vm = true ∧ s.blk.cfg.beyondVa va = false ∧
      walk s k va (s.blk.cfg.levels - 1) s.blk.root = .leaf addr pte ∧ permBit k s.blk.sup pte = false ∧
      engine va k s = .raise (permFault k) va s) := by
  unfold engine
  cases hvm : s.blk.vm with
  | false =>
    by_cases hb : s.memsz ≤ va.toNat
    · simp [engineOff, hb]
    · have : va.toNat < s.memsz := by omega
      simp [engineOff, hb, this]
  | true =>
    cases hbv : s.blk.cfg.beyondVa va with
    | true => simp [engineOn, hbv]
    | false =>
      cases hw : walk s k va (s.blk.cfg.levels - 1) s.blk.root with
      | outOfBounds => simp [engineOn, hbv, hw]
      | fault f => simp [engineOn, hbv, hw]
      | leaf addr pte =>
        cases hp : permBit k s.blk.sup pte with
        | true =>
          refine .inr <| .inr <| .inr <| .inr <| .inr <| .inl ⟨addr, pte, rfl, rfl, rfl, hp, ?_⟩
          simp [engineOn, hbv, hw, hp]
        | false =>
          refine .inr <| .inr <| .inr <| .inr <| .inr <| .inr ⟨addr, pte, rfl, rfl, rfl, hp, ?_⟩
          simp [engineOn, hbv, hw, hp]

/-- Everything `translate` can do (R65): a hit changes nothing; a miss runs the engine with `walked` set, and refills
one row when the engine succeeds. -/
theorem translateVa_cases (va : Word) (k : Kind) (s : State) :
    (∃ base, tlbBase s k va = some base ∧
      translateVa va k s = .go (base ||| s.blk.cfg.pageOffset va) s) ∨
    (∃ base t, tlbBase s k va = none ∧ engine va k (markWalked s) = .go base t ∧
      translateVa va k s = .go (base ||| s.blk.cfg.pageOffset va) (refill k va base t)) ∨
    (∃ f va' t, tlbBase s k va = none ∧ engine va k (markWalked s) = .raise f va' t ∧
      translateVa va k s = .raise f va' t) ∨
    (∃ t, tlbBase s k va = none ∧ engine va k (markWalked s) = .fatal t ∧ translateVa va k s = .fatal t) := by
  unfold translateVa
  cases h : tlbBase s k va with
  | some base => exact .inl ⟨base, rfl, rfl⟩
  | none =>
    cases he : engine va k (markWalked s) with
    | go base t => exact .inr <| .inl ⟨base, t, rfl, rfl, rfl⟩
    | raise f va' t => exact .inr <| .inr <| .inl ⟨f, va', t, rfl, rfl, rfl⟩
    | fatal t => exact .inr <| .inr <| .inr ⟨t, rfl, rfl, rfl⟩

/-- A fault of `translate` is the kind's access fault, MALFORMED or the kind's permission fault, records the address
translated, and leaves everything but `walked` (60_exceptions.md R201, R202). -/
theorem translateVa_eq_raise (va : Word) (k : Kind) (s t : State) (f : FaultKind) (va' : Word)
    (h : translateVa va k s = .raise f va' t) :
    va' = va ∧ t = markWalked s ∧ tlbBase s k va = none ∧
      (f = accessFault k ∨ f = .malformed ∨ f = permFault k) := by
  rcases translateVa_cases va k s with ⟨_, _, h'⟩ | ⟨_, _, _, _, h'⟩ | ⟨f', va'', t', hn, he, h'⟩ | ⟨_, _, _, h'⟩ <;>
    rw [h'] at h <;> cases h
  rcases engine_cases va k (markWalked s) with ⟨_, _, h⟩ | ⟨_, _, h⟩ | ⟨_, _, h⟩ | ⟨_, _, _, h⟩ |
    ⟨g, _, _, hw, h⟩ | ⟨_, _, _, _, _, _, h⟩ | ⟨_, _, _, _, _, _, h⟩ <;> rw [h] at he <;> cases he
  · exact ⟨rfl, rfl, hn, .inl rfl⟩
  · exact ⟨rfl, rfl, hn, (walk_eq_fault _ _ _ _ _ _ hw).imp id .inl⟩
  · exact ⟨rfl, rfl, hn, .inr (.inr rfl)⟩

/-- A fatal end of `translate` has set `walked` and nothing else (20_memory.md R63, R69, R72). -/
theorem translateVa_eq_fatal (va : Word) (k : Kind) (s t : State) (h : translateVa va k s = .fatal t) :
    t = markWalked s ∧ tlbBase s k va = none := by
  rcases translateVa_cases va k s with ⟨_, _, h'⟩ | ⟨_, _, _, _, h'⟩ | ⟨_, _, _, _, _, h'⟩ | ⟨t', hn, he, h'⟩ <;>
    rw [h'] at h <;> cases h
  rcases engine_cases va k (markWalked s) with ⟨_, _, h⟩ | ⟨_, _, h⟩ | ⟨_, _, h⟩ | ⟨_, _, _, h⟩ |
    ⟨_, _, _, _, h⟩ | ⟨_, _, _, _, _, _, h⟩ | ⟨_, _, _, _, _, _, h⟩ <;> rw [h] at he <;> cases he
  · exact ⟨rfl, hn⟩
  · exact ⟨rfl, hn⟩

/-- A translation that goes on: a hit, an identity refill, or a refill from a walked leaf whose R/D bits are updated. -/
theorem translateVa_eq_go (va : Word) (k : Kind) (s t : State) (pa : Word) (h : translateVa va k s = .go pa t) :
    (∃ base, tlbBase s k va = some base ∧ pa = base ||| s.blk.cfg.pageOffset va ∧ t = s) ∨
    (tlbBase s k va = none ∧ s.blk.vm = false ∧ va.toNat < s.memsz ∧ pa = va ∧
      t = refill k va (s.blk.cfg.pageOf va) (markWalked s)) ∨
    (∃ addr pte, tlbBase s k va = none ∧ s.blk.vm = true ∧ s.blk.cfg.beyondVa va = false ∧
      walk s k va (s.blk.cfg.levels - 1) s.blk.root = .leaf addr pte ∧ permBit k s.blk.sup pte = true ∧
      pa = ppnBase s.blk.cfg pte ||| s.blk.cfg.pageOffset va ∧
      t = refill k va (ppnBase s.blk.cfg pte) (updateRD k addr pte (markWalked s))) := by
  rcases translateVa_cases va k s with ⟨base, hh, h'⟩ | ⟨base, u, hn, he, h'⟩ | ⟨_, _, _, _, _, h'⟩ | ⟨_, _, _, h'⟩ <;>
    rw [h'] at h <;> cases h
  · exact .inl ⟨base, hh, rfl, rfl⟩
  · rcases engine_cases va k (markWalked s) with ⟨_, _, h⟩ | ⟨h1, h2, h⟩ | ⟨_, _, h⟩ | ⟨_, _, _, h⟩ |
      ⟨_, _, _, _, h⟩ | ⟨addr, pte, h1, h2, h3, h4, h⟩ | ⟨_, _, _, _, _, _, h⟩ <;> rw [h] at he <;> cases he
    · exact .inr <| .inl ⟨hn, h1, h2, by simp, rfl⟩
    · refine .inr <| .inr ⟨addr, pte, hn, h1, h2, ?_, h4, rfl, rfl⟩
      rwa [walk_congr s (markWalked s) k va _ _ rfl rfl rfl] at h3

/-- A translation that goes on leaves everything but the buffer, the TLB and `walked`. -/
theorem translateVa_keepsRest (va : Word) (k : Kind) (s t : State) (pa : Word) (h : translateVa va k s = .go pa t) :
    KeepsRest s t := by
  rcases translateVa_eq_go va k s t pa h with ⟨_, _, _, rfl⟩ | ⟨_, _, _, _, rfl⟩ | ⟨_, _, _, _, _, _, _, _, rfl⟩
  · exact KeepsRest.refl _
  · constructor <;> rfl
  · constructor <;> simp

/-- A translation that goes on leaves the arrays of the other kinds (R68, R81). -/
theorem translateVa_rows_ne (va : Word) (k k' : Kind) (s t : State) (pa : Word) (h : translateVa va k s = .go pa t)
    (hk : k' ≠ k) : t.blk.tlb.rows k' = s.blk.tlb.rows k' := by
  rcases translateVa_eq_go va k s t pa h with ⟨_, _, _, rfl⟩ | ⟨_, _, _, _, rfl⟩ | ⟨_, _, _, _, _, _, _, _, rfl⟩
  · rfl
  · simp [Tlb.rows_setRows, hk]
  · simp [Tlb.rows_setRows, hk]

/-- A translation keeps the canonical form of the buffer. -/
theorem translateVa_wf (va : Word) (k : Kind) (s t : State) (pa : Word) (h : translateVa va k s = .go pa t)
    (hm : s.mem.wf) : t.mem.wf := by
  rcases translateVa_eq_go va k s t pa h with ⟨_, _, _, rfl⟩ | ⟨_, _, _, _, rfl⟩ | ⟨_, _, _, _, _, _, _, _, rfl⟩
  · exact hm
  · exact hm
  · exact updateRD_wf _ _ _ _ hm

/-- A translation keeps the buffer within its bounds. -/
theorem translateVa_bound (va : Word) (k : Kind) (s t : State) (pa : Word) (h : translateVa va k s = .go pa t)
    (hm : ∀ c ∈ s.mem, c.1 < s.memsz) : ∀ c ∈ t.mem, c.1 < t.memsz := by
  rcases translateVa_eq_go va k s t pa h with ⟨_, _, _, rfl⟩ | ⟨_, _, _, _, rfl⟩ | ⟨_, _, _, _, _, hw, _, _, rfl⟩
  · exact hm
  · exact hm
  · simp only [refill_memsz, updateRD_memsz, markWalked_memsz, refill_mem]
    exact updateRD_bound _ _ _ (markWalked s) hm
      ((readPte_congr s (markWalked s) _ rfl rfl rfl).trans (walk_eq_leaf _ _ _ _ _ _ _ hw).1)

end Sys2Proof.Machine
end

