-- ==== Sys2Proof/Laws/Meanings.lean ====
section
/-! SUPPORT. Every instruction's meaning in one shape, and everything a load, a store and a fetch can do. -/

namespace Sys2Proof.Machine

open Sys2Proof

/-- A little-endian read is the sum of R50. -/
theorem readLE_eq_bytesLE (m : Memory) (a n : Nat) : m.readLE a n = bytesLE m a n := by
  induction n generalizing a with
  | zero => rfl
  | succ n ih =>
    rw [Memory.readLE, ih, bytesLE, bytesLE, List.range_succ_eq_map, List.map_cons, List.sum_cons, List.map_map,
      ← List.sum_map_mul_left]
    congr 2
    · simp
    · apply List.map_congr_left
      intro j _
      simp only [Function.comp_apply, show a + 1 + j = a + (j + 1) by omega, show 8 * (j + 1) = 8 + 8 * j by omega,
        Nat.pow_add]
      ring

/-- What each request does to the state of an instance that is not halted, for a request within the contract. -/
def effect (i : Instr) (s : State) : State :=
  match i with
  | .loadU8 a => loadOp .w1 false a s
  | .loadU16 a => loadOp .w2 false a s
  | .loadU32 a => loadOp .w4 false a s
  | .loadU64 a => loadOp .w8 false a s
  | .loadS8 a => loadOp .w1 true a s
  | .loadS16 a => loadOp .w2 true a s
  | .loadS32 a => loadOp .w4 true a s
  | .loadS64 a => loadOp .w8 true a s
  | .storeU8 a d => storeOp .w1 a d s
  | .storeU16 a d => storeOp .w2 a d s
  | .storeU32 a d => storeOp .w4 a d s
  | .storeU64 a d => storeOp .w8 a d s
  | .fetch v a => (if splitPath v a then splitFetch a else standardFetch a) s
  | .getFaultAddr => answer (readLastFault s) s
  | .getRoot => answer s.blk.root s
  | .setRoot a => answer 0 (invalidateTlb (setRoot a s))
  | .setPriv a => answer 0 (setSup (flagOperand a) s)
  | .setVm a => answer 0 (setVm (flagOperand a) s)
  | .flushTlb => answer 0 (invalidateTlb s)
  | .flushIcache => answer 0 (invalidateIcache s)

/-- The fetch alignment of the machine is the contract of R56. -/
theorem fetchAligned_eq_wellFormed (v : Bool) (a : Word) : fetchAligned v a = (Instr.fetch v a).wellFormed := rfl

/-- When a fetch takes the split path (40_fetch.md R133). -/
theorem splitPath_eq_true (v : Bool) (a : Word) : splitPath v a = true ↔ v = true ∧ a.toNat % 4 = 2 := by
  unfold splitPath
  rw [Bool.and_eq_true, decide_eq_true_iff]
  rfl

/-- When a fetch is within the contract (20_memory.md R56). -/
theorem fetch_wellFormed (v : Bool) (a : Word) :
    (Instr.fetch v a).wellFormed = true ↔ a.toNat % 2 = 0 ∧ (v = true ∨ a.toNat % 4 = 0) := by
  simp [Instr.wellFormed]

/-- A fetch within the contract that is not split is at a four-aligned address (40_fetch.md R130). -/
theorem standardPath_aligned (v : Bool) (a : Word) (hw : (Instr.fetch v a).wellFormed = true)
    (hs : ¬ splitPath v a = true) : a.toNat % 4 = 0 := by
  rw [splitPath_eq_true] at hs
  obtain ⟨h2, h | h⟩ := (fetch_wellFormed v a).mp hw
  · have : a.toNat % 4 ≠ 2 := fun h' => hs ⟨h, h'⟩
    omega
  · exact h

/-- Alignment of a load or store (R54). -/
theorem aligned_eq_true (w : Width) (a : Word) : aligned w a = true ↔ a.toNat % w.bytes = 0 := by
  simp [aligned]

/-- Within the contract, a request is its effect behind the HALTED test. -/
theorem exec_eq_serve (i : Instr) (s : State) (h : i.wellFormed = true) : exec i s = serve s (effect i) := by
  cases i with
  | fetch v a =>
    have h' : fetchAligned v a = true := h
    simp only [exec, execFetch, h', Bool.or_true, if_true]
    rfl
  | _ => rfl

/-- Exactly when a request gives a next state, and which. -/
theorem exec_eq_next (i : Instr) (s t : State) :
    exec i s = .next t ↔ s.blk.halted = false ∧ i.wellFormed = true ∧ t = effect i (start s) := by
  by_cases h : i.wellFormed = true
  · rw [exec_eq_serve i s h, serve_eq_next]
    simp [h]
  · cases i with
    | fetch v a =>
      have h' : fetchAligned v a = false := by
        rw [fetchAligned_eq_wellFormed]; simpa using h
      simp only [h, exec, execFetch, h', Bool.or_false, false_and, and_false, iff_false, Bool.false_eq_true]
      cases hh : s.blk.halted
      · simp
      · simp [serve, hh]
    | _ => exact absurd rfl h

/-- A load is `LoadOp` with its width, signedness and address. -/
theorem effect_of_loadForm (i : Instr) (w : Width) (sg : Bool) (a : Word) (h : loadForm i = some (w, sg, a)) :
    i.wellFormed = true ∧ effect i = loadOp w sg a := by
  cases i <;> simp only [loadForm, Option.some.injEq, Prod.mk.injEq, reduceCtorEq] at h <;>
    obtain ⟨rfl, rfl, rfl⟩ := h <;> exact ⟨rfl, rfl⟩

/-- A store is `StoreOp` with its width, address and data. -/
theorem effect_of_storeForm (i : Instr) (w : Width) (a d : Word) (h : storeForm i = some (w, a, d)) :
    i.wellFormed = true ∧ effect i = storeOp w a d := by
  cases i <;> simp only [storeForm, Option.some.injEq, Prod.mk.injEq, reduceCtorEq] at h <;>
    obtain ⟨rfl, rfl, rfl⟩ := h <;> exact ⟨rfl, rfl⟩

/-- Everything a load can do (41_load_store.md R162). -/
theorem loadOp_cases (w : Width) (sg : Bool) (a : Word) (s : State) :
    (aligned w a = false ∧ loadOp w sg a s = takeFault .misalignedLoad a s) ∨
    (∃ pa t, aligned w a = true ∧ translateVa a .load s = .go pa t ∧ pa.toNat + w.bytes ≤ t.memsz ∧
      loadOp w sg a s = answer (extend w sg (t.mem.readLE pa.toNat w.bytes)) t) ∨
    (∃ pa t, aligned w a = true ∧ translateVa a .load s = .go pa t ∧ t.memsz < pa.toNat + w.bytes ∧
      loadOp w sg a s = takeFatal t) ∨
    (∃ f, aligned w a = true ∧ translateVa a .load s = .raise f a (markWalked s) ∧
      loadOp w sg a s = takeFault f a (markWalked s)) ∨
    (aligned w a = true ∧ translateVa a .load s = .fatal (markWalked s) ∧
      loadOp w sg a s = takeFatal (markWalked s)) := by
  unfold loadOp
  cases ha : aligned w a with
  | false => simp
  | true =>
    cases ht : translateVa a .load s with
    | go pa t =>
      by_cases hb : pa.toNat + w.bytes ≤ t.memsz
      · refine .inr <| .inl ⟨pa, t, rfl, rfl, hb, ?_⟩
        simp [Phase.finish, inBounds, hb]
      · refine .inr <| .inr <| .inl ⟨pa, t, rfl, rfl, by omega, ?_⟩
        simp [Phase.finish, inBounds, hb]
    | raise f va t =>
      obtain ⟨rfl, rfl, -, -⟩ := translateVa_eq_raise _ _ _ _ _ _ ht
      exact .inr <| .inr <| .inr <| .inl ⟨f, rfl, rfl, rfl⟩
    | fatal t =>
      obtain ⟨rfl, -⟩ := translateVa_eq_fatal _ _ _ _ ht
      exact .inr <| .inr <| .inr <| .inr ⟨rfl, rfl, rfl⟩

/-- Everything a store can do (R163). -/
theorem storeOp_cases (w : Width) (a d : Word) (s : State) :
    (aligned w a = false ∧ storeOp w a d s = takeFault .misalignedStore a s) ∨
    (∃ pa t, aligned w a = true ∧ translateVa a .store s = .go pa t ∧ pa.toNat + w.bytes ≤ t.memsz ∧
      storeOp w a d s = answer 0 (setMem (t.mem.writeLE pa.toNat w.bytes d.toNat) t)) ∨
    (∃ pa t, aligned w a = true ∧ translateVa a .store s = .go pa t ∧ t.memsz < pa.toNat + w.bytes ∧
      storeOp w a d s = takeFatal t) ∨
    (∃ f, aligned w a = true ∧ translateVa a .store s = .raise f a (markWalked s) ∧
      storeOp w a d s = takeFault f a (markWalked s)) ∨
    (aligned w a = true ∧ translateVa a .store s = .fatal (markWalked s) ∧
      storeOp w a d s = takeFatal (markWalked s)) := by
  unfold storeOp
  cases ha : aligned w a with
  | false => simp
  | true =>
    cases ht : translateVa a .store s with
    | go pa t =>
      by_cases hb : pa.toNat + w.bytes ≤ t.memsz
      · refine .inr <| .inl ⟨pa, t, rfl, rfl, hb, ?_⟩
        simp [Phase.finish, inBounds, hb]
      · refine .inr <| .inr <| .inl ⟨pa, t, rfl, rfl, by omega, ?_⟩
        simp [Phase.finish, inBounds, hb]
    | raise f va t =>
      obtain ⟨rfl, rfl, -, -⟩ := translateVa_eq_raise _ _ _ _ _ _ ht
      exact .inr <| .inr <| .inr <| .inl ⟨f, rfl, rfl, rfl⟩
    | fatal t =>
      obtain ⟨rfl, -⟩ := translateVa_eq_fatal _ _ _ _ ht
      exact .inr <| .inr <| .inr <| .inr ⟨rfl, rfl, rfl⟩

/-- Everything the standard fetch path can do (40_fetch.md R130). -/
theorem standardFetch_cases (a : Word) (s : State) :
    (∃ row, icacheHit s a = some row ∧ standardFetch a s = answerFetch (row.bits.setWidth 64) row.handle s) ∨
    (∃ pa t, icacheHit s a = none ∧ translateVa a .fetch s = .go pa t ∧ pa.toNat + 4 ≤ t.memsz ∧
      standardFetch a s = answerFetch ((readInsn t pa).setWidth 64) (t.blk.cfg.handleOf (readInsn t pa).toNat)
        (fillIcache a (readInsn t pa) (t.blk.cfg.handleOf (readInsn t pa).toNat) (markDecoded t))) ∨
    (∃ pa t, icacheHit s a = none ∧ translateVa a .fetch s = .go pa t ∧ t.memsz < pa.toNat + 4 ∧
      standardFetch a s = takeFatal t) ∨
    (∃ f, icacheHit s a = none ∧ translateVa a .fetch s = .raise f a (markWalked s) ∧
      standardFetch a s = takeFault f a (markWalked s)) ∨
    (icacheHit s a = none ∧ translateVa a .fetch s = .fatal (markWalked s) ∧
      standardFetch a s = takeFatal (markWalked s)) := by
  unfold standardFetch
  cases hi : icacheHit s a with
  | some row => exact .inl ⟨row, rfl, rfl⟩
  | none =>
    cases ht : translateVa a .fetch s with
    | go pa t =>
      by_cases hb : pa.toNat + 4 ≤ t.memsz
      · refine .inr <| .inl ⟨pa, t, rfl, rfl, hb, ?_⟩
        simp [Phase.finish, inBounds, Config.insnBytes, hb]
      · refine .inr <| .inr <| .inl ⟨pa, t, rfl, rfl, by omega, ?_⟩
        simp [Phase.finish, inBounds, Config.insnBytes, hb]
    | raise f va t =>
      obtain ⟨rfl, rfl, -, -⟩ := translateVa_eq_raise _ _ _ _ _ _ ht
      exact .inr <| .inr <| .inr <| .inl ⟨f, rfl, rfl, rfl⟩
    | fatal t =>
      obtain ⟨rfl, -⟩ := translateVa_eq_fatal _ _ _ _ ht
      exact .inr <| .inr <| .inr <| .inr ⟨rfl, rfl, rfl⟩

/-- Everything the second unit of a split fetch can do (R133). -/
theorem splitHigh_cases (a : Word) (lo : BitVec 16) (h : Handle) (s : State) :
    (∃ pa t, translateVa (a + 2) .fetch s = .go pa t ∧ pa.toNat + 2 ≤ t.memsz ∧
      splitHigh a lo h s = answerFetch ((readHalf t pa ++ lo).setWidth 64) h t) ∨
    (∃ pa t, translateVa (a + 2) .fetch s = .go pa t ∧ t.memsz < pa.toNat + 2 ∧ splitHigh a lo h s = takeFatal t) ∨
    (∃ f, translateVa (a + 2) .fetch s = .raise f (a + 2) (markWalked s) ∧
      splitHigh a lo h s = takeFault f (a + 2) (markWalked s)) ∨
    (translateVa (a + 2) .fetch s = .fatal (markWalked s) ∧ splitHigh a lo h s = takeFatal (markWalked s)) := by
  unfold splitHigh
  cases ht : translateVa (a + 2) .fetch s with
  | go pa t =>
    by_cases hb : pa.toNat + 2 ≤ t.memsz
    · refine .inl ⟨pa, t, rfl, hb, ?_⟩
      simp [Phase.finish, inBounds, Config.halfBytes, hb]
    · refine .inr <| .inl ⟨pa, t, rfl, by omega, ?_⟩
      simp [Phase.finish, inBounds, Config.halfBytes, hb]
  | raise f va t =>
    obtain ⟨rfl, rfl, -, -⟩ := translateVa_eq_raise _ _ _ _ _ _ ht
    exact .inr <| .inr <| .inl ⟨f, rfl, rfl⟩
  | fatal t =>
    obtain ⟨rfl, -⟩ := translateVa_eq_fatal _ _ _ _ ht
    exact .inr <| .inr <| .inr ⟨rfl, rfl⟩

/-- Everything the split path can do (R133). -/
theorem splitFetch_cases (a : Word) (s : State) :
    (∃ pa t, translateVa a .fetch s = .go pa t ∧ pa.toNat + 2 ≤ t.memsz ∧
      t.blk.cfg.isShort.test (readHalf t pa) = true ∧
      splitFetch a s = answerFetch ((readHalf t pa).setWidth 64) (t.blk.cfg.handleOf (readHalf t pa).toNat)
        (markDecoded t)) ∨
    (∃ pa t, translateVa a .fetch s = .go pa t ∧ pa.toNat + 2 ≤ t.memsz ∧
      t.blk.cfg.isShort.test (readHalf t pa) = false ∧
      splitFetch a s = splitHigh a (readHalf t pa) (t.blk.cfg.handleOf (readHalf t pa).toNat) (markDecoded t)) ∨
    (∃ pa t, translateVa a .fetch s = .go pa t ∧ t.memsz < pa.toNat + 2 ∧ splitFetch a s = takeFatal t) ∨
    (∃ f, translateVa a .fetch s = .raise f a (markWalked s) ∧ splitFetch a s = takeFault f a (markWalked s)) ∨
    (translateVa a .fetch s = .fatal (markWalked s) ∧ splitFetch a s = takeFatal (markWalked s)) := by
  unfold splitFetch
  cases ht : translateVa a .fetch s with
  | go pa t =>
    by_cases hb : pa.toNat + 2 ≤ t.memsz
    · cases hs : t.blk.cfg.isShort.test (readHalf t pa) with
      | true =>
        refine .inl ⟨pa, t, rfl, hb, hs, ?_⟩
        simp [Phase.finish, inBounds, Config.halfBytes, hb, hs]
      | false =>
        refine .inr <| .inl ⟨pa, t, rfl, hb, hs, ?_⟩
        simp [Phase.finish, inBounds, Config.halfBytes, hb, hs]
    · refine .inr <| .inr <| .inl ⟨pa, t, rfl, by omega, ?_⟩
      simp [Phase.finish, inBounds, Config.halfBytes, hb]
  | raise f va t =>
    obtain ⟨rfl, rfl, -, -⟩ := translateVa_eq_raise _ _ _ _ _ _ ht
    exact .inr <| .inr <| .inr <| .inl ⟨f, rfl, rfl⟩
  | fatal t =>
    obtain ⟨rfl, -⟩ := translateVa_eq_fatal _ _ _ _ ht
    exact .inr <| .inr <| .inr <| .inr ⟨rfl, rfl⟩

end Sys2Proof.Machine
end

