-- ==== Sys2Proof/Tests/Slice0.lean ====
section
/-! SUPPORT. Tests and witnesses. Expected results are the worked vectors of spec/95_test_vectors.md (their numbers stand
in the comments) and the rules' own examples. A `witness_` theorem shows, for an obligation with hypotheses, a concrete
state and operands that meet them. -/

namespace Sys2Proof.Tests

open Sys2Proof Sys2Proof.Machine

/-! ### Helpers -/

/-- A buffer with little-endian values written in: (address, bytes, value). -/
def ram (ws : List (Nat × Nat × Nat)) : Memory := ws.foldl (fun m w => m.writeLE w.1 w.2.1 w.2.2) []

/-- The reference reset with a buffer and modes. -/
def started (c : Config) (mem : Memory) (root : Word) (sup vm : Bool) : State :=
  let b : Block := { Block.construct c with root := root, sup := sup, vm := vm }
  { State.launch Config.referenceMemsz mem c [] with blk := b }

def isNext (o : Host.Outcome State Fault Refusal) : Bool :=
  match o with
  | .next _ => true
  | .fault _ => false
  | .refused _ => false

/-- The next state of an outcome, if it has one. -/
def stateOf (o : Host.Outcome State Fault Refusal) : State :=
  match o with
  | .next t => t
  | .fault _ => State.reset
  | .refused _ => State.reset

theorem eq_next (o : Host.Outcome State Fault Refusal) (h : isNext o = true) : o = .next (stateOf o) := by
  cases o with
  | next t => rfl
  | fault f => cases h
  | refused r => cases h

/-- The state after a request. -/
def after (i : Instr) (s : State) : State := stateOf (exec i s)

theorem exec_after (i : Instr) (s : State) (h : isNext (exec i s) = true) : exec i s = .next (after i s) :=
  eq_next _ h

/-- Status, R, walked and decoded of an OK request. -/
def answer4 (i : Instr) (s : State) : Status × Word × Bool × Bool :=
  ((after i s).blk.resp.status, (after i s).blk.resp.r, (after i s).blk.resp.walked, (after i s).blk.resp.decoded)

/-- Status, LAST_FAULT, HALTED, walked and decoded of a request that is not OK. -/
def ending (i : Instr) (s : State) : Status × Word × Bool × Bool × Bool :=
  ((after i s).blk.resp.status, (after i s).blk.lastFault, (after i s).blk.halted, (after i s).blk.resp.walked,
    (after i s).blk.resp.decoded)

/-- The 8 bytes of the buffer at an address. -/
def dword (s : State) (a : Nat) : Nat := s.mem.readLE a 8

/-- Section 2.1: VM = 0, bytes 0x100 to 0x107 are 80 FF 34 92 78 56 34 F2. -/
def loadState : State := started .reference (ram [(0x100, 8, 0xF23456789234FF80)]) 0 true false

/-- Section 2.3, T0: the page tables of E2, ROOT = 0x1000, SUP = 0, VM = 1; with further doublewords. -/
def t0With (ws : List (Nat × Nat × Nat)) : State :=
  let tables : List (Nat × Nat × Nat) := [(0x1000, 8, 0x2003), (0x2000, 8, 0x3003), (0x3000, 8, 0x4003),
    (0x4010, 8, 0x5062), (0x5008, 8, 0x0123456789ABCDEF)]
  started .reference (ram (tables ++ ws)) 0x1000 false true

def t0 : State := t0With []

/-- E2, the LEVELS = 1 form. -/
def single : State :=
  started { Config.reference with levels := 1 } (ram [(0x1010, 8, 0x5062)]) 0x1000 false true

/-- Section 2.5: bytes 13 05 00 00 01 45 93 05 10 00 82 80 at 0x1000. -/
def codeState : State :=
  started .reference (ram [(0x1000, 4, 0x00000513), (0x1004, 4, 0x05934501), (0x1008, 4, 0x80820010)]) 0 true false

/-- Program P4: the tables of P4 and its two units at the end of page 5, ready for the fetches. -/
def crossState : State :=
  started .reference (ram [(0x1000, 8, 0x2003), (0x2000, 8, 0x3003), (0x3000, 8, 0x4003), (0x4010, 8, 0x5052),
    (0x5FFE, 2, 0x0513), (0x5FFA, 2, 0x4501)]) 0x1000 false true

/-- Two instances, the second with a request pending. -/
def pairState : State :=
  { State.launch 0x100 [] .reference [.reference] with port := [{ block := 1, word := encode (.setVm 1) }] }

/-- A state with valid rows in both caches. -/
def legalBlock : Block :=
  let c : Config := { Config.reference with tlbEntries := 1, icacheEntries := 1 }
  let tlb : Tlb := { fetch := [{ tag := some 0x1000, base := 0x5000 }], load := [.invalid], store := [.invalid] }
  { Block.construct c with tlb := tlb, icache := [{ tag := some 0x1000, bits := 0x513, handle := c.handleOf 0x513 }] }

def legalState : State :=
  let port : List PortEntry := [{ block := 1, word := encode (.loadU8 0x5000) }]
  { State.launch 0x10000 [(0x5000, 7)] .reference [] with blk := legalBlock, others := [legalBlock], port := port }

/-! ### WellFormed, decoding, encoding -/

/-- 20_memory.md R56: the two ways a fetch breaks the contract, and the forms that keep it. -/
theorem test_wellFormed_fetch :
    (Instr.fetch true 0x1001).wellFormed = false ∧ (Instr.fetch false 0x1002).wellFormed = false ∧
    (Instr.fetch false 0x1003).wellFormed = false ∧ (Instr.fetch true 0x1002).wellFormed = true ∧
    (Instr.fetch false 0x1004).wellFormed = true := by decide

/-- R54: a misaligned load or store is a fault of the machine, not an ill-formed request. -/
theorem test_wellFormed_others :
    (Instr.loadU64 0x1001).wellFormed = true ∧ (Instr.storeU16 0x1001 0).wellFormed = true ∧
    (Instr.setPriv 3).wellFormed = true := by decide

/-- Section 2.1 and 2.2 encodings (`cmd:A:D`), D in the high bits of the record. -/
theorem test_decode_loads :
    decode 0x0000000000000000000000000000010000#136 = .ok (.loadU8 0x100) ∧
    decode 0x0000000000000000000000000000010001#136 = .ok (.loadU16 0x100) ∧
    decode 0x0000000000000000000000000000010002#136 = .ok (.loadU32 0x100) ∧
    decode 0x0000000000000000000000000000010003#136 = .ok (.loadU64 0x100) ∧
    decode 0x0000000000000000000000000000010208#136 = .ok (.loadS8 0x102) ∧
    decode 0x0000000000000000000000000000010209#136 = .ok (.loadS16 0x102) ∧
    decode 0x000000000000000000000000000001040A#136 = .ok (.loadS32 0x104) ∧
    decode 0x000000000000000000000000000001000B#136 = .ok (.loadS64 0x100) := ⟨rfl, rfl, rfl, rfl, rfl, rfl, rfl, rfl⟩

theorem test_decode_stores :
    decode 0x1122334455667788000000000000020010#136 = .ok (.storeU8 0x200 0x1122334455667788) ∧
    decode 0x1122334455667788000000000000020011#136 = .ok (.storeU16 0x200 0x1122334455667788) ∧
    decode 0x1122334455667788000000000000020012#136 = .ok (.storeU32 0x200 0x1122334455667788) ∧
    decode 0x1122334455667788000000000000020013#136 = .ok (.storeU64 0x200 0x1122334455667788) := ⟨rfl, rfl, rfl, rfl⟩

/-- Sections 2.5 to 2.7. -/
theorem test_decode_others :
    decode 0x0000000000000000000000000000100020#136 = .ok (.fetch false 0x1000) ∧
    decode 0x0000000000000000000000000000100A21#136 = .ok (.fetch true 0x100A) ∧
    decode 0x0000000000000000000000000000000030#136 = .ok .getFaultAddr ∧
    decode 0x0000000000000000000000000000000031#136 = .ok .getRoot ∧
    decode 0x00000000000000000000000000003ABC32#136 = .ok (.setRoot 0x3ABC) ∧
    decode 0x0000000000000000000000000000000333#136 = .ok (.setPriv 3) ∧
    decode 0x0000000000000000000000000000000234#136 = .ok (.setVm 2) ∧
    decode 0x0000000000000000000000000000000040#136 = .ok .flushTlb ∧
    decode 0x0000000000000000000000000000000041#136 = .ok .flushIcache := ⟨rfl, rfl, rfl, rfl, rfl, rfl, rfl, rfl, rfl⟩

/-- K4: reserved commands are rejected by name. -/
theorem test_decode_reserved :
    ∀ c ∈ ([0x04, 0x07, 0x0C, 0x14, 0x22, 0x35, 0x42, 0x50, 0xFF] : List (BitVec 8)),
      decodeRequest ⟨c, 0, 0⟩ = .error (.reservedCommand c) := by
  intro c hc
  simp only [List.mem_cons, List.not_mem_nil, or_false] at hc
  rcases hc with rfl | rfl | rfl | rfl | rfl | rfl | rfl | rfl | rfl <;> rfl

/-- Any two rows of the opcode table differ in a bit both select. -/
theorem test_rows_disjoint :
    opcodeTable.Pairwise fun r q => (r.pattern ^^^ q.pattern) &&& (r.mask &&& q.mask) ≠ 0 := by decide

/-- The host's two questions, for every row: the decoder gives the row's request, and the first step after reset
runs it. -/
theorem test_rows_run :
    (opcodeTable.all fun r =>
      (decodeTableWord 8 r.pattern.toNat).map Instr.mnemonic == some r.mnemonic &&
      isNext (step (State.reset.withFetchWord 8 r.pattern.toNat))) = true := by decide

/-- 30_encoding.md R113. -/
theorem test_status_codes :
    Status.code .ok = 0 ∧ Status.code (.fault .malformed) = 9 ∧ Status.code (.fault .fetchPerm) = 6 ∧
    Status.code .fatal = 15 := by decide

/-! ### Loads (section 2.1) -/

/-- L1 to L4. -/
theorem test_load_unsigned :
    answer4 (.loadU8 0x100) loadState = (.ok, 0x80, true, false) ∧
    answer4 (.loadU16 0x100) loadState = (.ok, 0xFF80, true, false) ∧
    answer4 (.loadU32 0x100) loadState = (.ok, 0x9234FF80, true, false) ∧
    answer4 (.loadU64 0x100) loadState = (.ok, 0xF23456789234FF80, true, false) := by decide

/-- L5 to L11. -/
theorem test_load_signed :
    answer4 (.loadS8 0x100) loadState = (.ok, 0xFFFFFFFFFFFFFF80, true, false) ∧
    answer4 (.loadS8 0x102) loadState = (.ok, 0x34, true, false) ∧
    answer4 (.loadS16 0x102) loadState = (.ok, 0xFFFFFFFFFFFF9234, true, false) ∧
    answer4 (.loadS32 0x104) loadState = (.ok, 0xFFFFFFFFF2345678, true, false) ∧
    answer4 (.loadS64 0x100) loadState = (.ok, 0xF23456789234FF80, true, false) := by decide

/-- L15, L17, L20, E3.3 (alignment comes before bounds). -/
theorem test_load_misaligned :
    ending (.loadU16 0x101) loadState = (.fault .misalignedLoad, 0x101, false, false, false) ∧
    ending (.loadU64 0x104) loadState = (.fault .misalignedLoad, 0x104, false, false, false) ∧
    ending (.loadS64 0x104) loadState = (.fault .misalignedLoad, 0x104, false, false, false) ∧
    ending (.loadU16 0x10001) loadState = (.fault .misalignedLoad, 0x10001, false, false, false) := by decide

/-- L21, L22, L23: the last byte and doubleword in bounds, and the first byte out of bounds. -/
theorem test_load_bounds :
    answer4 (.loadU8 0xFFFF) State.reset = (.ok, 0, true, false) ∧
    answer4 (.loadU64 0xFFF8) State.reset = (.ok, 0, true, false) ∧
    ending (.loadU8 0x10000) State.reset = (.fatal, 0, true, true, false) := by decide

/-! ### Stores (section 2.2) -/

/-- S1 to S4. -/
theorem test_store :
    dword (after (.storeU8 0x200 0x1122334455667788) State.reset) 0x200 = 0x88 ∧
    dword (after (.storeU16 0x200 0x1122334455667788) State.reset) 0x200 = 0x7788 ∧
    dword (after (.storeU32 0x200 0x1122334455667788) State.reset) 0x200 = 0x55667788 ∧
    dword (after (.storeU64 0x200 0x1122334455667788) State.reset) 0x200 = 0x1122334455667788 := by decide

/-- E3.2: the buffer is unchanged by a misaligned store; S8: a store out of bounds. -/
theorem test_store_misaligned :
    ending (.storeU64 0x104 0xFFFFFFFFFFFFFFFF) loadState = (.fault .misalignedStore, 0x104, false, false, false) ∧
    (after (.storeU64 0x104 0xFFFFFFFFFFFFFFFF) loadState).mem = loadState.mem ∧
    ending (.storeU8 0x10000 1) State.reset = (.fatal, 0, true, true, false) := by decide

/-! ### The walk (section 2.3) -/

/-- W1: the load's result and the leaf's R bit. -/
theorem test_walk :
    answer4 (.loadU64 0x2008) t0 = (.ok, 0x0123456789ABCDEF, true, false) ∧
    dword (after (.loadU64 0x2008) t0) 0x4010 = 0x5066 ∧
    tlbBase (after (.loadU64 0x2008) t0) .load 0x2008 = some 0x5000 := by decide

/-- W2, W3, W4, W4b, W4c: invalid entries and high address bits. -/
theorem test_walk_access_faults :
    ending (.loadU64 0x3000) t0 = (.fault .loadAccess, 0x3000, false, true, false) ∧
    ending (.loadU64 0x8000000000) t0 = (.fault .loadAccess, 0x8000000000, false, true, false) ∧
    ending (.loadU64 0x1000000000000) t0 = (.fault .loadAccess, 0x1000000000000, false, true, false) ∧
    ending (.storeU8 0xFFFF800000000000 1) t0 = (.fault .storeAccess, 0xFFFF800000000000, false, true, false) ∧
    ending (.fetch false 0x1000000002000) t0 = (.fault .fetchAccess, 0x1000000002000, false, true, false) := by decide

/-- W5, W6: both malformed mappings. -/
theorem test_walk_malformed :
    ending (.loadU64 0x200000) (t0With [(0x3008, 8, 0x6062)]) = (.fault .malformed, 0x200000, false, true, false) ∧
    ending (.storeU32 0x3000 5) (t0With [(0x4018, 8, 0x6003)]) = (.fault .malformed, 0x3000, false, true, false) := by
  decide

/-- W7, W7b, E2: permission faults. -/
theorem test_walk_permission :
    ending (.loadU64 0x2008) (withModes 0x1000 true true t0) = (.fault .loadPerm, 0x2008, false, true, false) ∧
    ending (.storeU32 0x2008 1) (withModes 0x1000 true true t0) = (.fault .storePerm, 0x2008, false, true, false) ∧
    ending (.fetch false 0x2000) t0 = (.fault .fetchPerm, 0x2000, false, true, false) := by decide

/-- W8: a store needs only W, and sets R and D. -/
theorem test_walk_store :
    (after (.storeU32 0x4000 0xAB) (t0With [(0x4020, 8, 0x6022)])).blk.resp.status = .ok ∧
    dword (after (.storeU32 0x4000 0xAB) (t0With [(0x4020, 8, 0x6022)])) 0x4020 = 0x602E ∧
    dword (after (.storeU32 0x4000 0xAB) (t0With [(0x4020, 8, 0x6022)])) 0x6000 = 0xAB := by decide

/-- W9, W10: a PTE out of bounds, and an access out of bounds after a walk whose effects remain. -/
theorem test_walk_fatal :
    ending (.loadU8 0x2008) (withModes 0x10000 false true t0) = (.fatal, 0, true, true, false) ∧
    ending (.loadU8 0x5000) (t0With [(0x4028, 8, 0x20042)]) = (.fatal, 0, true, true, false) ∧
    dword (after (.loadU8 0x5000) (t0With [(0x4028, 8, 0x20042)])) 0x4028 = 0x20046 ∧
    tlbBase (after (.loadU8 0x5000) (t0With [(0x4028, 8, 0x20042)])) .load 0x5000 = some 0x20000 := by decide

/-- W12, W13: reserved bits are ignored and preserved; an invalid entry's bits are ignored. -/
theorem test_walk_ignored_bits :
    answer4 (.loadU8 0x6010) (t0With [(0x4030, 8, 0x7E42), (0x7010, 1, 0x55)]) = (.ok, 0x55, true, false) ∧
    dword (after (.loadU8 0x6010) (t0With [(0x4030, 8, 0x7E42), (0x7010, 1, 0x55)])) 0x4030 = 0x7E46 ∧
    ending (.loadU8 0x7000) (t0With [(0x4038, 8, 0xFFFFFFFFFFFFFFFD)]) =
      (.fault .loadAccess, 0x7000, false, true, false) := by decide

/-- E2, the LEVELS = 1 form. -/
theorem test_single_level :
    answer4 (.loadU8 0x2008) single = (.ok, 0, true, false) ∧ dword (after (.loadU8 0x2008) single) 0x1010 = 0x5066 ∧
    ending (.fetch false 0x2000) single = (.fault .fetchPerm, 0x2000, false, true, false) := by decide

/-- T1, T6: a hit does no walk, and no new permission check. -/
theorem test_tlb_hit :
    answer4 (.loadU64 0x2008) (after (.loadU64 0x2008) t0) = (.ok, 0x0123456789ABCDEF, false, false) ∧
    answer4 (.loadU64 0x2008) (withModes 0x1000 true true (after (.loadU64 0x2008) t0)) =
      (.ok, 0x0123456789ABCDEF, false, false) := by decide

/-! ### Fetch (section 2.5) -/

/-- F1, F2, F3, F4. -/
theorem test_fetch :
    answer4 (.fetch true 0x1000) codeState = (.ok, 0x00000513, true, true) ∧
    answer4 (.fetch true 0x1004) codeState = (.ok, 0x05934501, true, true) ∧
    answer4 (.fetch true 0x1006) codeState = (.ok, 0x00100593, true, true) ∧
    answer4 (.fetch true 0x100A) codeState = (.ok, 0x00008082, true, true) := by decide

/-- F1, F3, F4: the handles are DISPATCH[0x113], DISPATCH[0x193] and DISPATCH[0x082]. -/
theorem test_fetch_handle :
    (after (.fetch true 0x1000) codeState).blk.resp.h = Config.dispatch 0 0x113 ∧
    (after (.fetch true 0x1006) codeState).blk.resp.h = Config.dispatch 0 0x193 ∧
    (after (.fetch true 0x100A) codeState).blk.resp.h = Config.dispatch 0 0x082 := ⟨rfl, rfl, rfl⟩

/-- F1b, and F3's icache: the split path caches nothing. -/
theorem test_fetch_again :
    answer4 (.fetch true 0x1000) (after (.fetch true 0x1000) codeState) = (.ok, 0x00000513, false, false) ∧
    icacheHit (after (.fetch true 0x1006) codeState) 0x1004 = none := ⟨rfl, rfl⟩

/-- F5: refused fetches. -/
theorem test_fetch_refused :
    exec (.fetch true 0x1001) codeState = .refused (.misalignedFetch true 0x1001) ∧
    exec (.fetch false 0x1002) codeState = .refused (.misalignedFetch false 0x1002) ∧
    exec (.fetch false 0x1003) codeState = .refused (.misalignedFetch false 0x1003) := ⟨rfl, rfl, rfl⟩

/-- F7, F8: the last halfword, short and not short. -/
theorem test_fetch_end :
    answer4 (.fetch true 0xFFFE) State.reset = (.ok, 0, true, true) ∧
    ending (.fetch true 0xFFFE) (started .reference (ram [(0xFFFE, 2, 0x0513)]) 0 true false) =
      (.fatal, 0, true, true, true) := by decide

/-- P4 steps 11 and 12: a short unit at the end of a page, and a second unit on an unmapped page. -/
theorem test_fetch_crossing :
    answer4 (.fetch true 0x2FFA) crossState = (.ok, 0x4501, true, true) ∧
    ending (.fetch true 0x2FFE) crossState = (.fault .fetchAccess, 0x3000, false, true, true) ∧
    dword (after (.fetch true 0x2FFE) crossState) 0x4010 = 0x5056 ∧
    tlbBase (after (.fetch true 0x2FFE) crossState) .fetch 0x2FFE = some 0x5000 := by decide

/-! ### Flushes and control registers (sections 2.6 and 2.7) -/

/-- X1, X2: FLUSH_TLB makes the next load walk, and leaves the icache. -/
theorem test_flush_tlb :
    answer4 (.loadU8 0x10) (after .flushTlb (after (.loadU8 0x10) State.reset)) = (.ok, 0, true, false) ∧
    answer4 (.fetch true 0x1000) (after .flushTlb (after (.fetch true 0x1000) codeState)) = (.ok, 0x513, false, false) :=
  ⟨rfl, rfl⟩

/-- X3: FLUSH_ICACHE makes the next fetch decode, and leaves the TLB. -/
theorem test_flush_icache :
    answer4 (.fetch true 0x1000) (after .flushIcache (after (.fetch true 0x1000) codeState)) = (.ok, 0x513, false, true) :=
  rfl

/-- K1: SET_ROOT masks, GET_ROOT reads. -/
theorem test_root :
    (after (.setRoot 0x3ABC) State.reset).blk.root = 0x3000 ∧
    answer4 .getRoot (after (.setRoot 0x3ABC) State.reset) = (.ok, 0x3000, false, false) := by decide

/-- K2, K3: only A[0] is read. -/
theorem test_flags :
    (after (.setPriv 3) State.reset).blk.sup = true ∧ (after (.setPriv 2) State.reset).blk.sup = false ∧
    (after (.setVm 2) State.reset).blk.vm = false ∧ (after (.setVm 1) State.reset).blk.vm = true := by decide

/-- K5, K6, K7: the address of the last fault; nothing after FATAL; a draw before the first fault. -/
theorem test_last_fault :
    answer4 .getFaultAddr (after (.loadU32 0x1002) State.reset) = (.ok, 0x1002, false, false) ∧
    exec .getFaultAddr (after (.loadU8 0x10000) (after (.loadU32 0x1002) State.reset)) = .fault .halted ∧
    (after .getFaultAddr State.reset).blk.resp.r = Config.freeWord 0 := ⟨by decide, rfl, rfl⟩

/-- 10_state.md R37 and 95_test_vectors.md's initial state. -/
theorem test_reset :
    State.reset.blk.root = 0 ∧ State.reset.blk.sup = true ∧ State.reset.blk.vm = false ∧
    State.reset.blk.halted = false ∧ State.reset.memsz = 65536 ∧ tlbBase State.reset .load 0 = none ∧
    Config.reference.vaBits = 48 ∧ Config.reference.ptidxBits = 9 := by decide

/-! ### Witnesses: encoding and the step -/

/-- For EncodeOfDecodeKeepsReadFields: a record that decodes, read through both fields (D is 2^64 - 1). -/
theorem witness_decode :
    decode 0xFFFFFFFFFFFFFFFF000000000000100013#136 = .ok (.storeU64 0x1000 0xFFFFFFFFFFFFFFFF) ∧
    readsA (.storeU64 0x1000 0xFFFFFFFFFFFFFFFF) = true ∧
    (storeForm (.storeU64 0x1000 0xFFFFFFFFFFFFFFFF)).isSome = true := ⟨rfl, rfl, rfl⟩

/-- For UnreadFieldsAreIgnored: two records that differ in a field GET_ROOT does not read. -/
theorem witness_unread_fields :
    decodeRequest ⟨0x31, 0, 0⟩ = .ok .getRoot ∧ (⟨0x31, 5, 7⟩ : Request).cmd = (⟨0x31, 0, 0⟩ : Request).cmd ∧
    (readsA .getRoot = true → (⟨0x31, 5, 7⟩ : Request).a = (⟨0x31, 0, 0⟩ : Request).a) ∧
    ((storeForm .getRoot).isSome = true → (⟨0x31, 5, 7⟩ : Request).d = (⟨0x31, 0, 0⟩ : Request).d) :=
  ⟨rfl, rfl, by decide, by decide⟩

/-- For CommandMapIsTheOpcodeTable: the row with a free bit covers both its commands, and they decode. -/
theorem witness_command_map :
    ∃ row ∈ opcodeTable, row.mnemonic = "FETCH" ∧ row.covers 0x20 = true ∧ row.covers 0x21 = true ∧
      decode 0x21#136 = .ok (.fetch true 0) := ⟨⟨"FETCH", 0xFE, 0x20⟩, by decide, rfl, rfl, rfl, rfl⟩

/-- For StepPerformsTheDecodedRequest: the first clause at another instance than the one at hand. -/
theorem witness_step_other :
    ∃ e t, pairState.port = [e] ∧ select e.block { pairState with port := [] } = some t ∧ t.index = 1 ∧
      t.blk.cfg.Ok ∧ 1 ≤ t.memsz ∧ decode e.word = .ok (.setVm 1) :=
  ⟨_, _, rfl, rfl, rfl, by decide, by decide, rfl⟩

/-- For StepPerformsTheDecodedRequest's second clause. -/
theorem witness_step_own :
    ∃ e, (State.reset.withFetchWord 8 0x40).port = [e] ∧ e.block = (State.reset.withFetchWord 8 0x40).index ∧
      State.reset.blk.cfg.Ok ∧ 1 ≤ State.reset.memsz ∧ decode e.word = .ok .flushTlb :=
  ⟨_, rfl, rfl, by decide, by decide, rfl⟩

theorem witness_idle : State.reset.port = [] := rfl

/-- For StepPerformsTheDecodedRequest's third clause: the other instance, and the one at hand. -/
theorem witness_step_addressed :
    pairState.index ≤ pairState.others.length ∧
    (∃ e b, pairState.port = [e] ∧ Formula.Addressed pairState e.block b ∧ b.cfg.Ok ∧ 1 ≤ pairState.memsz ∧
      decode e.word = .ok (.setVm 1)) ∧
    Formula.Addressed pairState 0 pairState.blk :=
  ⟨by decide, ⟨_, Block.construct .reference, rfl, .inr ⟨by decide, rfl⟩, by decide, by decide, rfl⟩, .inl ⟨rfl, rfl⟩⟩

/-- The reference instance at hand, another one beside it, and a record for the other. -/
def besideState (other : Block) (word : BitVec 136) : State :=
  { State.launch 0x100 [] .reference [] with others := [other], port := [{ block := 1, word := word }] }

/-- The other instance is the one the record goes to. -/
theorem besideState_addressed (other : Block) (word : BitVec 136) :
    Formula.Addressed (besideState other word) 1 other := .inr ⟨Nat.one_ne_zero, rfl⟩

/-- For ReservedCommandIsRefused: command 0x04, at the instance at hand and at another. -/
theorem witness_reserved :
    (∃ e, (State.reset.withFetchWord 8 0x04).port = [e] ∧
      Formula.Addressed (State.reset.withFetchWord 8 0x04) e.block State.reset.blk ∧
      State.reset.blk.cfg.Ok ∧ 1 ≤ State.reset.memsz ∧ State.reset.blk.halted = false ∧
      ∀ row ∈ opcodeTable, row.covers (Request.ofBits e.word).cmd = false) ∧
    Formula.Addressed (besideState (Block.construct .reference) 0x04) 1 (Block.construct .reference) ∧
    (Block.construct .reference).halted = false :=
  ⟨⟨_, rfl, .inl ⟨rfl, rfl⟩, by decide, by decide, rfl, by decide⟩, besideState_addressed _ _, rfl⟩

/-- Parameters that break R8: DTS = 3 does not divide 2^16. -/
def badConfig : Config := { Config.reference with dts := 3 }

/-- For BadConfigurationIsRefused: at the instance at hand and at another. -/
theorem witness_bad_configuration :
    (∃ e, ((started badConfig [] 0 true false).withFetchWord 8 0x40).port = [e] ∧
      Formula.Addressed ((started badConfig [] 0 true false).withFetchWord 8 0x40) e.block
        (started badConfig [] 0 true false).blk) ∧
    Formula.Addressed (besideState (Block.construct badConfig) 0x40) 1 (Block.construct badConfig) ∧
    ¬ (badConfig.Ok ∧ 1 ≤ Config.referenceMemsz) ∧ ¬ ((Block.construct badConfig).cfg.Ok ∧ 1 ≤ 0x100) :=
  ⟨⟨_, rfl, .inl ⟨rfl, rfl⟩⟩, besideState_addressed _ _, by decide, by decide⟩

/-- A halted instance: after the fatal load of vector L22. -/
def haltedState : State := after (.loadU8 0x10000) State.reset

/-- For HaltedInstanceHasNoStep: at the instance at hand and at another. -/
theorem witness_halted :
    haltedState.blk.halted = true ∧ haltedState.blk.cfg.Ok ∧ 1 ≤ haltedState.memsz ∧
    (∃ e, (haltedState.withFetchWord 8 0x40).port = [e] ∧
      Formula.Addressed (haltedState.withFetchWord 8 0x40) e.block haltedState.blk) ∧
    Formula.Addressed (besideState haltedState.blk 0x40) 1 haltedState.blk :=
  ⟨by decide, by decide, by decide, ⟨_, rfl, .inl ⟨rfl, rfl⟩⟩, besideState_addressed _ _⟩

/-- For EveryRequestCompletes: at the boundaries of the fetch contract. -/
theorem witness_completes :
    State.reset.blk.halted = false ∧ (Instr.fetch true 0xFFFE).wellFormed = true ∧
    (Instr.fetch false 0xFFFC).wellFormed = true ∧ (Instr.loadU64 1).wellFormed = true := by decide

/-- For MisalignedFetchIsRefused: both disjuncts, at addresses that meet only one. -/
theorem witness_misaligned_fetch :
    State.reset.blk.halted = false ∧ (0x1001 : Word).toNat % 2 = 1 ∧ (0x1002 : Word).toNat % 2 = 0 ∧
    (0x1002 : Word).toNat % 4 ≠ 0 := by decide

/-! ### Witnesses: invariants and whole-machine rules -/

/-- A state with valid rows in both caches is legal. -/
theorem witness_legal : legalState.Inv := by
  have hb : legalBlock.Inv := by
    refine ⟨by decide, ⟨?_, ?_⟩, ⟨rfl, ?_⟩, by decide⟩
    · intro k
      cases k <;> rfl
    · intro k i row t h ht
      have hl : i < (legalBlock.tlb.rows k).length := (List.getElem?_eq_some_iff.mp h).1
      have hi : i = 0 := by
        cases k <;> simp [legalBlock, Tlb.rows] at hl <;> exact hl
      subst hi
      cases k <;> cases h <;> cases ht
      decide
    · intro i row a h ht
      have hl : i < legalBlock.icache.length := (List.getElem?_eq_some_iff.mp h).1
      have hi : i = 0 := by
        simp [legalBlock] at hl
        exact hl
      subst hi
      cases h
      cases ht
      exact ⟨by decide, by decide, rfl⟩
  refine ⟨by decide, by decide, by decide, hb, ?_⟩
  intro b h
  rw [show legalState.others = [legalBlock] from rfl, List.mem_singleton] at h
  exact h ▸ hb

/-- For StepKeepsTheStateLegal, ConfigurationIsFixed and StepLeavesOtherInstances: that state takes a step, by the
instance that is not at hand. -/
theorem witness_legal_step :
    step legalState = .next (stateOf (step legalState)) ∧ legalState.index ≤ legalState.others.length ∧
    ∃ e, legalState.port = [e] ∧ e.block = 1 := ⟨eq_next _ rfl, by decide, _, rfl, rfl⟩

/-- For LaunchIsLegal: a launch memory that is not empty. -/
theorem witness_launch_memory :
    Memory.wf [(0, 1), (65535, 255)] ∧ ∀ c ∈ ([(0, 1), (65535, 255)] : Memory), c.1 < 65536 := by decide

/-- For RequestReadsNoOtherInstance, and every statement whose only hypothesis is that a request answers a next
state: a load that walks. -/
theorem witness_next : exec (.loadU64 0x2008) t0 = .next (after (.loadU64 0x2008) t0) := exec_after _ _ (by decide)

/-- For OnlyTheirRequestsChangeRegisters: each register does change. -/
theorem witness_register_changes :
    exec (.setRoot 0x1000) State.reset = .next (after (.setRoot 0x1000) State.reset) ∧
    (after (.setRoot 0x1000) State.reset).blk.root ≠ State.reset.blk.root ∧
    (after (.setPriv 0) State.reset).blk.sup ≠ State.reset.blk.sup ∧
    (after (.setVm 1) State.reset).blk.vm ≠ State.reset.blk.vm ∧
    (after (.loadU32 0x1002) State.reset).blk.lastFault ≠ State.reset.blk.lastFault ∧
    haltedState.blk.halted ≠ State.reset.blk.halted := ⟨exec_after _ _ (by decide), by decide⟩

/-- For FatalEndIsTerminal. -/
theorem witness_fatal :
    exec (.loadU8 0x10000) State.reset = .next haltedState ∧ haltedState.blk.resp.status = .fatal :=
  ⟨exec_after _ _ (by decide), by decide⟩

/-- For FaultsArePrecise and FaultAddressIsReadBack: a load that faults in the walk, and a standard fetch. -/
theorem witness_fault :
    exec (.loadU64 0x3000) t0 = .next (after (.loadU64 0x3000) t0) ∧
    (after (.loadU64 0x3000) t0).blk.resp.status = .fault .loadAccess ∧ isSplitFetch (.loadU64 0x3000) = false ∧
    exec (.fetch false 0x2000) t0 = .next (after (.fetch false 0x2000) t0) ∧
    (after (.fetch false 0x2000) t0).blk.resp.status = .fault .fetchPerm ∧ isSplitFetch (.fetch false 0x2000) = false :=
  ⟨exec_after _ _ (by decide), by decide, rfl, exec_after _ _ (by decide), by decide, rfl⟩

/-- For FaultsArePrecise's second clause and FaultAddressIsReadBack: a fault of the first unit and one of the second. -/
theorem witness_split_faults :
    (0x3002 : Word).toNat % 4 = 2 ∧ exec (.fetch true 0x3002) crossState = .next (after (.fetch true 0x3002) crossState) ∧
    (after (.fetch true 0x3002) crossState).blk.resp.status = .fault .fetchAccess ∧
    (after (.fetch true 0x3002) crossState).blk.lastFault = 0x3002 ∧
    (0x2FFE : Word).toNat % 4 = 2 ∧ exec (.fetch true 0x2FFE) crossState = .next (after (.fetch true 0x2FFE) crossState) ∧
    (after (.fetch true 0x2FFE) crossState).blk.resp.status = .fault .fetchAccess ∧
    (after (.fetch true 0x2FFE) crossState).blk.lastFault = 0x3000 :=
  ⟨by decide, exec_after _ _ (by decide), by decide, by decide, by decide, exec_after _ _ (by decide), by decide, by decide⟩

/-- For FaultKindsOfEachRequest: a request of each clause. -/
theorem witness_fault_kinds :
    accessOf .getRoot = none ∧ exec .getRoot t0 = .next (after .getRoot t0) ∧
    (loadForm (.loadU16 0x101)).isSome = true ∧
    (after (.loadU16 0x101) t0).blk.resp.status = .fault .misalignedLoad ∧
    (storeForm (.storeU8 0xFFFF800000000000 1)).isSome = true ∧
    (after (.storeU8 0xFFFF800000000000 1) t0).blk.resp.status = .fault .storeAccess ∧
    (after (.fetch false 0x2000) t0).blk.resp.status = .fault .fetchPerm :=
  ⟨rfl, exec_after _ _ (by decide), rfl, by decide, rfl, by decide, by decide⟩

/-- For CachesChangeOnlyByTheirRequests: a refill changes its array and no other row; a fetch that misses changes the
icache. -/
theorem witness_cache_changes :
    (after (.loadU64 0x2008) t0).blk.tlb.rows .load ≠ t0.blk.tlb.rows .load ∧
    accessOf (.loadU64 0x2008) = some (.load, 0x2008) ∧ isSplitFetch (.loadU64 0x2008) = false ∧
    3 ≠ t0.blk.cfg.tlbIndex 0x2008 ∧
    exec (.fetch false 0x1000) codeState = .next (after (.fetch false 0x1000) codeState) ∧
    (icacheHit (after (.fetch false 0x1000) codeState) 0x1000).isSome ≠ (icacheHit codeState 0x1000).isSome :=
  ⟨by decide, rfl, rfl, by decide, exec_after _ _ (by decide), by decide⟩

/-- For PrivilegeHasNoEffectWithTranslationOff. -/
theorem witness_translation_off :
    codeState.blk.vm = false ∧ (∀ a, Instr.fetch true 0x1006 ≠ .setPriv a) ∧
    exec (.fetch true 0x1006) codeState = .next (after (.fetch true 0x1006) codeState) :=
  ⟨rfl, nofun, exec_after _ _ (by decide)⟩

/-- `codeState` after one fetch of 0x1000. -/
def fetchedState : State := after (.fetch false 0x1000) codeState

/-- `t0` after one load of page 2. -/
def warmState : State := after (.loadU64 0x2008) t0

/-- For HitsIgnoreTheModes: an icache hit, and a TLB hit. -/
theorem witness_hits :
    icacheServes (.fetch true 0x1000) fetchedState = true ∧
    exec (.fetch true 0x1000) fetchedState = .next (after (.fetch true 0x1000) fetchedState) ∧
    accessOf (.loadU8 0x2010) = some (.load, 0x2010) ∧ tlbBase warmState .load 0x2010 = some 0x5000 ∧
    exec (.loadU8 0x2010) warmState = .next (after (.loadU8 0x2010) warmState) :=
  ⟨rfl, exec_after _ _ rfl, rfl, by decide, exec_after _ _ (by decide)⟩

/-- For InstrumentationBits: each bit takes both values. -/
theorem witness_instrumentation :
    (after (.loadU8 0x2010) t0).blk.resp.walked = true ∧ (after (.loadU8 0x2010) warmState).blk.resp.walked = false ∧
    (0x1000 : Word).toNat % 4 = 0 ∧ (after (.fetch false 0x1000) codeState).blk.resp.decoded = true ∧
    (after (.fetch false 0x1000) fetchedState).blk.resp.decoded = false ∧
    (after (.fetch false 0x1000) fetchedState).blk.resp.walked = false :=
  ⟨by decide, by decide, by decide, by decide, rfl, rfl⟩

/-! ### Witnesses: translation -/

/-- The walk of E2, level by level, to the table at 0x4000. -/
theorem witness_reaches : Reaches (start t0) 0x2008 0 0x4000 := by
  have h3 : Reaches (start t0) 0x2008 3 0x1000 := .root
  have h2 : Reaches (start t0) 0x2008 2 0x2000 := .descend (pte := 0x2003) h3 ⟨by decide, by decide⟩ rfl rfl
  have h1 : Reaches (start t0) 0x2008 1 0x3000 := .descend (pte := 0x3003) h2 ⟨by decide, by decide⟩ rfl rfl
  exact .descend (pte := 0x4003) h1 ⟨by decide, by decide⟩ rfl rfl

theorem witness_leaf : LeafAt (start t0) 0x2008 0x4010 0x5062 :=
  ⟨0x4000, witness_reaches, by decide, ⟨by decide, by decide⟩, rfl, rfl⟩

/-- The walk of E2 updates its leaf, whose bytes are 0x4010 to 0x4017. -/
theorem witness_updates_leaf : UpdatesLeaf (start t0) .load 0x2008 0x4010 0x5062 :=
  ⟨by decide, rfl, by decide, witness_leaf, rfl⟩

/-- For LoadsAndFetchesSetOnlyReferenced: a request that translates nothing; a load that sets the R bit of byte 0x4010,
the first byte of its leaf. -/
theorem witness_referenced :
    accessOf .flushTlb = none ∧ t0.mem.wf ∧ t0.blk.cfg.pteBytes = 8 ∧
    accessOf (.loadU64 0x2008) = some (.load, 0x2008) ∧ isSplitFetch (.loadU64 0x2008) = false ∧
    addressAligned (.loadU64 0x2008) = true ∧ icacheServes (.loadU64 0x2008) t0 = false ∧
    LeafByte (start t0) .load 0x2008 0x4010 ∧
    (after (.loadU64 0x2008) t0).mem.read 0x4010 ≠ t0.mem.read 0x4010 :=
  ⟨rfl, by decide, rfl, rfl, rfl, by decide, by decide,
   ⟨0x4010, 0x5062, witness_updates_leaf, by decide, by decide⟩, by decide⟩

/-- For LoadsAndFetchesSetOnlyReferenced: the byte after the leaf lies outside it, and with VM = 0 no byte is in a leaf:
not for a load, and for neither unit of the split fetch F3. -/
theorem witness_no_leaf_byte :
    (0x1006 : Word).toNat % 4 = 2 ∧
    exec (.fetch true 0x1006) codeState = .next (after (.fetch true 0x1006) codeState) ∧
    (∀ x, ¬ LeafByte (start codeState) .fetch 0x1006 x) ∧
    (∀ x pa u, Translates (start codeState) 0x1006 .fetch pa u → ¬ LeafByte u .fetch (0x1006 + 2) x) ∧
    (∀ x, ¬ (addressAligned (.loadU8 0x10) = true ∧ icacheServes (.loadU8 0x10) State.reset = false ∧
      LeafByte (start State.reset) .load 0x10 x)) ∧
    (0x4010 : Word).toNat + t0.blk.cfg.pteBytes ≤ 0x4018 := by
  refine ⟨by decide, exec_after _ _ (by decide), ?_, ?_, ?_, by decide⟩
  · rintro x ⟨_, _, h, _⟩
    cases h.2.1
  · rintro x pa u ht ⟨_, _, h, _⟩
    cases ht with
    | hit _ => cases h.2.1
    | identity _ _ _ => cases h.2.1
    | walked _ hv _ _ _ => cases hv
  · rintro x ⟨_, _, _, _, h, _⟩
    cases h.2.1

/-- For DeniedLeafRaisesThePermissionFault: the fetch of E2, and the store of W7b. -/
theorem witness_denied :
    Formula.tlbHit (start t0) .fetch 0x2008 = none ∧ t0.blk.vm = true ∧
    (0x2008 : Word).toNat < 2 ^ Formula.vaBits t0.blk.cfg ∧ LeafAt (start t0) 0x2008 0x4010 0x5062 ∧
    Formula.permBit .fetch t0.blk.sup 0x5062 = false ∧ Formula.permBit .store true 0x5062 = false :=
  ⟨by decide, rfl, by decide, witness_leaf, rfl, rfl⟩

/-- The three ways a translation succeeds. -/
theorem witness_translates_walked : ∃ u, Translates (start t0) 0x2008 .load 0x5008 u :=
  ⟨_, .walked (by decide) rfl (by decide) witness_leaf rfl⟩

theorem witness_translates_hit : Translates (start warmState) 0x2008 .load 0x5008 (start warmState) :=
  .hit (base := 0x5000) (by decide)

theorem witness_translates_identity : ∃ u, Translates (start State.reset) 0xFFFF .store 0xFFFF u :=
  ⟨_, .identity (by decide) rfl (by decide)⟩

/-- The ways a translation faults, for TranslateFollowsTheRules and TranslationFaultIsSignalled: a high address bit, an
invalid entry, a leaf too early (vector W5's entry at level 0), a table too late, a permission denied. -/
theorem witness_translate_faults :
    TranslateFaults (start t0) 0x1000000000000 .load .loadAccess ∧
    TranslateFaults (start single) 0x3000 .store .storeAccess ∧
    TranslateFaults (start (withModes 0x4000 false true t0)) 0x10000000000 .load .malformed ∧
    TranslateFaults (start { t0 with blk := { single.blk with root := 0x3000 } }) 0 .load .malformed ∧
    TranslateFaults (start t0) 0x2008 .fetch .fetchPerm := by
  refine ⟨.highBits (by decide) rfl (by decide), ?_, ?_, ?_, ?_⟩
  · exact .invalid (n := 0) (base := 0x1000) (pte := 0) (by decide) rfl (by decide) .root ⟨by decide, by decide⟩ rfl
  · exact .earlyLeaf (n := 2) (base := 0x4000) (pte := 0x5062) (by decide) rfl (by decide) .root
      ⟨by decide, by decide⟩ rfl rfl
  · exact .lateTable (base := 0x3000) (pte := 0x4003) (by decide) rfl (by decide) .root ⟨by decide, by decide⟩ rfl rfl
  · exact .denied (addr := 0x4010) (pte := 0x5062) (by decide) rfl (by decide) witness_leaf rfl

/-- Its ends fatal: an identity address outside the buffer, and a PTE outside it (W9). -/
theorem witness_translate_fatal :
    TranslateFatal (start State.reset) 0x10000 .load ∧
    TranslateFatal (start (withModes 0x10000 false true t0)) 0x2008 .load :=
  ⟨.outside (by decide) rfl (by decide),
   .pteOutside (n := 3) (base := 0x10000) (by decide) rfl (by decide) .root (by decide)⟩

/-- For TlbHitIsUsed: the row that the load of page 2 installed. -/
theorem witness_tlb_row :
    ∃ row, (warmState.blk.tlb.rows .load)[(0x2010 >>> 12) % 256]? = some row ∧
      row.tag = some (0x2010 &&& ~~~(BitVec.ofNat 64 (2 ^ 12) - 1#64)) := ⟨_, rfl, by decide⟩

/-- For IdentityTranslation and HighAddressBitsFault: the last address in bounds, the first out of bounds, and the
first address with a bit at VA_BITS = 48. -/
theorem witness_miss :
    tlbBase State.reset .load 0xFFFF = none ∧ State.reset.blk.vm = false ∧
    (0xFFFF : Word).toNat < State.reset.memsz ∧ State.reset.memsz ≤ (0x10000 : Word).toNat ∧
    tlbBase t0 .load 0x1000000000000 = none ∧ t0.blk.vm = true ∧ t0.blk.cfg.vaBits < 64 ∧
    (0x1000000000000 : Word) >>> t0.blk.cfg.vaBits ≠ 0 := by decide

/-- For RefillUpdatesTheLeafAlone. -/
theorem witness_refill :
    t0.mem.wf ∧ t0.blk.cfg.pteBytes = 8 ∧ tlbBase (start t0) .load 0x2008 = none ∧ t0.blk.vm = true ∧
    (0x2008 : Word).toNat < 2 ^ t0.blk.cfg.vaBits ∧ LeafAt (start t0) 0x2008 0x4010 0x5062 ∧
    ∃ t, translateVa 0x2008 .load (start t0) = .go 0x5008 t :=
  ⟨by decide, rfl, by decide, rfl, by decide, witness_leaf, _, rfl⟩

/-- For TranslationFaultIsSignalled: its other premises, for a fetch the icache does not serve. -/
theorem witness_fault_premises :
    t0.blk.halted = false ∧ accessOf (.fetch false 0x2000) = some (.fetch, 0x2000) ∧
    addressAligned (.fetch false 0x2000) = true ∧ icacheServes (.fetch false 0x2000) t0 = false := by decide

/-- For BoundsViolationIsFatal: the access of W10 leaves the buffer, with the smallest overrun of a wide access. -/
theorem witness_bounds :
    State.reset.blk.halted = false ∧ accessOf (.loadU8 0x10000) = some (.load, 0x10000) ∧
    addressAligned (.loadU8 0x10000) = true ∧ icacheServes (.loadU8 0x10000) State.reset = false ∧
    (∃ u, Translates (start { State.reset with memsz := 0xFFFF }) 0xFFFE .load 0xFFFE u) ∧
    0xFFFF < (0xFFFE : Word).toNat + accessBytes (.loadU16 0xFFFE) :=
  ⟨rfl, rfl, rfl, rfl, ⟨_, .identity (by decide) rfl (by decide)⟩, by decide⟩

/-! ### Witnesses: loads, stores and fetches -/

/-- For LoadCompletes: the narrowest and the widest load, walked and hit, and the last doubleword of the buffer. -/
theorem witness_load :
    loadForm (.loadS8 0x2008) = some (.w1, true, 0x2008) ∧ loadForm (.loadU64 0x2008) = some (.w8, false, 0x2008) ∧
    t0.blk.halted = false ∧ (0x2008 : Word).toNat % Width.w8.bytes = 0 ∧
    (∃ u, Translates (start t0) 0x2008 .load 0x5008 u) ∧ (0x5008 : Word).toNat + Width.w8.bytes ≤ t0.memsz ∧
    (∃ u, Translates (start State.reset) 0xFFF8 .load 0xFFF8 u) ∧
    (0xFFF8 : Word).toNat + Width.w8.bytes = State.reset.memsz :=
  ⟨rfl, rfl, rfl, by decide, witness_translates_walked, by decide, ⟨_, .identity (by decide) rfl (by decide)⟩, by decide⟩

/-- For StoreCompletes: the last byte of the buffer. -/
theorem witness_store :
    storeForm (.storeU8 0xFFFF 1) = some (.w1, 0xFFFF, 1) ∧ State.reset.blk.halted = false ∧
    (0xFFFF : Word).toNat % Width.w1.bytes = 0 ∧ State.reset.mem.wf ∧
    (∃ u, Translates (start State.reset) 0xFFFF .store 0xFFFF u) ∧
    (0xFFFF : Word).toNat + Width.w1.bytes ≤ State.reset.memsz :=
  ⟨rfl, rfl, by decide, by decide, witness_translates_identity, by decide⟩

/-- For MisalignedAccessFaults. -/
theorem witness_misaligned :
    loadForm (.loadU32 0x1002) = some (.w4, false, 0x1002) ∧ (0x1002 : Word).toNat % Width.w4.bytes ≠ 0 ∧
    storeForm (.storeU64 0x1004 5) = some (.w8, 0x1004, 5) ∧ (0x1004 : Word).toNat % Width.w8.bytes ≠ 0 := by decide

/-- For LoadAfterStoreGivesTheValue: S4's store, and the load of the same address. -/
theorem witness_store_then_load :
    storeForm (.storeU64 0x200 7) = some (.w8, 0x200, 7) ∧ loadForm (.loadU64 0x200) = some (.w8, false, 0x200) ∧
    State.reset.mem.wf ∧ exec (.storeU64 0x200 7) State.reset = .next (after (.storeU64 0x200 7) State.reset) ∧
    (after (.storeU64 0x200 7) State.reset).blk.resp.status = .ok ∧
    (∃ u, Translates (start State.reset) 0x200 .store 0x200 u) ∧
    (∃ u', Translates (start (after (.storeU64 0x200 7) State.reset)) 0x200 .load 0x200 u' ∧
      ∀ x, u'.mem.read x = (after (.storeU64 0x200 7) State.reset).mem.read x) :=
  ⟨rfl, rfl, by decide, exec_after _ _ (by decide), by decide, ⟨_, .identity (by decide) rfl (by decide)⟩,
   ⟨_, .identity (by decide) rfl (by decide), fun _ => rfl⟩⟩

/-- For IcacheHitIsReturned, SecondFetchIsAHit and CachedWordOutlivesOtherRequests: the row a fetch filled, and a store
to its bytes. -/
theorem witness_icache_hit :
    fetchedState.blk.halted = false ∧ (0x1000 : Word).toNat % 4 = 0 ∧
    (∃ row, fetchedState.blk.icache[(0x1000 / 4) % fetchedState.blk.cfg.icacheEntries]? = some row ∧
      row.tag = some 0x1000) ∧ (icacheHit fetchedState 0x1000).isSome = true ∧
    exec (.storeU32 0x1000 0x00100093) fetchedState = .next (after (.storeU32 0x1000 0x00100093) fetchedState) ∧
    (after (.storeU32 0x1000 0x00100093) fetchedState).blk.halted = false :=
  ⟨rfl, by decide, ⟨_, rfl, rfl⟩, rfl, exec_after _ _ rfl, rfl⟩

/-- For CachedWordOutlivesOtherRequests' condition on fetches: a split fetch, the same address, and another row. -/
theorem witness_other_fetches :
    isSplitFetch (.fetch true 0x1002) = true ∧
    fetchedState.blk.cfg.icacheIndex 0x1004 ≠ fetchedState.blk.cfg.icacheIndex 0x1000 ∧
    Instr.storeU32 0x1000 0 ≠ .flushIcache := ⟨rfl, by decide, by decide⟩

/-- For SecondFetchIsAHit. -/
theorem witness_first_fetch :
    codeState.blk.icache.length = codeState.blk.cfg.icacheEntries ∧ 1 ≤ codeState.blk.cfg.icacheEntries ∧
    exec (.fetch false 0x1000) codeState = .next fetchedState ∧ fetchedState.blk.resp.status = .ok :=
  ⟨List.length_replicate, by decide, exec_after _ _ (by decide), rfl⟩

/-- For StandardFetchFillsTheIcache: the last word of the buffer (F10's address). -/
theorem witness_standard_fetch :
    State.reset.blk.halted = false ∧ (0xFFFC : Word).toNat % 4 = 0 ∧ icacheHit State.reset 0xFFFC = none ∧
    (∃ u, Translates (start State.reset) 0xFFFC .fetch 0xFFFC u) ∧ (0xFFFC : Word).toNat + 4 ≤ State.reset.memsz :=
  ⟨rfl, by decide, rfl, ⟨_, .identity (by decide) rfl (by decide)⟩, by decide⟩

/-- For SplitFetchOfAShortUnit: F7. -/
theorem witness_split_short :
    (0xFFFE : Word).toNat % 4 = 2 ∧ (0xFFFE : Word).toNat + 2 ≤ State.reset.memsz ∧
    ∃ u, Translates (start State.reset) 0xFFFE .fetch 0xFFFE u ∧
      State.reset.blk.cfg.isShort.test (BitVec.ofNat 16 (bytesLE u.mem 0xFFFE 2)) = true :=
  ⟨by decide, by decide, _, .identity (by decide) rfl (by decide), by decide⟩

/-- `codeState` after the first unit of F3, at 0x1006, is translated. -/
def firstUnit (s : State) (a : Word) : State := installed (start s) .fetch a (s.blk.cfg.pageOf a) s.mem

/-- For SplitFetchOfTwoUnits: F3, whose second unit hits the row of the first; and F8, whose second unit ends fatal. -/
theorem witness_split_long :
    Translates (start codeState) 0x1006 .fetch 0x1006 (firstUnit codeState 0x1006) ∧
    codeState.blk.cfg.isShort.test (BitVec.ofNat 16 (bytesLE (firstUnit codeState 0x1006).mem 0x1006 2)) = false ∧
    Translates (firstUnit codeState 0x1006) (0x1006 + 2) .fetch 0x1008 (firstUnit codeState 0x1006) ∧
    (0x1008 : Word).toNat + 2 ≤ codeState.memsz ∧
    TranslateFatal (firstUnit (started .reference (ram [(0xFFFE, 2, 0x0513)]) 0 true false) 0xFFFE) (0xFFFE + 2)
      .fetch :=
  ⟨.identity (by decide) rfl (by decide), by decide, .hit (base := 0x1000) (by decide), by decide,
   .outside (by decide) rfl (by decide)⟩

/-- For SplitFetchOfTwoUnits: a fault of the second unit (P4 step 12: page 3 has no entry), and a second unit that
leaves the buffer (MEMSZ = 0x1009). -/
theorem witness_split_long_ends :
    (∃ u, Translates (start crossState) 0x2FFE .fetch 0x5FFE u ∧
      crossState.blk.cfg.isShort.test (BitVec.ofNat 16 (bytesLE u.mem 0x5FFE 2)) = false ∧
      (after (.fetch true 0x2FFE) crossState).blk.resp.status = .fault .fetchAccess) ∧
    Translates (start { codeState with memsz := 0x1009 }) 0x1006 .fetch 0x1006
      (firstUnit { codeState with memsz := 0x1009 } 0x1006) ∧
    Translates (firstUnit { codeState with memsz := 0x1009 } 0x1006) (0x1006 + 2) .fetch 0x1008
      (firstUnit { codeState with memsz := 0x1009 } 0x1006) ∧
    0x1009 < (0x1008 : Word).toNat + 2 := by
  refine ⟨⟨_, .walked (addr := 0x4010) (pte := 0x5052) (by decide) rfl (by decide) ?_ rfl, by decide, by decide⟩,
    .identity (by decide) rfl (by decide), .hit (base := 0x1000) (by decide), by decide⟩
  have h3 : Reaches (start crossState) 0x2FFE 3 0x1000 := .root
  have h2 : Reaches (start crossState) 0x2FFE 2 0x2000 := .descend (pte := 0x2003) h3 ⟨by decide, by decide⟩ rfl rfl
  have h1 : Reaches (start crossState) 0x2FFE 1 0x3000 := .descend (pte := 0x3003) h2 ⟨by decide, by decide⟩ rfl rfl
  have h0 : Reaches (start crossState) 0x2FFE 0 0x4000 := .descend (pte := 0x4003) h1 ⟨by decide, by decide⟩ rfl rfl
  exact ⟨0x4000, h0, by decide, ⟨by decide, by decide⟩, rfl, rfl⟩

/-- For LowUnitHandleIsWholeHandle: the reference configuration, and PTE_BYTES = 4 with PPN_SHIFT at its bounds. -/
theorem witness_configuration :
    Config.reference.Ok ∧ { Config.reference with pteBytes := 4, ppnShift := 10, dts := 1 }.Ok ∧
    { Config.reference with pteBytes := 4, ppnShift := 31, dts := 65536 }.Ok := by decide

/-! ### Witnesses: control registers and flushes -/

/-- For GetFaultAddrAnswersLastFault, both clauses, and the other statements that ask only for HALTED = 0. -/
theorem witness_running :
    State.reset.blk.halted = false ∧ State.reset.blk.faultSeen = false ∧
    (after (.loadU32 0x1002) State.reset).blk.halted = false ∧
    (after (.loadU32 0x1002) State.reset).blk.faultSeen = true := by decide

/-- For TranslationsWalkAfterAFlush: both flushing requests, and a load after one. -/
theorem witness_after_flush :
    exec .flushTlb warmState = .next (after .flushTlb warmState) ∧
    exec (.setRoot 0x1000) warmState = .next (after (.setRoot 0x1000) warmState) ∧
    accessOf (.loadU64 0x2008) ≠ none ∧ addressAligned (.loadU64 0x2008) = true ∧
    icacheServes (.loadU64 0x2008) (after .flushTlb warmState) = false ∧
    exec (.loadU64 0x2008) (after .flushTlb warmState) = .next (after (.loadU64 0x2008) (after .flushTlb warmState)) :=
  ⟨exec_after _ _ (by decide), exec_after _ _ (by decide), by decide, by decide, by decide, exec_after _ _ (by decide)⟩

/-- For FetchDecodesAfterFlushIcache. -/
theorem witness_after_flush_icache :
    exec .flushIcache fetchedState = .next (after .flushIcache fetchedState) ∧
    exec (.fetch false 0x1000) (after .flushIcache fetchedState) =
      .next (after (.fetch false 0x1000) (after .flushIcache fetchedState)) ∧
    (after (.fetch false 0x1000) (after .flushIcache fetchedState)).blk.resp.status = .ok :=
  ⟨exec_after _ _ rfl, exec_after _ _ rfl, rfl⟩

end Sys2Proof.Tests
end

/-! ## Proofs: translation and alignment (20_memory.md)

First the equations of the translation, one for each way it can go; then the walk along the tables that the relation
`Reaches` describes; then the statements. -/

namespace Sys2Proof.Machine

open Sys2Proof

/-! ### Equations of `translate` and of the engine -/

section TranslationEquations

variable {s : State} {va : Word} {k : Kind}

/-- A TLB hit gives the row's base with the page offset and changes nothing (R67). -/
theorem translateVa_of_hit {base : Word} (hhit : tlbBase s k va = some base) :
    translateVa va k s = .go (base ||| s.blk.cfg.pageOffset va) s := by
  simp [translateVa, hhit]

/-- A TLB miss runs the engine with `walked` set, then refills the row (R65, R68). -/
theorem translateVa_of_miss (hmiss : tlbBase s k va = none) :
    translateVa va k s = (engine va k (markWalked s)).andThen fun base t =>
      .go (base ||| s.blk.cfg.pageOffset va) (refill k va base t) := by
  simp [translateVa, hmiss]

theorem translateVa_of_engine_go {base : Word} {t : State} (hmiss : tlbBase s k va = none)
    (he : engine va k (markWalked s) = .go base t) :
    translateVa va k s = .go (base ||| s.blk.cfg.pageOffset va) (refill k va base t) := by
  rw [translateVa_of_miss hmiss, he, Phase.andThen]

theorem translateVa_of_engine_raise {f : FaultKind} {va' : Word} {t : State} (hmiss : tlbBase s k va = none)
    (he : engine va k (markWalked s) = .raise f va' t) : translateVa va k s = .raise f va' t := by
  rw [translateVa_of_miss hmiss, he, Phase.andThen]

theorem translateVa_of_engine_fatal {t : State} (hmiss : tlbBase s k va = none)
    (he : engine va k (markWalked s) = .fatal t) : translateVa va k s = .fatal t := by
  rw [translateVa_of_miss hmiss, he, Phase.andThen]

/-- With VM = 0 an address at or beyond MEMSZ ends fatal (R69). -/
theorem engine_of_vm_off_outside (hvm : s.blk.vm = false) (hva : s.memsz ≤ va.toNat) :
    engine va k s = .fatal s := by
  simp [engine, hvm, engineOff, hva]

/-- With VM = 0 an address within the buffer keeps its own page (R69). -/
theorem engine_of_vm_off_inside (hvm : s.blk.vm = false) (hva : va.toNat < s.memsz) :
    engine va k s = .go (s.blk.cfg.pageOf va) s := by
  simp [engine, hvm, engineOff, hva]

/-- With VM = 1 the address-width check comes before any PTE read (R70). -/
theorem engine_of_beyondVa (hvm : s.blk.vm = true) (hva : s.blk.cfg.beyondVa va = true) :
    engine va k s = .raise (accessFault k) va s := by
  simp [engine, hvm, engineOn, hva]

/-- A leaf that denies the access raises the permission fault and is not updated (R77). -/
theorem engine_of_denied_leaf {addr pte : Word} (hvm : s.blk.vm = true) (hva : s.blk.cfg.beyondVa va = false)
    (hwalk : walk s k va (s.blk.cfg.levels - 1) s.blk.root = .leaf addr pte)
    (hperm : permBit k s.blk.sup pte = false) :
    engine va k s = .raise (permFault k) va s := by
  simp [engine, hvm, engineOn, hva, hwalk, hperm]

/-- The spec's record of a refill is the machine's refill of a state with `walked` set. -/
theorem installed_eq_refill (base : Word) (m : Memory) :
    installed s k va base m = refill k va base (setMem m (markWalked s)) := rfl

/-- R70's test `va[63:VA_BITS] != 0` as a shift. -/
theorem beyondVa_of_ushiftRight_ne_zero {c : Config} (h : va >>> c.vaBits ≠ 0) : c.beyondVa va = true := by
  rw [beyondVa_iff]
  by_contra hlt
  exact h <| BitVec.eq_of_toNat_eq <| by
    rw [BitVec.toNat_ushiftRight, Nat.shiftRight_eq_div_pow, Nat.div_eq_of_lt (Nat.lt_of_not_le hlt)]
    rfl

end TranslationEquations

/-! ### The walk along the tables -/

section WalkAlongTables

variable {s : State} {va : Word} {k : Kind}

/-- The relation `PteAt` is the machine's PTE read (R51, R62). -/
theorem readPte_eq_some_iff_pteAt {addr pte : Word} : readPte s addr = some pte ↔ PteAt s addr pte := by
  rw [readPte_eq_some, readLE_eq_bytesLE, PteAt]

@[simp] theorem walk_markWalked (n : Nat) (base : Word) :
    walk (markWalked s) k va n base = walk s k va n base :=
  walk_congr s (markWalked s) k va n base rfl rfl rfl

/-- R74: a valid table descriptor takes the walk one level down. -/
theorem walk_of_table {n : Nat} {base pte : Word}
    (hpte : PteAt s (s.blk.cfg.pteAddr base va (n + 1)) pte) (hv : pte.getLsbD pteV = true)
    (ht : pte.getLsbD pteT = true) :
    walk s k va (n + 1) base = walk s k va n (ppnBase s.blk.cfg pte) := by
  rw [walk, readPte_eq_some_iff_pteAt.mpr hpte]
  simp [hv, ht]

/-- R72: a valid PTE with T = 0 at the last level ends the walk. -/
theorem walk_of_leaf {base pte : Word} (hpte : PteAt s (s.blk.cfg.pteAddr base va 0) pte)
    (hv : pte.getLsbD pteV = true) (ht : pte.getLsbD pteT = false) :
    walk s k va 0 base = .leaf (s.blk.cfg.pteAddr base va 0) pte := by
  rw [walk, readPte_eq_some_iff_pteAt.mpr hpte]
  simp [hv, ht]

/-- The walk from ROOT comes to every table that the relation reaches. -/
theorem walk_of_reaches {n : Nat} {base : Word} (h : Reaches s va n base) :
    walk s k va (s.blk.cfg.levels - 1) s.blk.root = walk s k va n base := by
  induction h with
  | root => rfl
  | descend _ hpte hv ht ih =>
    rw [Formula.pteAddr_eq] at hpte
    rw [ih, walk_of_table hpte hv ht, Formula.ppnBase_eq]

theorem walk_of_leafAt {addr pte : Word} (h : LeafAt s va addr pte) :
    walk s k va (s.blk.cfg.levels - 1) s.blk.root = .leaf addr pte := by
  obtain ⟨base, hreach, rfl, hpte, hv, ht⟩ := h
  rw [Formula.pteAddr_eq] at hpte ⊢
  rw [walk_of_reaches hreach, walk_of_leaf hpte hv ht]

end WalkAlongTables

/-! ### Misaligned loads and stores -/

theorem aligned_eq_false (w : Width) (a : Word) : aligned w a = false ↔ a.toNat % w.bytes ≠ 0 := by
  rw [← Bool.not_eq_true, aligned_eq_true]

/-- A misaligned load faults without a translation (R54). -/
theorem loadOp_of_misaligned {w : Width} {a : Word} (sg : Bool) (s : State) (h : aligned w a = false) :
    loadOp w sg a s = takeFault .misalignedLoad a s := by
  simp [loadOp, h]

/-- A misaligned store faults without a translation (R54). -/
theorem storeOp_of_misaligned {w : Width} {a : Word} (d : Word) (s : State) (h : aligned w a = false) :
    storeOp w a d s = takeFault .misalignedStore a s := by
  simp [storeOp, h]

/-- A fault taken at the start of a request is the spec's record with both bits 0 (R101, R201). -/
theorem takeFault_start (f : FaultKind) (va : Word) (s : State) :
    takeFault f va (start s) = faulted f va false false s := rfl

/-! ### The statements -/

/-- Settles O30: the row is the one the lookup reads, so the lookup hits. -/
theorem tlbHitIsUsed : Obligations.TlbHitIsUsed := by
  rintro s va k ⟨tag, base⟩ hrow htag
  obtain rfl : tag = _ := htag
  have hhit : tlbBase s k va = some base := (tlbBase_eq_some s k va base).mpr hrow
  exact translateVa_of_hit hhit

/-- Settles O31: the page and the offset of `va` put together are `va` again. -/
theorem identityTranslation : Obligations.IdentityTranslation := by
  intro s va k hmiss hvm
  rw [Formula.tlbHit_eq] at hmiss
  constructor
  · intro hva
    exact translateVa_of_engine_fatal hmiss (engine_of_vm_off_outside hvm hva)
  · intro hva
    have hgo := translateVa_of_engine_go hmiss (engine_of_vm_off_inside (s := markWalked s) (k := k) hvm hva)
    rw [markWalked_cfg, pageOf_or_pageOffset] at hgo
    rw [hgo, installed_eq_refill]
    rfl

/-- Settles O32: R70's test comes before the walk. -/
theorem highAddressBitsFault : Obligations.HighAddressBitsFault := by
  intro s va k hmiss hvm _ hhigh
  rw [Formula.tlbHit_eq] at hmiss
  rw [Formula.vaBits_eq] at hhigh
  have hraise := translateVa_of_engine_raise hmiss
    (engine_of_beyondVa (s := markWalked s) (k := k) hvm (beyondVa_of_ushiftRight_ne_zero hhigh))
  rw [hraise, ← Formula.accessFault_eq, Formula.accessFault]

/-- Settles O33: the machine's selection is the spec's table, row by row. -/
theorem permissionBitTable : Obligations.PermissionBitTable := by
  intro pte
  simp only [← Formula.permBit_eq, Formula.permBit, and_self]

/-- Settles O34: the walk ends at the leaf, whose permission bit the engine then finds clear. -/
theorem deniedLeafRaisesThePermissionFault : Obligations.DeniedLeafRaisesThePermissionFault := by
  intro s va addr pte k hmiss hvm hva hleaf hperm
  rw [Formula.tlbHit_eq] at hmiss
  rw [Formula.vaBits_eq, ← beyondVa_eq_false_iff] at hva
  rw [Formula.permBit_eq] at hperm
  have hwalk : walk (markWalked s) k va (s.blk.cfg.levels - 1) s.blk.root = .leaf addr pte := by
    rw [walk_markWalked, walk_of_leafAt hleaf]
  have hraise := translateVa_of_engine_raise hmiss (engine_of_denied_leaf hvm hva hwalk hperm)
  rw [hraise, ← Formula.permFault_eq, Formula.permFault]

/-- Settles O40: the alignment test comes before the translation. -/
theorem misalignedAccessFaults : Obligations.MisalignedAccessFaults := by
  refine ⟨?_, ?_, fun a => Nat.mod_one a.toNat⟩
  · intro i w sg a s hform hhalted hmis
    obtain ⟨hwf, heffect⟩ := effect_of_loadForm i w sg a hform
    rw [exec_eq_next, heffect, loadOp_of_misaligned sg _ ((aligned_eq_false w a).mpr hmis), takeFault_start]
    exact ⟨hhalted, hwf, rfl⟩
  · intro i w a d s hform hhalted hmis
    obtain ⟨hwf, heffect⟩ := effect_of_storeForm i w a d hform
    rw [exec_eq_next, heffect, storeOp_of_misaligned d _ ((aligned_eq_false w a).mpr hmis), takeFault_start]
    exact ⟨hhalted, hwf, rfl⟩

end Sys2Proof.Machine

/-! ## Proofs: reserved commands (30_encoding.md)

What the decoder can answer, said once; then the step of a request that it rejects. -/

namespace Sys2Proof

/-- Every request's command is of a row of the opcode table (R108): the model's per-request facts, gathered. -/
theorem Laws.EncodedRow.statement (i : Instr) : Laws.EncodedRow.Statement i :=
  match i with
  | .loadU8 a => loadU8 a
  | .loadU16 a => loadU16 a
  | .loadU32 a => loadU32 a
  | .loadU64 a => loadU64 a
  | .loadS8 a => loadS8 a
  | .loadS16 a => loadS16 a
  | .loadS32 a => loadS32 a
  | .loadS64 a => loadS64 a
  | .storeU8 a d => storeU8 a d
  | .storeU16 a d => storeU16 a d
  | .storeU32 a d => storeU32 a d
  | .storeU64 a d => storeU64 a d
  | .fetch v a => fetch v a
  | .getFaultAddr => getFaultAddr
  | .getRoot => getRoot
  | .setRoot a => setRoot a
  | .setPriv a => setPriv a
  | .setVm a => setVm a
  | .flushTlb => flushTlb
  | .flushIcache => flushIcache

/-- What the decoder can answer: a request with the record's own command (R108), or the rejection that names that
command (R109). -/
theorem decodeRequest_cases (r : Request) :
    (∃ i, decodeRequest r = .ok i ∧ i.request.cmd = r.cmd) ∨
      decodeRequest r = .error (.reservedCommand r.cmd) := by
  unfold decodeRequest
  split
  case h_22 => exact .inr rfl
  all_goals
    rename_i hcmd
    exact .inl ⟨_, rfl, (BitVec.eq_of_toNat_eq hcmd).symm⟩

/-- A command that no row of the opcode table covers is rejected by name (R109). -/
theorem decode_of_uncovered {w : BitVec 136}
    (h : ∀ row ∈ opcodeTable, row.covers (Request.ofBits w).cmd = false) :
    decode w = .error (.reservedCommand (Request.ofBits w).cmd) := by
  rcases decodeRequest_cases (Request.ofBits w) with ⟨i, -, hcmd⟩ | herr
  · obtain ⟨row, hmem, -, hcovers⟩ := Laws.EncodedRow.statement i
    rw [Request.ofBits_encode, hcmd, h row hmem] at hcovers
    cases hcovers
  · exact herr

end Sys2Proof

namespace Sys2Proof.Machine

open Sys2Proof

/-- A running instance with a legal configuration refuses a request that the decoder rejects (R109). -/
theorem takeRequest_of_decode_error {s : State} {e : PortEntry} {rest : List PortEntry} {b : Block} {cmd : BitVec 8}
    (hport : s.port = e :: rest) (haddr : Formula.Addressed s e.block b) (hcfg : b.cfg.Ok) (hmemsz : 1 ≤ s.memsz)
    (hrun : b.halted = false) (hdec : decode e.word = .error (.reservedCommand cmd)) :
    takeRequest s = .refused (.reservedCommand cmd) := by
  obtain ⟨t, hsel, rfl, ht⟩ := select_of_addressed { s with port := rest } e.block b haddr
  have hlegal : t.blk.cfg.Ok ∧ 1 ≤ t.memsz := ⟨hcfg, ht ▸ hmemsz⟩
  simp only [takeRequest, hport, hsel, if_pos hlegal, hrun, hdec, Bool.false_eq_true, if_false]

/-- Settles O8: the decoder rejects a command outside the table, and the port refuses what it rejects. -/
theorem reservedCommandIsRefused : Obligations.ReservedCommandIsRefused := by
  intro s e rest b hport haddr hcfg hmemsz hrun huncovered
  rw [step, takeRequest_of_decode_error hport haddr hcfg hmemsz hrun (decode_of_uncovered huncovered)]

end Sys2Proof.Machine

/-! ## Proofs: instruction fetch (40_fetch.md)

The standard path: when a fetch takes it, and its equation on an icache hit. -/

namespace Sys2Proof.Machine

open Sys2Proof

/-- A four-aligned fetch address is within the contract with either `v` (20_memory.md R56). -/
theorem fetch_wellFormed_of_fourAligned (v : Bool) {a : Word} (ha : a.toNat % 4 = 0) :
    (Instr.fetch v a).wellFormed = true :=
  (fetch_wellFormed v a).mpr ⟨by omega, .inr ha⟩

/-- A fetch at a four-aligned address takes the standard path with either `v` (R130, R133). -/
theorem effect_fetch_of_fourAligned (v : Bool) {a : Word} (ha : a.toNat % 4 = 0) :
    effect (.fetch v a) = standardFetch a := by
  have hpath : ¬ splitPath v a = true := by
    rw [splitPath_eq_true]
    omega
  funext s
  rw [effect, if_neg hpath]

/-- An icache hit answers the row and touches nothing else (R132). -/
theorem standardFetch_of_hit {a : Word} {s : State} {row : IcRow} (hhit : icacheHit s a = some row) :
    standardFetch a s = answerFetch (row.bits.setWidth 64) row.handle s := by
  rw [standardFetch, hhit]

/-- An OK fetch answered at the start of a request is the spec's record with both bits 0 (R101). -/
theorem answerFetch_start (r : Word) (h : Handle) (s : State) :
    answerFetch r h (start s) = fetched r h false false s := rfl

/-- Settles O42: the aligned fetch takes the standard path, whose lookup finds the row. -/
theorem icacheHitIsReturned : Obligations.IcacheHitIsReturned := by
  intro v a s row hrun ha hrow htag
  have hhit : icacheHit (start s) a = some row := (icacheHit_eq_some (start s) a row).mpr ⟨hrow, htag⟩
  rw [exec_eq_next, effect_fetch_of_fourAligned v ha, standardFetch_of_hit hhit, answerFetch_start]
  exact ⟨hrun, fetch_wellFormed_of_fourAligned v ha, rfl⟩

end Sys2Proof.Machine

/-! ## Proofs: flushes (42_flush.md)

The decoding of a record whose command is known, and the OK answer at the start of a request; each flush is then its
invalidation with a result of 0. -/

namespace Sys2Proof

/-- The decoder reads a record as its command with the record's own A and D (R100, R108). -/
theorem decode_of_cmd {w : BitVec 136} {cmd : BitVec 8} (h : (Request.ofBits w).cmd = cmd) :
    decode w = decodeRequest ⟨cmd, (Request.ofBits w).a, (Request.ofBits w).d⟩ := by
  rw [← h, decode]

end Sys2Proof

namespace Sys2Proof.Machine

open Sys2Proof

/-- An OK answer at the start of a request is the spec's record with both bits 0 (R101). -/
theorem answer_start (r : Word) (s : State) : answer r (start s) = answered r false false s := rfl

/-- A running instance answers OK to a request whose effect only leads to another state at the start of a request. -/
theorem exec_eq_answered {i : Instr} {s t : State} {r : Word} (hrun : s.blk.halted = false)
    (hwf : i.wellFormed = true) (heffect : effect i (start s) = answer r (start t)) :
    exec i s = .next (answered r false false t) := by
  rw [exec_eq_next, heffect, answer_start]
  exact ⟨hrun, hwf, rfl⟩

/-- A TLB flush and the start of a request change different parts of the state (R101, R170). -/
theorem invalidateTlb_start (s : State) : invalidateTlb (start s) = start (invalidateTlb s) := rfl

/-- An icache flush and the start of a request change different parts of the state (R101, R171). -/
theorem invalidateIcache_start (s : State) : invalidateIcache (start s) = start (invalidateIcache s) := rfl

/-- Settles O55: the effect is the invalidation of the three arrays, answered with 0. -/
theorem flushTlbInvalidatesEveryTag : Obligations.FlushTlbInvalidatesEveryTag := by
  constructor
  · intro w hcmd
    exact decode_of_cmd hcmd
  · intro s hrun
    have heffect : effect .flushTlb (start s) = answer 0 (start (invalidateTlb s)) := by
      rw [effect, invalidateTlb_start]
    exact exec_eq_answered hrun rfl heffect

/-- Settles O56: the effect is the invalidation of the icache, answered with 0. -/
theorem flushIcacheInvalidatesEveryTag : Obligations.FlushIcacheInvalidatesEveryTag := by
  constructor
  · intro w hcmd
    exact decode_of_cmd hcmd
  · intro s hrun
    have heffect : effect .flushIcache (start s) = answer 0 (start (invalidateIcache s)) := by
      rw [effect, invalidateIcache_start]
    exact exec_eq_answered hrun rfl heffect

end Sys2Proof.Machine

/-! ## Proofs: control registers (43_control.md)

A page has its low bits clear; the writes of ROOT, SUP and VM commute with the start of a request; each request is then
its one write, answered OK. -/

namespace Sys2Proof.Machine

open Sys2Proof

/-- The low PGSHIFT bits of a page are zero (20_memory.md R66). -/
theorem getLsbD_pageOf_of_lt (c : Config) (va : Word) {n : Nat} (h : n < c.pgshift) :
    (c.pageOf va).getLsbD n = false := by
  rw [Config.pageOf, BitVec.getLsbD_and, BitVec.getLsbD_not, getLsbD_offsetMask]
  simp [h]

/-- The low PGSHIFT bits of ROOT are zero in a legal instance (10_state.md R24). -/
theorem Block.Inv.getLsbD_root {b : Block} (h : b.Inv) {n : Nat} (hn : n < b.cfg.pgshift) :
    b.root.getLsbD n = false := by
  rw [← h.root, Formula.page_eq, getLsbD_pageOf_of_lt b.cfg b.root hn]

/-- A write of ROOT and the start of a request change different parts of the state (R101, R182). -/
theorem setRoot_start (a : Word) (s : State) : setRoot a (start s) = start (setRoot a s) := rfl

/-- A write of SUP and the start of a request change different parts of the state (R101, R183). -/
theorem setSup_start (b : Bool) (s : State) : setSup b (start s) = start (setSup b s) := rfl

/-- A write of VM and the start of a request change different parts of the state (R101, R184). -/
theorem setVm_start (b : Bool) (s : State) : setVm b (start s) = start (setVm b s) := rfl

/-- Settles O51: the effect is the answer with ROOT, whose low bits the invariant keeps zero. -/
theorem getRootAnswersRoot : Obligations.GetRootAnswersRoot := by
  refine ⟨?_, ?_, ?_⟩
  · intro w hcmd
    exact decode_of_cmd hcmd
  · intro s hrun
    have heffect : effect .getRoot (start s) = answer s.blk.root (start s) := by
      rw [effect, start_root]
    exact exec_eq_answered hrun rfl heffect
  · intro s hinv n hn
    exact hinv.blk.getLsbD_root hn

/-- Settles O52: the effect is the write of the page of A and the TLB flush, answered with 0. -/
theorem setRootMasksAndFlushesTheTlb : Obligations.SetRootMasksAndFlushesTheTlb := by
  constructor
  · intro w hcmd
    exact decode_of_cmd hcmd
  · intro a s hrun
    have heffect : effect (.setRoot a) (start s) = answer 0 (start (invalidateTlb (setRoot a s))) := by
      rw [effect, setRoot_start, invalidateTlb_start]
    exact exec_eq_answered hrun rfl heffect

/-- Settles O53: the effect is the write of A[0] to SUP, answered with 0. -/
theorem setPrivWritesSup : Obligations.SetPrivWritesSup := by
  constructor
  · intro w hcmd
    exact decode_of_cmd hcmd
  · intro a s hrun
    have heffect : effect (.setPriv a) (start s) = answer 0 (start (setSup (a.getLsbD 0) s)) := by
      rw [effect, flagOperand, setSup_start]
    exact exec_eq_answered hrun rfl heffect

/-- Settles O54: the effect is the write of A[0] to VM, answered with 0. -/
theorem setVmWritesVm : Obligations.SetVmWritesVm := by
  constructor
  · intro w hcmd
    exact decode_of_cmd hcmd
  · intro a s hrun
    have heffect : effect (.setVm a) (start s) = answer 0 (start (setVm (a.getLsbD 0) s)) := by
      rw [effect, flagOperand, setVm_start]
    exact exec_eq_answered hrun rfl heffect

end Sys2Proof.Machine

/-! ## Proofs: precise faults (60_exceptions.md)

A translation that goes on is one of the spec's relation `Translates`; a request that faults is a fault taken at the
first address with at most `walked` set, or at the second unit of a split fetch. -/

namespace Sys2Proof.Machine

open Sys2Proof

/-! ### From the machine's translation to the spec's relation -/

section TranslationRelation

variable {s t : State} {va pa base addr pte : Word} {k : Kind} {n : Nat}

/-- A walk that ends at the last level read a valid PTE with T = 0 there (R72). -/
theorem walk_zero_eq_leaf (h : walk s k va 0 base = .leaf addr pte) :
    addr = s.blk.cfg.pteAddr base va 0 ∧ PteAt s addr pte ∧ pte.getLsbD pteV = true ∧ pte.getLsbD pteT = false := by
  obtain ⟨hread, hv, ht⟩ := walk_eq_leaf s k va 0 base addr pte h
  refine ⟨?_, readPte_eq_some_iff_pteAt.mp hread, hv, ht⟩
  rw [walk] at h
  split at h
  · cases h
  · split_ifs at h
    cases h
    rfl

/-- A walk that ends at a leaf below this level read a valid table descriptor here (R74). -/
theorem walk_succ_eq_leaf (h : walk s k va (n + 1) base = .leaf addr pte) :
    ∃ desc, PteAt s (s.blk.cfg.pteAddr base va (n + 1)) desc ∧ desc.getLsbD pteV = true ∧
      desc.getLsbD pteT = true ∧ walk s k va n (ppnBase s.blk.cfg desc) = .leaf addr pte := by
  rw [walk] at h
  split at h
  · cases h
  · next desc hread =>
    split_ifs at h with hv ht
    exact ⟨desc, readPte_eq_some_iff_pteAt.mp hread, hv, ht, h⟩

/-- The walk ends only at genuine leaves: the converse of `walk_of_leafAt`, from any table on the way. -/
theorem leafAt_of_walk (hreach : Reaches s va n base) (h : walk s k va n base = .leaf addr pte) :
    LeafAt s va addr pte := by
  induction n generalizing base with
  | zero =>
    obtain ⟨haddr, hpte, hv, ht⟩ := walk_zero_eq_leaf h
    exact ⟨base, hreach, by rw [haddr, Formula.pteAddr_eq], hpte, hv, ht⟩
  | succ n ih =>
    obtain ⟨desc, hpte, hv, ht, hrest⟩ := walk_succ_eq_leaf h
    rw [← Formula.pteAddr_eq] at hpte
    exact ih (.descend hreach hpte hv ht) hrest

/-- The machine's R/D update sets the bits that R78 names. -/
theorem updatedPte_eq_referencedPte (k : Kind) (pte : Word) : updatedPte k pte = referencedPte k pte := by
  cases k with
  | store => rw [updatedPte, BitVec.or_assoc]; rfl
  | fetch => rfl
  | load => rfl

/-- The R/D update is a write of the spec's buffer (R78). -/
theorem updateRD_eq_setMem_leafWritten (k : Kind) (addr pte : Word) (s : State) :
    updateRD k addr pte s = setMem (leafWritten s k addr pte) s := by
  rw [updateRD, leafWritten, updatedPte_eq_referencedPte]
  split <;> rfl

/-- A translation that goes on is one of the spec's relation: a hit, the identity, or a walk to a permitted leaf. -/
theorem translates_of_translateVa_go (h : translateVa va k s = .go pa t) : Translates s va k pa t := by
  rcases translateVa_eq_go va k s t pa h with
    ⟨base, hhit, rfl, rfl⟩ | ⟨hmiss, hvm, hva, rfl, rfl⟩ | ⟨addr, pte, hmiss, hvm, hva, hwalk, hperm, rfl, rfl⟩
  · exact .hit hhit
  · exact .identity hmiss hvm hva
  · rw [updateRD_eq_setMem_leafWritten]
    rw [← Formula.permBit_eq] at hperm
    exact .walked hmiss hvm ((beyondVa_eq_false_iff ..).mp hva) (leafAt_of_walk .root hwalk) hperm

end TranslationRelation

/-! ### How each request can end with a fault -/

section FaultingRequests

variable {s : State} {f : FaultKind} {a : Word}

/-- `u` is `s` with a fault at `a` taken, before the translation or after a TLB miss set `walked`. -/
def FaultsAt (f : FaultKind) (a : Word) (s u : State) : Prop :=
  u = takeFault f a s ∨ u = takeFault f a (markWalked s)

/-- A fault after a TLB miss is the spec's record with `walked` 1 (R101, R201). -/
theorem takeFault_markWalked_start : takeFault f a (markWalked (start s)) = faulted f a true false s := rfl

/-- A fault in the second unit's translation is the spec's record with both bits 1 (R101, R133, R201). -/
theorem takeFault_markWalked_markDecoded :
    takeFault f a (markWalked (markDecoded s)) = faulted f a true true s := rfl

/-- A fault taken at the start of a request is the spec's record with the `walked` it answers (R201). -/
theorem FaultsAt.eq_faulted {u : State} (h : FaultsAt f a (start s) u) :
    u = faulted f a u.blk.resp.walked false s := by
  rcases h with rfl | rfl
  · rw [takeFault_start]
    rfl
  · rw [takeFault_markWalked_start]
    rfl

theorem answer_status_ne_fault {r : Word} : (answer r s).blk.resp.status ≠ .fault f := by
  simp

theorem answerFetch_status_ne_fault {r : Word} {h : Handle} :
    (answerFetch r h s).blk.resp.status ≠ .fault f := by
  simp

theorem takeFatal_status_ne_fault : (takeFatal s).blk.resp.status ≠ .fault f := by
  simp

/-- The response of a fault names that fault and no other. -/
theorem takeFault_status_inj {g : FaultKind} {va : Word} (h : (takeFault g va s).blk.resp.status = .fault f) :
    g = f :=
  Status.fault.inj h

/-- A load that faults is misaligned or fails in its translation (R54, R162). -/
theorem loadOp_of_fault {w : Width} {sg : Bool} (h : (loadOp w sg a s).blk.resp.status = .fault f) :
    FaultsAt f a s (loadOp w sg a s) := by
  rcases loadOp_cases w sg a s with
    ⟨-, e⟩ | ⟨pa, t, -, -, -, e⟩ | ⟨pa, t, -, -, -, e⟩ | ⟨g, -, -, e⟩ | ⟨-, -, e⟩ <;> rw [e] at h ⊢
  · obtain rfl := takeFault_status_inj h
    exact .inl rfl
  · exact absurd h answer_status_ne_fault
  · exact absurd h takeFatal_status_ne_fault
  · obtain rfl := takeFault_status_inj h
    exact .inr rfl
  · exact absurd h takeFatal_status_ne_fault

/-- A store that faults is misaligned or fails in its translation (R54, R163). -/
theorem storeOp_of_fault {w : Width} {d : Word} (h : (storeOp w a d s).blk.resp.status = .fault f) :
    FaultsAt f a s (storeOp w a d s) := by
  rcases storeOp_cases w a d s with
    ⟨-, e⟩ | ⟨pa, t, -, -, -, e⟩ | ⟨pa, t, -, -, -, e⟩ | ⟨g, -, -, e⟩ | ⟨-, -, e⟩ <;> rw [e] at h ⊢
  · obtain rfl := takeFault_status_inj h
    exact .inl rfl
  · exact absurd h answer_status_ne_fault
  · exact absurd h takeFatal_status_ne_fault
  · obtain rfl := takeFault_status_inj h
    exact .inr rfl
  · exact absurd h takeFatal_status_ne_fault

/-- A standard fetch that faults fails in its translation (40_fetch.md R130). -/
theorem standardFetch_of_fault (h : (standardFetch a s).blk.resp.status = .fault f) :
    FaultsAt f a s (standardFetch a s) := by
  rcases standardFetch_cases a s with
    ⟨row, -, e⟩ | ⟨pa, t, -, -, -, e⟩ | ⟨pa, t, -, -, -, e⟩ | ⟨g, -, -, e⟩ | ⟨-, -, e⟩ <;> rw [e] at h ⊢
  · exact absurd h answerFetch_status_ne_fault
  · exact absurd h answerFetch_status_ne_fault
  · exact absurd h takeFatal_status_ne_fault
  · obtain rfl := takeFault_status_inj h
    exact .inr rfl
  · exact absurd h takeFatal_status_ne_fault

/-- The second unit of a split fetch faults only in its translation, and records A + 2 (R133). -/
theorem splitHigh_of_fault {lo : BitVec 16} {hd : Handle} (h : (splitHigh a lo hd s).blk.resp.status = .fault f) :
    splitHigh a lo hd s = takeFault f (a + 2) (markWalked s) := by
  rcases splitHigh_cases a lo hd s with ⟨pa, t, -, -, e⟩ | ⟨pa, t, -, -, e⟩ | ⟨g, -, e⟩ | ⟨-, e⟩ <;> rw [e] at h ⊢
  · exact absurd h answerFetch_status_ne_fault
  · exact absurd h takeFatal_status_ne_fault
  · rw [takeFault_status_inj h]
  · exact absurd h takeFatal_status_ne_fault

/-- A split fetch that faults fails in the translation of A, or translates A and fails in that of A + 2 (R133). -/
theorem splitFetch_of_fault (h : (splitFetch a s).blk.resp.status = .fault f) :
    splitFetch a s = takeFault f a (markWalked s) ∨
    ∃ pa t, translateVa a .fetch s = .go pa t ∧
      splitFetch a s = takeFault f (a + 2) (markWalked (markDecoded t)) := by
  rcases splitFetch_cases a s with
    ⟨pa, t, -, -, -, e⟩ | ⟨pa, t, hgo, -, -, e⟩ | ⟨pa, t, -, -, e⟩ | ⟨g, -, e⟩ | ⟨-, e⟩ <;> rw [e] at h ⊢
  · exact absurd h answerFetch_status_ne_fault
  · exact .inr ⟨pa, t, hgo, splitHigh_of_fault h⟩
  · exact absurd h takeFatal_status_ne_fault
  · exact .inl (by rw [takeFault_status_inj h])
  · exact absurd h takeFatal_status_ne_fault

/-- A request that faults and is no split fetch faults at the address it translates. -/
theorem effect_of_fault {i : Instr} (hsplit : isSplitFetch i = false)
    (h : (effect i s).blk.resp.status = .fault f) :
    ∃ k a, accessOf i = some (k, a) ∧ FaultsAt f a s (effect i s) := by
  cases i with
  | loadU8 a | loadU16 a | loadU32 a | loadU64 a | loadS8 a | loadS16 a | loadS32 a | loadS64 a =>
    exact ⟨.load, a, rfl, loadOp_of_fault h⟩
  | storeU8 a d | storeU16 a d | storeU32 a d | storeU64 a d => exact ⟨.store, a, rfl, storeOp_of_fault h⟩
  | fetch v a =>
    have hpath : splitPath v a = false := hsplit
    simp only [effect, hpath, Bool.false_eq_true, if_false] at h ⊢
    exact ⟨.fetch, a, rfl, standardFetch_of_fault h⟩
  | getFaultAddr | getRoot | setRoot _ | setPriv _ | setVm _ | flushTlb | flushIcache =>
    exact absurd h answer_status_ne_fault

/-- A fetch with v = 1 at an address that is 2 modulo 4 takes the split path (R133). -/
theorem effect_fetch_of_split (ha : a.toNat % 4 = 2) : effect (.fetch true a) = splitFetch a := by
  have hpath : splitPath true a = true := (splitPath_eq_true true a).mpr ⟨rfl, ha⟩
  funext s
  rw [effect, if_pos hpath]

end FaultingRequests

/-- Settles O21: the fault is taken before the translation has changed anything but `walked`; the second unit's, after
the first unit's translation, which is one of the relation. -/
theorem faultsArePrecise : Obligations.FaultsArePrecise := by
  constructor
  · intro i s t f hexec hfault hsplit
    obtain ⟨-, -, rfl⟩ := (exec_eq_next i s t).mp hexec
    obtain ⟨k, a, haccess, hat⟩ := effect_of_fault hsplit hfault
    exact ⟨k, a, haccess, hat.eq_faulted⟩
  · intro a s t f ha hexec hfault
    obtain ⟨-, -, rfl⟩ := (exec_eq_next (.fetch true a) s t).mp hexec
    rw [effect_fetch_of_split ha] at hfault ⊢
    rcases splitFetch_of_fault hfault with hfirst | ⟨pa, u, hgo, hsecond⟩
    · left
      rw [hfirst, takeFault_markWalked_start]
    · right
      exact ⟨pa, u, translates_of_translateVa_go hgo, by rw [hsecond, takeFault_markWalked_markDecoded]⟩

end Sys2Proof.Machine

/-! ## Proofs: the icache across other requests (70_reset_and_hazards.md)

What each operation leaves of a lookup at one address; then the effect of every request but a flush of the icache and a
fetch that takes the row. -/

namespace Sys2Proof.Machine

open Sys2Proof

section IcacheLookup

variable {s : State} {a b va : Word} {k : Kind}

/-- A fill of another row leaves what a lookup finds (R131, R134). -/
theorem icacheHit_fillIcache_of_index_ne {bits : BitVec 32} {h : Handle}
    (hne : s.blk.cfg.icacheIndex b ≠ s.blk.cfg.icacheIndex a) :
    icacheHit (fillIcache b bits h s) a = icacheHit s a := by
  rw [icacheHit, fillIcache_icache, fillIcache_cfg, filledRows, List.getElem?_set_ne hne, icacheHit]

/-- A request that translates leaves what a lookup finds, if its last part does: no translation writes the icache, and
neither does a fault or a fatal end (R88). -/
theorem icacheHit_finish_translateVa {last : Word → State → State}
    (hlast : ∀ pa t, t.blk.cfg = s.blk.cfg → icacheHit (last pa t) a = icacheHit t a) :
    icacheHit ((translateVa va k s).finish last) a = icacheHit s a := by
  cases htr : translateVa va k s with
  | go pa t =>
    have hkeeps := translateVa_keepsRest va k s t pa htr
    rw [finish_go, hlast pa t hkeeps.cfg, icacheHit_congr s t a hkeeps.cfg hkeeps.icache]
  | raise f va' t =>
    obtain ⟨-, rfl, -, -⟩ := translateVa_eq_raise va k s t f va' htr
    rfl
  | fatal t =>
    obtain ⟨rfl, -⟩ := translateVa_eq_fatal va k s t htr
    rfl

/-- A load leaves the icache (R88, R162). -/
theorem icacheHit_loadOp (w : Width) (sg : Bool) : icacheHit (loadOp w sg b s) a = icacheHit s a := by
  unfold loadOp
  split
  · refine icacheHit_finish_translateVa fun pa t _ => ?_
    split <;> rfl
  · rfl

/-- A store leaves the icache, whatever bytes it writes (R88, R163). -/
theorem icacheHit_storeOp (w : Width) (d : Word) : icacheHit (storeOp w b d s) a = icacheHit s a := by
  unfold storeOp
  split
  · refine icacheHit_finish_translateVa fun pa t _ => ?_
    split <;> rfl
  · rfl

/-- The second unit of a split fetch is not cached (R133). -/
theorem icacheHit_splitHigh (lo : BitVec 16) (h : Handle) : icacheHit (splitHigh b lo h s) a = icacheHit s a := by
  refine icacheHit_finish_translateVa fun pa t _ => ?_
  split <;> rfl

/-- A split fetch leaves the icache (R133). -/
theorem icacheHit_splitFetch : icacheHit (splitFetch b s) a = icacheHit s a := by
  refine icacheHit_finish_translateVa fun pa t _ => ?_
  split
  · split
    · rfl
    · exact icacheHit_splitHigh _ _
  · rfl

/-- A standard fetch keeps a cached word of another row, and its own, which it hits (R132, R134). -/
theorem icacheHit_standardFetch {row : IcRow} (hhit : icacheHit s a = some row)
    (hne : b = a ∨ s.blk.cfg.icacheIndex b ≠ s.blk.cfg.icacheIndex a) :
    icacheHit (standardFetch b s) a = some row := by
  rcases hne with rfl | hne
  · rw [standardFetch_of_hit hhit]
    exact hhit
  · rw [← hhit, standardFetch]
    split
    · rfl
    · refine icacheHit_finish_translateVa fun pa t hcfg => ?_
      split
      · exact icacheHit_fillIcache_of_index_ne (s := markDecoded t) (by rwa [markDecoded_cfg, hcfg])
      · rfl

/-- The requests that do not evict a cached word: all but a flush of the icache and a standard fetch of another address
of its row (R88, R238). -/
theorem icacheHit_effect {i : Instr} {row : IcRow} (hhit : icacheHit s a = some row) (hflush : i ≠ .flushIcache)
    (hfetch : ∀ v b, i = .fetch v b →
      isSplitFetch i = true ∨ b = a ∨ s.blk.cfg.icacheIndex b ≠ s.blk.cfg.icacheIndex a) :
    icacheHit (effect i s) a = some row := by
  cases i with
  | loadU8 b | loadU16 b | loadU32 b | loadU64 b | loadS8 b | loadS16 b | loadS32 b | loadS64 b =>
    exact (icacheHit_loadOp _ _).trans hhit
  | storeU8 b d | storeU16 b d | storeU32 b d | storeU64 b d => exact (icacheHit_storeOp _ _).trans hhit
  | fetch v b =>
    rw [effect]
    split
    · exact icacheHit_splitFetch.trans hhit
    · next hpath => exact icacheHit_standardFetch hhit ((hfetch v b rfl).resolve_left hpath)
  | getFaultAddr | getRoot | setRoot _ | setPriv _ | setVm _ | flushTlb => exact hhit
  | flushIcache => exact absurd rfl hflush

end IcacheLookup

/-- Settles O48: the request leaves the row in the icache, and the fetch after it returns the row it hits. -/
theorem cachedWordOutlivesOtherRequests : Obligations.CachedWordOutlivesOtherRequests := by
  intro i v a s t row ha hhit hflush hfetch hexec hrun
  obtain ⟨-, -, rfl⟩ := (exec_eq_next i s t).mp hexec
  have hkept : icacheHit (effect i (start s)) a = some row := icacheHit_effect hhit hflush hfetch
  obtain ⟨hrow, htag⟩ := (icacheHit_eq_some _ a row).mp hkept
  exact icacheHitIsReturned v a _ row hrun ha hrow htag

end Sys2Proof.Machine

/-! ## Proofs: the command map (30_encoding.md)

When a record decodes to a request is said once, as an agreement on the fields the request reads; the round trips and
the independence of the unread fields are uses of it. -/

namespace Sys2Proof.Machine

open Sys2Proof

/-! ### Decoding -/

/-- The record `r` has the command of `i`, and the operands of `i` in the fields that `i` reads (R100, R108). -/
def CarriesReadFields (i : Instr) (r : Request) : Prop :=
  i.request.cmd = r.cmd ∧ (readsA i = true → i.request.a = r.a) ∧
    ((storeForm i).isSome = true → i.request.d = r.d)

theorem carriesReadFields_of_decodeRequest {r : Request} {i : Instr} (h : decodeRequest r = .ok i) :
    CarriesReadFields i r := by
  unfold decodeRequest at h
  split at h
  case h_22 => cases h
  all_goals
    rename_i hcmd
    cases h
    refine ⟨(BitVec.eq_of_toNat_eq hcmd).symm, ?_, ?_⟩ <;> simp [readsA, storeForm, Instr.request]

theorem decodeRequest_of_carriesReadFields {r : Request} {i : Instr} (h : CarriesReadFields i r) :
    decodeRequest r = .ok i := by
  obtain ⟨cmd, a, d⟩ := r
  obtain ⟨hcmd, ha, hd⟩ := h
  cases i with
  | fetch v b =>
    obtain rfl : b = a := ha rfl
    subst hcmd
    cases v <;> rfl
  | storeU8 b c | storeU16 b c | storeU32 b c | storeU64 b c =>
    obtain rfl : b = a := ha rfl
    obtain rfl : c = d := hd rfl
    subst hcmd
    rfl
  | loadU8 b | loadU16 b | loadU32 b | loadU64 b | loadS8 b | loadS16 b | loadS32 b | loadS64 b | setRoot b
  | setPriv b | setVm b =>
    obtain rfl : b = a := ha rfl
    subst hcmd
    rfl
  | getFaultAddr | getRoot | flushTlb | flushIcache =>
    subst hcmd
    rfl

/-- Exactly when a record decodes to a request. -/
theorem decodeRequest_eq_ok_iff (r : Request) (i : Instr) : decodeRequest r = .ok i ↔ CarriesReadFields i r :=
  ⟨carriesReadFields_of_decodeRequest, decodeRequest_of_carriesReadFields⟩

/-- Settles O1: the request's own record carries its fields. -/
theorem decodeOfEncodeGivesTheRequest : Obligations.DecodeOfEncodeGivesTheRequest := by
  intro i
  rw [decode, Request.ofBits_encode, decodeRequest_eq_ok_iff]
  exact ⟨rfl, fun _ => rfl, fun _ => rfl⟩

/-- Settles O2: the fields that decoding reads are those of the request's own record. -/
theorem encodeOfDecodeKeepsReadFields : Obligations.EncodeOfDecodeKeepsReadFields := by
  intro w i hdec
  rw [Request.ofBits_encode]
  exact carriesReadFields_of_decodeRequest hdec

/-- Settles O3: agreement on the read fields passes from one record to the other. -/
theorem unreadFieldsAreIgnored : Obligations.UnreadFieldsAreIgnored := by
  intro r r' i hdec hcmd ha hd
  obtain ⟨hcmd', ha', hd'⟩ := carriesReadFields_of_decodeRequest hdec
  exact decodeRequest_of_carriesReadFields
    ⟨hcmd'.trans hcmd.symm, fun h => (ha' h).trans (ha h).symm, fun h => (hd' h).trans (hd h).symm⟩

/-! ### The opcode table -/

/-- A row whose mask keeps all bits covers one command. -/
theorem covers_fullMask {mnemonic : String} {pattern cmd : BitVec 8}
    (h : OpcodeRow.covers ⟨mnemonic, 0xFF, pattern⟩ cmd = true) : cmd = pattern := by
  have hall : cmd &&& 0xFF#8 = cmd := BitVec.and_allOnes
  simpa [OpcodeRow.covers, hall] using h

/-- The FETCH row covers a command for each value of its free bit v. -/
theorem covers_fetchRow {mnemonic : String} {cmd : BitVec 8}
    (h : OpcodeRow.covers ⟨mnemonic, 0xFE, 0x20⟩ cmd = true) : cmd = 0x20 ∨ cmd = 0x21 := by
  have hcases : ∀ c : BitVec 8, (c &&& 0xFE == 0x20) = true → c = 0x20 ∨ c = 0x21 := by decide
  exact hcases cmd h

/-- Every command that a row covers is decoded to a request of that row (R108). -/
theorem decode_of_covered {w : BitVec 136} {row : OpcodeRow} (hrow : row ∈ opcodeTable)
    (hcovers : row.covers (Request.ofBits w).cmd = true) :
    ∃ i, decode w = .ok i ∧ i.mnemonic = row.mnemonic := by
  rcases List.mem_append.mp hrow with hrow | hrow
  · simp only [List.mem_cons, List.not_mem_nil, or_false] at hrow
    rcases hrow with rfl | rfl | rfl | rfl | rfl | rfl | rfl | rfl | rfl | rfl | rfl | rfl <;>
      exact ⟨_, decode_of_cmd (covers_fullMask hcovers), rfl⟩
  · rcases List.mem_cons.mp hrow with rfl | hrow
    · rcases covers_fetchRow hcovers with hcmd | hcmd <;> exact ⟨_, decode_of_cmd hcmd, rfl⟩
    · simp only [List.mem_cons, List.not_mem_nil, or_false] at hrow
      rcases hrow with rfl | rfl | rfl | rfl | rfl | rfl | rfl <;>
        exact ⟨_, decode_of_cmd (covers_fullMask hcovers), rfl⟩

/-- Settles O4: a decoded command is the request's own, which its row covers; a covered command is decoded. -/
theorem commandMapIsTheOpcodeTable : Obligations.CommandMapIsTheOpcodeTable := by
  intro w
  constructor
  · intro i hdec
    obtain ⟨row, hmem, hname, hcovers⟩ := Laws.EncodedRow.statement i
    obtain ⟨hcmd, -, -⟩ := carriesReadFields_of_decodeRequest hdec
    rw [Request.ofBits_encode, hcmd] at hcovers
    exact ⟨row, hmem, hname, hcovers⟩
  · intro row hmem hcovers
    exact decode_of_covered hmem hcovers

/-- Settles O5: each record is evaluated. -/
theorem wordsOfTheSpecDecode : Obligations.WordsOfTheSpecDecode :=
  ⟨rfl, rfl, rfl, rfl, rfl, rfl, rfl⟩

end Sys2Proof.Machine

/-! ## Proofs: the request port, reset and fixed tables (10_state.md, 30_encoding.md, 60_exceptions.md)

What the port holds for each kind of pending request, one rule for each; then the steps, the launch values and the
tables of codes and handles. -/

namespace Sys2Proof.Machine

open Sys2Proof

/-! ### Taking a request -/

section PendingRequest

variable {s t : State} {e : PortEntry} {rest : List PortEntry}

/-- No request has a meaning at a halted instance (R28). -/
theorem exec_of_halted (i : Instr) (h : s.blk.halted = true) : exec i s = .fault .halted := by
  cases i with
  | fetch v a => simp only [exec, execFetch, h, Bool.true_or, if_true, serve_of_halted]
  | _ => rw [exec_eq_serve _ s rfl, serve_of_halted s _ h]

theorem takeRequest_of_badConfiguration (hport : s.port = e :: rest)
    (hsel : select e.block { s with port := rest } = some t) (hbad : ¬ (t.blk.cfg.Ok ∧ 1 ≤ t.memsz)) :
    takeRequest s = .refused .badConfiguration := by
  simp only [takeRequest, hport, hsel, if_neg hbad]

theorem takeRequest_of_halted (hport : s.port = e :: rest)
    (hsel : select e.block { s with port := rest } = some t) (hlegal : t.blk.cfg.Ok ∧ 1 ≤ t.memsz)
    (hhalted : t.blk.halted = true) : takeRequest s = .stuck := by
  simp only [takeRequest, hport, hsel, if_pos hlegal, hhalted, if_true]

theorem takeRequest_of_decode_ok {i : Instr} (hport : s.port = e :: rest)
    (hsel : select e.block { s with port := rest } = some t) (hlegal : t.blk.cfg.Ok ∧ 1 ≤ t.memsz)
    (hrun : t.blk.halted = false) (hdec : decode e.word = .ok i) : takeRequest s = .request i t := by
  simp only [takeRequest, hport, hsel, if_pos hlegal, hrun, hdec, Bool.false_eq_true, if_false]

/-- A step performs the oldest request at the selected instance: where that instance is halted, neither has a next
state (R28, R82). -/
theorem step_eq_exec {i : Instr} (hport : s.port = e :: rest)
    (hsel : select e.block { s with port := rest } = some t) (hlegal : t.blk.cfg.Ok ∧ 1 ≤ t.memsz)
    (hdec : decode e.word = .ok i) : step s = exec i t := by
  cases hhalted : t.blk.halted with
  | true => rw [step, takeRequest_of_halted hport hsel hlegal hhalted, exec_of_halted i hhalted]
  | false => rw [step, takeRequest_of_decode_ok hport hsel hlegal hhalted hdec]

end PendingRequest

/-- Settles O6: whichever way the instance is described, it is the one `select` puts at hand. -/
theorem stepPerformsTheDecodedRequest : Obligations.StepPerformsTheDecodedRequest := by
  refine ⟨?_, ?_, ?_⟩
  · intro s t e rest i hport hsel hcfg hmemsz hdec
    exact step_eq_exec hport hsel ⟨hcfg, hmemsz⟩ hdec
  · intro s e rest i hport hblock hcfg hmemsz hdec
    have hsel : select e.block { s with port := rest } = some { s with port := rest } := by
      rw [hblock]
      exact select_index { s with port := rest }
    exact step_eq_exec hport hsel ⟨hcfg, hmemsz⟩ hdec
  · intro s e rest b i hindex hport haddr hcfg hmemsz hdec
    obtain ⟨t, hsel, rfl, hmz⟩ := select_of_addressed { s with port := rest } e.block b haddr
    obtain ⟨hidx, -, -, hblocks, -, hmem, hport', hdraws⟩ :=
      select_eq_some e.block { s with port := rest } t hindex hsel
    exact ⟨t, step_eq_exec hport hsel ⟨hcfg, hmz ▸ hmemsz⟩ hdec, rfl, hidx, hport', hmem, hmz, hdraws, hblocks⟩

/-- Settles O7: an empty port is idle. -/
theorem idleStepKeepsAllState : Obligations.IdleStepKeepsAllState := by
  intro s hport
  simp only [step, takeRequest, hport]

/-- Settles O9: the selected instance's parameters are tested first. -/
theorem badConfigurationIsRefused : Obligations.BadConfigurationIsRefused := by
  intro s e rest b hport haddr hbad
  obtain ⟨t, hsel, rfl, hmz⟩ := select_of_addressed { s with port := rest } e.block b haddr
  rw [step, takeRequest_of_badConfiguration hport hsel (hmz ▸ hbad)]

/-- Settles O10: HALTED is tested before the command is decoded and before a fetch's alignment. -/
theorem haltedInstanceHasNoStep : Obligations.HaltedInstanceHasNoStep := by
  constructor
  · intro i s hhalted
    exact exec_of_halted i hhalted
  · intro s e rest b hport haddr hcfg hmemsz hhalted
    obtain ⟨t, hsel, rfl, hmz⟩ := select_of_addressed { s with port := rest } e.block b haddr
    rw [step, takeRequest_of_halted hport hsel ⟨hcfg, hmz ▸ hmemsz⟩ hhalted]

/-- Settles O12: such an address breaks the alignment that a fetch tests first. -/
theorem misalignedFetchIsRefused : Obligations.MisalignedFetchIsRefused := by
  intro v a s hrun hmis
  have hfalse : fetchAligned v a = false := by
    rw [← Bool.not_eq_true, fetchAligned_eq_wellFormed, fetch_wellFormed]
    rintro ⟨heven, hv⟩
    rcases hmis with hodd | ⟨rfl, hfour⟩
    · omega
    · exact hv.elim (by decide) hfour
  simp only [exec, execFetch, hrun, hfalse, Bool.or_self, Bool.false_eq_true, if_false]

/-! ### Launch -/

/-- Every row of every TLB array of a new instance is INVALID (R37). -/
theorem construct_rows (c : Config) (k : Kind) :
    (Block.construct c).tlb.rows k = List.replicate c.tlbEntries .invalid := by
  cases k <;> rfl

/-- A new instance is legal: ROOT is a page, and no row is valid (R24, R34, R35, R37). -/
theorem construct_inv (c : Config) : (Block.construct c).Inv where
  root := pageOf_pageOf c c.initRoot
  tlb :=
    { length := fun k => by rw [construct_rows, List.length_replicate]; rfl
      row := fun k i row tag hrow htag => by
        rw [construct_rows] at hrow
        obtain rfl := List.eq_of_mem_replicate (List.mem_of_getElem? hrow)
        cases htag }
  icache :=
    { length := List.length_replicate
      row := fun i row a hrow htag => by
        obtain rfl := List.eq_of_mem_replicate (List.mem_of_getElem? hrow)
        cases htag }
  halted := by constructor <;> intro h <;> cases h

/-- Settles O14: every new instance is legal, and the buffer is the host's. -/
theorem launchIsLegal : Obligations.LaunchIsLegal := by
  have hlaunch : ∀ (memsz : Nat) (mem : Memory) (c : Config) (cs : List Config), mem.wf →
      (∀ x ∈ mem, x.1 < memsz) → (State.launch memsz mem c cs).Inv := by
    intro memsz mem c cs hwf hbound
    refine ⟨hwf, hbound, Nat.zero_le _, construct_inv c, ?_⟩
    intro b hb
    obtain ⟨c', -, rfl⟩ := List.mem_map.mp hb
    exact construct_inv c'
  exact ⟨hlaunch, hlaunch _ _ _ _ ⟨List.Pairwise.nil, by simp⟩ (by simp)⟩

/-- Settles O15: the values are those of the construction, whose rows are all INVALID. -/
theorem launchValues : Obligations.LaunchValues := by
  intro memsz mem c cs
  refine ⟨rfl, rfl, rfl, rfl, fun c' => ⟨rfl, rfl, rfl, rfl, rfl, rfl, fun k => ?_, List.length_replicate, ?_⟩⟩
  · rw [construct_rows]
    refine ⟨List.length_replicate, fun row hrow => ?_⟩
    rw [List.eq_of_mem_replicate hrow, TlbRow.invalid]
  · intro row hrow
    rw [List.eq_of_mem_replicate hrow, IcRow.invalid]

/-! ### Codes, handles and LAST_FAULT -/

/-- Settles O23: the table, row by row. -/
theorem statusCodeTable : Obligations.StatusCodeTable := by
  refine ⟨rfl, rfl, rfl, rfl, rfl, rfl, rfl, rfl, rfl, rfl, rfl, ?_⟩
  intro st
  cases st with
  | ok => decide
  | fault kind => cases kind <;> decide
  | fatal => decide

/-- Two units together: the low 16 bits are the low unit (40_fetch.md R133). -/
theorem toNat_append_units (hi lo : BitVec 16) : (hi ++ lo).toNat = lo.toNat + 2 ^ 16 * hi.toNat := by
  rw [BitVec.toNat_append, ← Nat.shiftLeft_add_eq_or_of_lt lo.isLt, Nat.shiftLeft_eq]
  omega

/-- Settles O46: the two units make a number whose low 16 bits are the low unit, and DTS divides 2^16. -/
theorem lowUnitHandleIsWholeHandle : Obligations.LowUnitHandleIsWholeHandle := by
  intro c hi lo hok
  obtain ⟨-, -, -, -, -, -, -, -, hdts⟩ := hok
  rw [toNat_append_units, handleOf_low c hdts]

/-- Settles O49: the effect is the answer with what a read of LAST_FAULT gives. -/
theorem getFaultAddrAnswersLastFault : Obligations.GetFaultAddrAnswersLastFault := by
  intro s hrun
  have hanswer : exec .getFaultAddr s = .next (answered (readLastFault s) false false s) :=
    exec_eq_answered hrun rfl rfl
  constructor
  · intro hseen
    rw [hanswer, readLastFault, if_pos hseen]
  · intro _
    exact ⟨_, hanswer⟩

end Sys2Proof.Machine

/-! ## Proofs: what a request does (00_scope.md R13, 60_exceptions.md)

A request that translates makes progress by translations of its own kind and then ends in one of seven ways; every other
request is one update answered OK. The whole-machine rules are read off these two facts. -/

namespace Sys2Proof.Machine

open Sys2Proof

/-! ### Progress -/

/-- `s` comes to the given state by translations of kind `k`, of addresses in `A`, and by setting the bits `walked` and
`decoded`. -/
inductive Progress (k : Kind) (A : Word → Prop) (s : State) : State → Prop where
  | refl : Progress k A s s
  | walked {t : State} : Progress k A s t → Progress k A s (markWalked t)
  | decoded {t : State} : Progress k A s t → Progress k A s (markDecoded t)
  | translated {t u : State} {va pa : Word} : A va → Progress k A s t → translateVa va k t = .go pa u →
      Progress k A s u

/-- How a request `i` that translates `a` with kind `k` ends, from the state `u` that its progress has made. -/
inductive Ends (i : Instr) (k : Kind) (a : Word) (u : State) : State → Prop where
  | misaligned {f : FaultKind} : addressAligned i = false →
      (k = .load ∧ f = .misalignedLoad) ∨ (k = .store ∧ f = .misalignedStore) → Ends i k a u (takeFault f a u)
  | raised {f : FaultKind} (va : Word) : f = accessFault k ∨ f = .malformed ∨ f = permFault k →
      Ends i k a u (takeFault f va u)
  | fatal : Ends i k a u (takeFatal u)
  | loaded (r : Word) : Ends i k a u (answer r u)
  | stored {pa : Word} {n : Nat} (v : Nat) : k = .store → pa.toNat + n ≤ u.memsz →
      Ends i k a u (answer 0 (setMem (u.mem.writeLE pa.toNat n v) u))
  | fetched (r : Word) (h : Handle) : Ends i k a u (answerFetch r h u)
  | filled (r : Word) (bits : BitVec 32) : k = .fetch → a.toNat % 4 = 0 → u.blk.resp.decoded = true →
      Ends i k a u (answerFetch r (u.blk.cfg.handleOf bits.toNat)
        (fillIcache a bits (u.blk.cfg.handleOf bits.toNat) u))

/-- The addresses that a request at `a` can translate: a split fetch may translate A + 2 as well (40_fetch.md R133). -/
def Translated (i : Instr) (a va : Word) : Prop :=
  va = a ∨ (isSplitFetch i = true ∧ va = a + 2)

/-- `t` has the parameters, MEMSZ, the other instances and the port of `s`, as after every request (R212, R232). -/
def KeepsSurroundings (s t : State) : Prop :=
  t.memsz = s.memsz ∧ t.blk.cfg = s.blk.cfg ∧ t.index = s.index ∧ t.others = s.others ∧ t.port = s.port

section EndsOfRequests

variable {i : Instr} {k : Kind} {a : Word} {s : State}

theorem translateVa_raise_kind {va va' : Word} {t : State} {f : FaultKind}
    (h : translateVa va k s = .raise f va' t) : f = accessFault k ∨ f = .malformed ∨ f = permFault k := by
  obtain ⟨-, -, -, hkind⟩ := translateVa_eq_raise va k s t f va' h
  exact hkind

/-- The alignment a load needs is that of its width (20_memory.md R54). -/
theorem addressAligned_of_loadForm {w : Width} {sg : Bool} (h : loadForm i = some (w, sg, a)) :
    addressAligned i = aligned w a := by
  rw [Bool.eq_iff_iff, aligned_eq_true]
  cases i <;> simp only [loadForm, Option.some.injEq, Prod.mk.injEq, reduceCtorEq] at h <;>
    obtain ⟨rfl, -, rfl⟩ := h <;> simp [addressAligned, Width.bytes, Nat.mod_one]

/-- The alignment a store needs is that of its width (R54). -/
theorem addressAligned_of_storeForm {w : Width} {d : Word} (h : storeForm i = some (w, a, d)) :
    addressAligned i = aligned w a := by
  rw [Bool.eq_iff_iff, aligned_eq_true]
  cases i <;> simp only [storeForm, Option.some.injEq, Prod.mk.injEq, reduceCtorEq] at h <;>
    obtain ⟨rfl, rfl, -⟩ := h <;> simp [addressAligned, Width.bytes, Nat.mod_one]

/-- A request that translates is a load, a store or a fetch. -/
theorem form_of_accessOf (h : accessOf i = some (k, a)) :
    (k = .load ∧ ∃ w sg, loadForm i = some (w, sg, a)) ∨ (k = .store ∧ ∃ w d, storeForm i = some (w, a, d)) ∨
      (k = .fetch ∧ ∃ v, i = .fetch v a) := by
  cases i with
  | loadU8 b | loadU16 b | loadU32 b | loadU64 b | loadS8 b | loadS16 b | loadS32 b | loadS64 b =>
    obtain ⟨rfl, rfl⟩ := Prod.mk.inj (Option.some.inj h)
    exact .inl ⟨rfl, _, _, rfl⟩
  | storeU8 b d | storeU16 b d | storeU32 b d | storeU64 b d =>
    obtain ⟨rfl, rfl⟩ := Prod.mk.inj (Option.some.inj h)
    exact .inr (.inl ⟨rfl, _, _, rfl⟩)
  | fetch v b =>
    obtain ⟨rfl, rfl⟩ := Prod.mk.inj (Option.some.inj h)
    exact .inr (.inr ⟨rfl, v, rfl⟩)
  | getFaultAddr | getRoot | setRoot _ | setPriv _ | setVm _ | flushTlb | flushIcache => cases h

theorem accessOf_of_loadForm {w : Width} {sg : Bool} (h : loadForm i = some (w, sg, a)) :
    accessOf i = some (.load, a) := by
  cases i <;> simp only [loadForm, Option.some.injEq, Prod.mk.injEq, reduceCtorEq] at h <;>
    obtain ⟨-, -, rfl⟩ := h <;> rfl

theorem accessOf_of_storeForm {w : Width} {d : Word} (h : storeForm i = some (w, a, d)) :
    accessOf i = some (.store, a) := by
  cases i <;> simp only [storeForm, Option.some.injEq, Prod.mk.injEq, reduceCtorEq] at h <;>
    obtain ⟨-, rfl, -⟩ := h <;> rfl

/-- A load accesses the bytes of its width (20_memory.md R58). -/
theorem accessBytes_of_loadForm {w : Width} {sg : Bool} (h : loadForm i = some (w, sg, a)) :
    accessBytes i = w.bytes := by
  cases i <;> simp only [loadForm, Option.some.injEq, Prod.mk.injEq, reduceCtorEq] at h <;>
    obtain ⟨rfl, -, -⟩ := h <;> rfl

/-- A store accesses the bytes of its width (R58). -/
theorem accessBytes_of_storeForm {w : Width} {d : Word} (h : storeForm i = some (w, a, d)) :
    accessBytes i = w.bytes := by
  cases i <;> simp only [storeForm, Option.some.injEq, Prod.mk.injEq, reduceCtorEq] at h <;>
    obtain ⟨rfl, -, -⟩ := h <;> rfl

theorem icacheServes_of_loadForm {w : Width} {sg : Bool} (h : loadForm i = some (w, sg, a)) :
    icacheServes i s = false := by
  cases i <;> simp only [loadForm, reduceCtorEq] at h <;> rfl

theorem icacheServes_of_storeForm {w : Width} {d : Word} (h : storeForm i = some (w, a, d)) :
    icacheServes i s = false := by
  cases i <;> simp only [storeForm, reduceCtorEq] at h <;> rfl

theorem loadOp_ends {w : Width} {sg : Bool} (hform : loadForm i = some (w, sg, a)) :
    ∃ u, Progress .load (Translated i a) s u ∧ Ends i .load a u (loadOp w sg a s) := by
  rcases loadOp_cases w sg a s with
    ⟨hal, e⟩ | ⟨pa, t, -, hgo, -, e⟩ | ⟨pa, t, -, hgo, -, e⟩ | ⟨f, -, hraise, e⟩ | ⟨-, -, e⟩ <;> rw [e]
  · exact ⟨s, .refl, .misaligned (addressAligned_of_loadForm hform ▸ hal) (.inl ⟨rfl, rfl⟩)⟩
  · exact ⟨t, .translated (.inl rfl) .refl hgo, .loaded _⟩
  · exact ⟨t, .translated (.inl rfl) .refl hgo, .fatal⟩
  · exact ⟨markWalked s, .walked .refl, .raised a (translateVa_raise_kind hraise)⟩
  · exact ⟨markWalked s, .walked .refl, .fatal⟩

theorem storeOp_ends {w : Width} {d : Word} (hform : storeForm i = some (w, a, d)) :
    ∃ u, Progress .store (Translated i a) s u ∧ Ends i .store a u (storeOp w a d s) := by
  rcases storeOp_cases w a d s with
    ⟨hal, e⟩ | ⟨pa, t, -, hgo, hb, e⟩ | ⟨pa, t, -, hgo, -, e⟩ | ⟨f, -, hraise, e⟩ | ⟨-, -, e⟩ <;> rw [e]
  · exact ⟨s, .refl, .misaligned (addressAligned_of_storeForm hform ▸ hal) (.inr ⟨rfl, rfl⟩)⟩
  · exact ⟨t, .translated (.inl rfl) .refl hgo, .stored d.toNat rfl hb⟩
  · exact ⟨t, .translated (.inl rfl) .refl hgo, .fatal⟩
  · exact ⟨markWalked s, .walked .refl, .raised a (translateVa_raise_kind hraise)⟩
  · exact ⟨markWalked s, .walked .refl, .fatal⟩

theorem standardFetch_ends (ha : a.toNat % 4 = 0) :
    ∃ u, Progress .fetch (Translated i a) s u ∧ Ends i .fetch a u (standardFetch a s) := by
  rcases standardFetch_cases a s with
    ⟨row, -, e⟩ | ⟨pa, t, -, hgo, -, e⟩ | ⟨pa, t, -, hgo, -, e⟩ | ⟨f, -, hraise, e⟩ | ⟨-, -, e⟩ <;> rw [e]
  · exact ⟨s, .refl, .fetched _ _⟩
  · exact ⟨markDecoded t, .decoded (.translated (.inl rfl) .refl hgo),
      .filled _ (readInsn t pa) rfl ha rfl⟩
  · exact ⟨t, .translated (.inl rfl) .refl hgo, .fatal⟩
  · exact ⟨markWalked s, .walked .refl, .raised a (translateVa_raise_kind hraise)⟩
  · exact ⟨markWalked s, .walked .refl, .fatal⟩

theorem splitHigh_ends {lo : BitVec 16} {h : Handle} {t : State} (hsplit : isSplitFetch i = true)
    (ht : Progress .fetch (Translated i a) s t) :
    ∃ u, Progress .fetch (Translated i a) s u ∧ Ends i .fetch a u (splitHigh a lo h t) := by
  have hsecond : Translated i a (a + 2) := .inr ⟨hsplit, rfl⟩
  rcases splitHigh_cases a lo h t with ⟨pa, u, hgo, -, e⟩ | ⟨pa, u, hgo, -, e⟩ | ⟨f, hraise, e⟩ | ⟨-, e⟩ <;> rw [e]
  · exact ⟨u, .translated hsecond ht hgo, .fetched _ _⟩
  · exact ⟨u, .translated hsecond ht hgo, .fatal⟩
  · exact ⟨markWalked t, .walked ht, .raised (a + 2) (translateVa_raise_kind hraise)⟩
  · exact ⟨markWalked t, .walked ht, .fatal⟩

theorem splitFetch_ends (hsplit : isSplitFetch i = true) :
    ∃ u, Progress .fetch (Translated i a) s u ∧ Ends i .fetch a u (splitFetch a s) := by
  rcases splitFetch_cases a s with
    ⟨pa, t, hgo, -, -, e⟩ | ⟨pa, t, hgo, -, -, e⟩ | ⟨pa, t, hgo, -, e⟩ | ⟨f, hraise, e⟩ | ⟨-, e⟩ <;> rw [e]
  · exact ⟨markDecoded t, .decoded (.translated (.inl rfl) .refl hgo), .fetched _ _⟩
  · exact splitHigh_ends hsplit (.decoded (.translated (.inl rfl) .refl hgo))
  · exact ⟨t, .translated (.inl rfl) .refl hgo, .fatal⟩
  · exact ⟨markWalked s, .walked .refl, .raised a (translateVa_raise_kind hraise)⟩
  · exact ⟨markWalked s, .walked .refl, .fatal⟩

/-- Everything a request that translates can do. -/
theorem effect_ends (haccess : accessOf i = some (k, a)) (hwf : i.wellFormed = true) :
    ∃ u, Progress k (Translated i a) s u ∧ Ends i k a u (effect i s) := by
  rcases form_of_accessOf haccess with ⟨rfl, w, sg, hform⟩ | ⟨rfl, w, d, hform⟩ | ⟨rfl, v, rfl⟩
  · rw [(effect_of_loadForm i w sg a hform).2]
    exact loadOp_ends hform
  · rw [(effect_of_storeForm i w a d hform).2]
    exact storeOp_ends hform
  · rw [effect]
    split
    · next hpath => exact splitFetch_ends hpath
    · next hpath => exact standardFetch_ends (standardPath_aligned v a hwf hpath)

/-- A request that translates nothing answers OK. -/
theorem effect_of_no_access (haccess : accessOf i = none) :
    ∃ r t, effect i s = answer r t ∧ KeepsSurroundings s t ∧ t.mem = s.mem ∧ t.blk.halted = s.blk.halted ∧
      t.blk.lastFault = s.blk.lastFault ∧ t.blk.resp = s.blk.resp := by
  cases i with
  | getFaultAddr | getRoot | setRoot _ | setPriv _ | setVm _ | flushTlb | flushIcache =>
    exact ⟨_, _, rfl, ⟨rfl, rfl, rfl, rfl, rfl⟩, rfl, rfl, rfl, rfl⟩
  | loadU8 _ | loadU16 _ | loadU32 _ | loadU64 _ | loadS8 _ | loadS16 _ | loadS32 _ | loadS64 _ | storeU8 _ _
  | storeU16 _ _ | storeU32 _ _ | storeU64 _ _ | fetch _ _ => cases haccess

end EndsOfRequests

/-! ### What progress and the ends leave unchanged -/

section Frames

variable {i : Instr} {k : Kind} {a : Word} {A : Word → Prop} {s t u : State}

/-- Progress leaves everything but the buffer, the TLB, `walked` and `decoded` (`markDecoded` on both sides sets the
last apart). -/
theorem Progress.keepsRest (h : Progress k A s t) : KeepsRest (markDecoded s) (markDecoded t) := by
  induction h with
  | refl => exact .refl _
  | walked _ ih => exact ih.trans (by constructor <;> rfl)
  | decoded _ ih => exact ih
  | translated _ _ hgo ih =>
    have hstep := translateVa_keepsRest _ _ _ _ _ hgo
    exact ih.trans
      { memsz := hstep.memsz, index := hstep.index, others := hstep.others, port := hstep.port,
        draws := hstep.draws, cfg := hstep.cfg, root := hstep.root, sup := hstep.sup, vm := hstep.vm,
        lastFault := hstep.lastFault, faultSeen := hstep.faultSeen, halted := hstep.halted,
        icache := hstep.icache, decoded := rfl }

/-- Progress leaves the TLB arrays of the other kinds (20_memory.md R81). -/
theorem Progress.rows_ne {k' : Kind} (h : Progress k A s t) (hk : k' ≠ k) :
    t.blk.tlb.rows k' = s.blk.tlb.rows k' := by
  induction h with
  | refl => rfl
  | walked _ ih => exact ih
  | decoded _ ih => exact ih
  | translated _ _ hgo ih => rw [translateVa_rows_ne _ _ _ _ _ _ hgo hk, ih]

/-- A translation writes at most the row of its own page (R68). -/
theorem translateVa_rows_getElem? {va pa : Word} {n : Nat} (h : translateVa va k s = .go pa t)
    (hn : n ≠ s.blk.cfg.tlbIndex va) : (t.blk.tlb.rows k)[n]? = (s.blk.tlb.rows k)[n]? := by
  rcases translateVa_eq_go va k s t pa h with ⟨_, _, _, rfl⟩ | ⟨_, _, _, _, rfl⟩ | ⟨_, _, _, _, _, _, _, _, rfl⟩
  · rfl
  · simp [refilledRows, List.getElem?_set_ne hn.symm]
  · simp [refilledRows, List.getElem?_set_ne hn.symm]

/-- Progress writes only the rows of the pages it translates (R68). -/
theorem Progress.rows_getElem? {n : Nat} (h : Progress k A s t)
    (hn : ∀ va, A va → n ≠ s.blk.cfg.tlbIndex va) : (t.blk.tlb.rows k)[n]? = (s.blk.tlb.rows k)[n]? := by
  induction h with
  | refl => rfl
  | walked _ ih => exact ih
  | decoded _ ih => exact ih
  | @translated t u va _ hva ht hgo ih =>
    have hcfg : t.blk.cfg = s.blk.cfg := ht.keepsRest.cfg
    rw [translateVa_rows_getElem? hgo (hcfg ▸ hn va hva), ih]

/-- No end of a request changes its surroundings. -/
theorem Ends.keepsSurroundings (h : Ends i k a u t) : KeepsSurroundings u t := by
  cases h <;> exact ⟨rfl, rfl, rfl, rfl, rfl⟩

/-- Progress leaves the surroundings. -/
theorem Progress.keepsSurroundings (h : Progress k A s t) : KeepsSurroundings s t :=
  ⟨h.keepsRest.memsz, h.keepsRest.cfg, h.keepsRest.index, h.keepsRest.others, h.keepsRest.port⟩

theorem KeepsSurroundings.trans (h : KeepsSurroundings s t) (h' : KeepsSurroundings t u) : KeepsSurroundings s u := by
  obtain ⟨hmemsz, hcfg, hindex, hothers, hport⟩ := h
  obtain ⟨hmemsz', hcfg', hindex', hothers', hport'⟩ := h'
  exact ⟨hmemsz'.trans hmemsz, hcfg'.trans hcfg, hindex'.trans hindex, hothers'.trans hothers, hport'.trans hport⟩

/-- No end of a request that translates changes ROOT, SUP, VM or the TLB. -/
theorem Ends.keepsModes (h : Ends i k a u t) :
    t.blk.root = u.blk.root ∧ t.blk.sup = u.blk.sup ∧ t.blk.vm = u.blk.vm ∧ t.blk.tlb = u.blk.tlb := by
  cases h <;> exact ⟨rfl, rfl, rfl, rfl⟩

/-- The fault kinds of a request, by the kind of its access (60_exceptions.md R200). -/
def FaultOf (i : Instr) (k : Kind) (f : FaultKind) : Prop :=
  (addressAligned i = false ∧ ((k = .load ∧ f = .misalignedLoad) ∨ (k = .store ∧ f = .misalignedStore))) ∨
    f = accessFault k ∨ f = .malformed ∨ f = permFault k

/-- A request ends OK, with LAST_FAULT and HALTED as they were, or it takes a fault, or it ends fatal (R201,
20_memory.md R63). -/
theorem Ends.status_cases (h : Ends i k a u t) :
    (t.blk.resp.status = .ok ∧ t.blk.lastFault = u.blk.lastFault ∧ t.blk.halted = u.blk.halted) ∨
    (∃ f va, FaultOf i k f ∧ t = takeFault f va u) ∨ t = takeFatal u := by
  cases h with
  | misaligned hmis hkind => exact .inr (.inl ⟨_, _, .inl ⟨hmis, hkind⟩, rfl⟩)
  | raised va hkind => exact .inr (.inl ⟨_, _, .inr hkind, rfl⟩)
  | fatal => exact .inr (.inr rfl)
  | loaded _ => exact .inl ⟨rfl, rfl, rfl⟩
  | stored _ _ _ => exact .inl ⟨rfl, rfl, rfl⟩
  | fetched _ _ => exact .inl ⟨rfl, rfl, rfl⟩
  | filled _ _ _ _ _ => exact .inl ⟨rfl, rfl, rfl⟩

/-- A request that faults does so with a kind of its access. -/
theorem Ends.faultOf (h : Ends i k a u t) {f : FaultKind} (hfault : t.blk.resp.status = .fault f) :
    FaultOf i k f := by
  rcases h.status_cases with ⟨hok, -⟩ | ⟨g, va, hkind, rfl⟩ | rfl
  · rw [hok] at hfault
    cases hfault
  · exact takeFault_status_inj hfault ▸ hkind
  · cases hfault

end Frames

end Sys2Proof.Machine

/-! ## Proofs: whole-machine rules (10_state.md, 60_exceptions.md)

What a request leaves unchanged, which requests change which registers and cache rows, and the invariant. -/

namespace Sys2Proof.Machine

open Sys2Proof

/-! ### The surroundings of a request -/

section Surroundings

variable {i : Instr} {s t : State}

theorem effect_keepsSurroundings (hwf : i.wellFormed = true) : KeepsSurroundings s (effect i s) := by
  cases haccess : accessOf i with
  | none =>
    obtain ⟨r, t, e, hkeeps, -⟩ := effect_of_no_access (s := s) haccess
    rw [e]
    exact hkeeps
  | some ka =>
    obtain ⟨u, hprogress, hends⟩ := effect_ends (s := s) haccess hwf
    exact hprogress.keepsSurroundings.trans hends.keepsSurroundings

theorem exec_keepsSurroundings (h : exec i s = .next t) : KeepsSurroundings s t := by
  obtain ⟨-, hwf, rfl⟩ := (exec_eq_next i s t).mp h
  exact effect_keepsSurroundings (s := start s) hwf

/-- A list with one entry replaced by another that `f` does not tell from it has the same image under `f`. -/
theorem map_set_of_eq {α β : Type} {f : α → β} {l : List α} {n : Nat} {b b' : α} (hb : l[n]? = some b)
    (hf : f b' = f b) : (l.set n b').map f = l.map f := by
  apply List.ext_getElem?
  intro j
  rw [List.getElem?_map, List.getElem?_map, List.getElem?_set]
  split
  · next hj =>
    subst hj
    split
    · rw [hb, Option.map_some, Option.map_some, hf]
    · next hlen => rw [List.getElem?_eq_none (Nat.le_of_not_lt hlen)]
  · rfl

/-- A step that takes a request replaces the instance it names, in the list of instances and nowhere else (R212). -/
theorem step_blocks {e : PortEntry} {rest : List PortEntry} (hindex : s.index ≤ s.others.length)
    (hport : s.port = e :: rest) (hstep : step s = .next t) :
    ∃ b, s.blocks[e.block]? = some b ∧ t.blk.cfg = b.cfg ∧ t.blocks = s.blocks.set e.block t.blk ∧
      t.memsz = s.memsz ∧ t.port = rest := by
  rcases step_eq_next s t hstep with ⟨hidle, -⟩ | ⟨e', rest', i, u, hport', hsel, -, -, -, -, hexec⟩
  · rw [hport] at hidle
    cases hidle
  · obtain ⟨rfl, rfl⟩ := List.cons.inj (hport.symm.trans hport')
    obtain ⟨hidx, hle, hblk, hblocks, hmemsz, -, hrest, -⟩ :=
      select_eq_some e.block { s with port := rest } u hindex hsel
    obtain ⟨hmemsz', hcfg, hidx', hothers, hport''⟩ := exec_keepsSurroundings hexec
    have hset : t.blocks = u.blocks.set u.index t.blk := blocks_eq_set u t hidx' hothers hle
    rw [hblocks, hidx] at hset
    exact ⟨u.blk, hblk, hcfg, hset, hmemsz'.trans hmemsz, hport''.trans hrest⟩

end Surroundings

/-- Settles O11: the next state is the request's effect, whose surroundings are those before. -/
theorem everyRequestCompletes : Obligations.EveryRequestCompletes := by
  intro i s hrun hwf
  exact ⟨effect i (start s), (exec_eq_next i s _).mpr ⟨hrun, hwf, rfl⟩, effect_keepsSurroundings (s := start s) hwf⟩

/-- Settles O16: the one instance that a step replaces keeps its parameters. -/
theorem configurationIsFixed : Obligations.ConfigurationIsFixed := by
  intro s t hindex hstep
  cases hport : s.port with
  | nil =>
    rw [idleStepKeepsAllState s hport] at hstep
    cases hstep
    exact ⟨rfl, rfl⟩
  | cons e rest =>
    obtain ⟨b, hb, hcfg, hblocks, hmemsz, -⟩ := step_blocks hindex hport hstep
    rw [hblocks, map_set_of_eq hb hcfg]
    exact ⟨hmemsz, rfl⟩

/-- Settles O17: the list of instances differs in the named one alone. -/
theorem stepLeavesOtherInstances : Obligations.StepLeavesOtherInstances := by
  intro s t e rest hindex hport hstep
  obtain ⟨b, -, -, hblocks, -, hrest⟩ := step_blocks hindex hport hstep
  rw [hblocks]
  exact ⟨hrest, List.length_set, fun j hj => List.getElem?_set_ne hj.symm⟩

/-! ### Registers -/

section Registers

variable {i : Instr} {k : Kind} {a : Word} {s t : State}

/-- ROOT, SUP and VM change only by the request that writes them (R182 to R184). -/
theorem effect_modes (hwf : i.wellFormed = true) :
    ((effect i s).blk.root ≠ s.blk.root → ∃ b, i = .setRoot b) ∧
    ((effect i s).blk.sup ≠ s.blk.sup → ∃ b, i = .setPriv b) ∧
    ((effect i s).blk.vm ≠ s.blk.vm → ∃ b, i = .setVm b) := by
  cases haccess : accessOf i with
  | none =>
    cases i with
    | setRoot b => exact ⟨fun _ => ⟨b, rfl⟩, absurd rfl, absurd rfl⟩
    | setPriv b => exact ⟨absurd rfl, fun _ => ⟨b, rfl⟩, absurd rfl⟩
    | setVm b => exact ⟨absurd rfl, absurd rfl, fun _ => ⟨b, rfl⟩⟩
    | getFaultAddr | getRoot | flushTlb | flushIcache => exact ⟨absurd rfl, absurd rfl, absurd rfl⟩
    | loadU8 _ | loadU16 _ | loadU32 _ | loadU64 _ | loadS8 _ | loadS16 _ | loadS32 _ | loadS64 _ | storeU8 _ _
    | storeU16 _ _ | storeU32 _ _ | storeU64 _ _ | fetch _ _ => cases haccess
  | some ka =>
    obtain ⟨u, hprogress, hends⟩ := effect_ends (s := s) haccess hwf
    obtain ⟨hroot, hsup, hvm, -⟩ := hends.keepsModes
    have hkeeps := hprogress.keepsRest
    exact ⟨absurd (hroot.trans hkeeps.root), absurd (hsup.trans hkeeps.sup), absurd (hvm.trans hkeeps.vm)⟩

/-- How a request ends: OK with LAST_FAULT and HALTED as they were, with a fault, or fatal, from a state whose registers
are those before. -/
theorem effect_status_cases (hwf : i.wellFormed = true) :
    ((effect i s).blk.resp.status = .ok ∧ (effect i s).blk.lastFault = s.blk.lastFault ∧
      (effect i s).blk.halted = s.blk.halted) ∨
    (∃ f va u, KeepsRest (markDecoded s) (markDecoded u) ∧ effect i s = takeFault f va u) ∨
    (∃ u, KeepsRest (markDecoded s) (markDecoded u) ∧ effect i s = takeFatal u) := by
  cases haccess : accessOf i with
  | none =>
    obtain ⟨r, t, e, -, -, hhalted, hlast, -⟩ := effect_of_no_access (s := s) haccess
    rw [e]
    exact .inl ⟨rfl, hlast, hhalted⟩
  | some ka =>
    obtain ⟨u, hprogress, hends⟩ := effect_ends (s := s) haccess hwf
    have hkeeps := hprogress.keepsRest
    rcases hends.status_cases with ⟨hok, hlast, hhalted⟩ | ⟨f, va, -, e⟩ | e
    · exact .inl ⟨hok, hlast.trans hkeeps.lastFault, hhalted.trans hkeeps.halted⟩
    · exact .inr (.inl ⟨f, va, u, hkeeps, e⟩)
    · exact .inr (.inr ⟨u, hkeeps, e⟩)

end Registers

/-- Settles O19: the modes by the request, LAST_FAULT and HALTED by the way it ends. -/
theorem onlyTheirRequestsChangeRegisters : Obligations.OnlyTheirRequestsChangeRegisters := by
  intro i s t hexec
  obtain ⟨-, hwf, rfl⟩ := (exec_eq_next i s t).mp hexec
  obtain ⟨hroot, hsup, hvm⟩ := effect_modes (s := start s) hwf
  refine ⟨hroot, hsup, hvm, ?_⟩
  rcases effect_status_cases (s := start s) hwf with ⟨-, hlast, hhalted⟩ | ⟨f, va, u, hkeeps, e⟩ | ⟨u, hkeeps, e⟩
  · exact ⟨absurd hlast, absurd hhalted⟩
  · rw [e]
    exact ⟨fun _ => ⟨f, rfl⟩, absurd hkeeps.halted⟩
  · rw [e]
    exact ⟨absurd hkeeps.lastFault, fun _ => rfl⟩

/-- Settles O20: the request ended by `takeFatal`, and a halted instance performs nothing. -/
theorem fatalEndIsTerminal : Obligations.FatalEndIsTerminal := by
  intro i s t hexec hfatal
  obtain ⟨-, hwf, rfl⟩ := (exec_eq_next i s t).mp hexec
  rcases effect_status_cases (s := start s) hwf with ⟨hok, -⟩ | ⟨f, va, u, -, e⟩ | ⟨u, hkeeps, e⟩
  · rw [hok] at hfatal
    cases hfatal
  · rw [e] at hfatal
    cases hfatal
  · rw [e]
    exact ⟨rfl, hkeeps.lastFault, hkeeps.faultSeen, fun j => exec_of_halted j rfl⟩

/-! ### Fault kinds -/

theorem effect_faultOf {i : Instr} {k : Kind} {a : Word} {s : State} {f : FaultKind}
    (haccess : accessOf i = some (k, a)) (hwf : i.wellFormed = true)
    (hfault : (effect i s).blk.resp.status = .fault f) : FaultOf i k f := by
  obtain ⟨u, -, hends⟩ := effect_ends (s := s) haccess hwf
  exact hends.faultOf hfault

/-- Settles O22: the kinds of the access that the request makes. -/
theorem faultKindsOfEachRequest : Obligations.FaultKindsOfEachRequest := by
  intro i s t hexec
  obtain ⟨-, hwf, rfl⟩ := (exec_eq_next i s t).mp hexec
  constructor
  · intro haccess
    obtain ⟨r, u, e, -⟩ := effect_of_no_access (s := start s) haccess
    rw [e, answer_resp]
  · intro f hfault
    refine ⟨fun hload => ?_, fun hstore => ?_, fun v a hfetch => ?_⟩
    · obtain ⟨⟨w, sg, a⟩, hform⟩ := Option.isSome_iff_exists.mp hload
      rcases effect_faultOf (accessOf_of_loadForm hform) hwf hfault with
        ⟨hmis, ⟨-, rfl⟩ | ⟨⟨⟩, -⟩⟩ | rfl | rfl | rfl
      · exact .inl ⟨rfl, hmis⟩
      · exact .inr (.inl rfl)
      · exact .inr (.inr (.inr rfl))
      · exact .inr (.inr (.inl rfl))
    · obtain ⟨⟨w, a, d⟩, hform⟩ := Option.isSome_iff_exists.mp hstore
      rcases effect_faultOf (accessOf_of_storeForm hform) hwf hfault with
        ⟨hmis, ⟨⟨⟩, -⟩ | ⟨-, rfl⟩⟩ | rfl | rfl | rfl
      · exact .inl ⟨rfl, hmis⟩
      · exact .inr (.inl rfl)
      · exact .inr (.inr (.inr rfl))
      · exact .inr (.inr (.inl rfl))
    · subst hfetch
      rcases effect_faultOf (i := .fetch v a) rfl hwf hfault with ⟨-, ⟨⟨⟩, -⟩ | ⟨⟨⟩, -⟩⟩ | rfl | rfl | rfl
      · exact .inl rfl
      · exact .inr (.inr rfl)
      · exact .inr (.inl rfl)

/-! ### Cache rows -/

section CacheRows

variable {i : Instr} {k : Kind} {a : Word} {s t u : State}

/-- Only an OK fetch that decoded ends with another icache, and it overwrites the row of its address (40_fetch.md
R134). -/
theorem Ends.icache (h : Ends i k a u t) :
    t.blk.icache = u.blk.icache ∨
    (k = .fetch ∧ a.toNat % 4 = 0 ∧ t.blk.resp.status = .ok ∧ t.blk.resp.decoded = true ∧
      ∀ n, n ≠ u.blk.cfg.icacheIndex a → t.blk.icache[n]? = u.blk.icache[n]?) := by
  cases h with
  | filled r bits hk ha hdecoded =>
    refine .inr ⟨hk, ha, rfl, hdecoded, fun n hn => ?_⟩
    rw [answerFetch_icache, fillIcache_icache, filledRows, List.getElem?_set_ne hn.symm]
  | misaligned _ _ => exact .inl rfl
  | raised _ _ => exact .inl rfl
  | fatal => exact .inl rfl
  | loaded _ => exact .inl rfl
  | stored _ _ _ => exact .inl rfl
  | fetched _ _ => exact .inl rfl

/-- A request that translates nothing leaves the TLB unless it flushes it, and the icache unless it flushes it. -/
theorem effect_caches_of_no_access (haccess : accessOf i = none) :
    ((effect i s).blk.tlb = s.blk.tlb ∨ i = .flushTlb ∨ ∃ b, i = .setRoot b) ∧
      ((effect i s).blk.icache = s.blk.icache ∨ i = .flushIcache) := by
  cases i with
  | flushTlb => exact ⟨.inr (.inl rfl), .inl rfl⟩
  | setRoot b => exact ⟨.inr (.inr ⟨b, rfl⟩), .inl rfl⟩
  | flushIcache => exact ⟨.inl rfl, .inr rfl⟩
  | getFaultAddr | getRoot | setPriv _ | setVm _ => exact ⟨.inl rfl, .inl rfl⟩
  | loadU8 _ | loadU16 _ | loadU32 _ | loadU64 _ | loadS8 _ | loadS16 _ | loadS32 _ | loadS64 _ | storeU8 _ _
  | storeU16 _ _ | storeU32 _ _ | storeU64 _ _ | fetch _ _ => cases haccess

theorem effect_rows_of_access {k' : Kind} (haccess : accessOf i = some (k, a)) (hwf : i.wellFormed = true)
    (hk : k' ≠ k) : (effect i s).blk.tlb.rows k' = s.blk.tlb.rows k' := by
  obtain ⟨u, hprogress, hends⟩ := effect_ends (s := s) haccess hwf
  obtain ⟨-, -, -, htlb⟩ := hends.keepsModes
  rw [htlb, hprogress.rows_ne hk]

theorem effect_rows_getElem? (haccess : accessOf i = some (k, a)) (hwf : i.wellFormed = true)
    (hsplit : isSplitFetch i = false) {n : Nat} (hn : n ≠ s.blk.cfg.tlbIndex a) :
    ((effect i s).blk.tlb.rows k)[n]? = (s.blk.tlb.rows k)[n]? := by
  obtain ⟨u, hprogress, hends⟩ := effect_ends (s := s) haccess hwf
  obtain ⟨-, -, -, htlb⟩ := hends.keepsModes
  rw [htlb]
  refine hprogress.rows_getElem? fun va hva => ?_
  rcases hva with rfl | ⟨hsplit', -⟩
  · exact hn
  · rw [hsplit] at hsplit'
    cases hsplit'

end CacheRows

/-- Settles O24: the arrays of the kind translated, the rows of the pages translated, and the row of an OK fetch. -/
theorem cachesChangeOnlyByTheirRequests : Obligations.CachesChangeOnlyByTheirRequests := by
  intro i s t hexec
  obtain ⟨-, hwf, rfl⟩ := (exec_eq_next i s t).mp hexec
  refine ⟨fun k hne => ?_, fun k a haccess hsplit n hn => ?_, fun hne => ?_⟩
  · cases haccess : accessOf i with
    | none =>
      obtain ⟨htlb | hi, -⟩ := effect_caches_of_no_access (s := start s) haccess
      · exact absurd (congrArg (Tlb.rows · k) htlb) hne
      · exact hi.imp_right .inl
    | some ka =>
      obtain ⟨k', a⟩ := ka
      by_cases hk : k = k'
      · exact .inr (.inr ⟨a, by rw [hk]⟩)
      · exact absurd (effect_rows_of_access (s := start s) haccess hwf hk) hne
  · exact effect_rows_getElem? (s := start s) haccess hwf hsplit hn
  · cases haccess : accessOf i with
    | none =>
      obtain ⟨-, hicache | hi⟩ := effect_caches_of_no_access (s := start s) haccess
      · exact absurd hicache hne
      · exact .inl hi
    | some ka =>
      obtain ⟨k, a⟩ := ka
      obtain ⟨u, hprogress, hends⟩ := effect_ends (s := start s) haccess hwf
      have hkeeps := hprogress.keepsRest
      rcases hends.icache with hsame | ⟨rfl, ha, hok, hdecoded, hrows⟩
      · exact absurd (hsame.trans hkeeps.icache) hne
      · right
        obtain ⟨⟨⟩, -⟩ | ⟨⟨⟩, -⟩ | ⟨-, v, hi⟩ := form_of_accessOf haccess
        have hcfg : u.blk.cfg = s.blk.cfg := hkeeps.cfg
        have hicache : u.blk.icache = s.blk.icache := hkeeps.icache
        rw [hcfg, hicache] at hrows
        exact ⟨v, a, hi, ha, hok, hdecoded, hrows⟩

end Sys2Proof.Machine

/-! ## Proofs: the invariant (10_state.md, 20_memory.md)

`Sound` is the part of the invariant that holds in the middle of a request as well. Each operation keeps it, so progress
and the ends of a request do; HALTED and the status are then those of the end. -/

namespace Sys2Proof.Machine

open Sys2Proof

/-- The buffer and the instance at hand are legal, whatever HALTED and the response are. -/
structure Sound (s : State) : Prop where
  memWf : s.mem.wf
  memBound : ∀ c ∈ s.mem, c.1 < s.memsz
  root : Formula.page s.blk.cfg s.blk.root = s.blk.root
  tlb : s.blk.TlbOk
  icache : s.blk.IcacheOk

section Caches

variable {s t : State} {k : Kind} {va base : Word}

/-- The legality of the TLB speaks of the parameters and the arrays alone. -/
theorem tlbOk_congr {b b' : Block} (h : b.TlbOk) (hcfg : b'.cfg = b.cfg) (htlb : b'.tlb = b.tlb) : b'.TlbOk where
  length k := by
    rw [htlb, hcfg]
    exact h.length k
  row k i row tag := by
    rw [htlb, hcfg]
    exact h.row k i row tag

/-- The legality of the icache speaks of the parameters and the rows alone. -/
theorem icacheOk_congr {b b' : Block} (h : b.IcacheOk) (hcfg : b'.cfg = b.cfg) (hicache : b'.icache = b.icache) :
    b'.IcacheOk where
  length := by
    rw [hicache, hcfg]
    exact h.length
  row i row a := by
    rw [hicache, hcfg]
    exact h.row i row a

/-- A refill with a page keeps the TLB legal: the row written stands at its tag's index (R34, R68). -/
theorem tlbOk_refill (h : s.blk.TlbOk) (hbase : s.blk.cfg.pageOf base = base) : (refill k va base s).blk.TlbOk where
  length k' := by
    rw [refill_tlb, Tlb.rows_setRows]
    split
    · next hk => rw [refilledRows, List.length_set, h.length k, refill_cfg]
    · exact h.length k'
  row k' i row tag hrow htag := by
    rw [refill_tlb, Tlb.rows_setRows] at hrow
    split at hrow
    · rw [refilledRows, List.getElem?_set] at hrow
      split at hrow
      · next hi =>
        obtain ⟨-, hrow⟩ := (Option.ite_none_right_eq_some).mp hrow
        obtain rfl := Option.some.inj hrow
        obtain rfl := Option.some.inj htag
        rw [Formula.tlbRow_eq, Formula.page_eq, Formula.page_eq, refill_cfg, tlbIndex_pageOf, pageOf_pageOf]
        exact ⟨hi.symm, rfl, hbase⟩
      · exact h.row k i row tag hrow htag
    · exact h.row k' i row tag hrow htag

/-- Invalid rows are legal whatever they hold (R170). -/
theorem tlbOk_invalidateTlb (h : s.blk.TlbOk) : (invalidateTlb s).blk.TlbOk where
  length k := by
    rw [invalidateTlb_rows, List.length_map, h.length k, invalidateTlb_cfg]
  row k i row tag hrow htag := by
    rw [invalidateTlb_rows, List.getElem?_map] at hrow
    obtain ⟨old, -, rfl⟩ := Option.map_eq_some_iff.mp hrow
    cases htag

/-- A fill with the handle of its bits keeps the icache legal: the row stands at its tag's index (R35, R134). -/
theorem icacheOk_fillIcache {a : Word} {bits : BitVec 32} (h : s.blk.IcacheOk) (ha : a.toNat % 4 = 0) :
    (fillIcache a bits (s.blk.cfg.handleOf bits.toNat) s).blk.IcacheOk where
  length := by
    rw [fillIcache_icache, filledRows, List.length_set, h.length, fillIcache_cfg]
  row i row tag hrow htag := by
    rw [fillIcache_icache, filledRows, List.getElem?_set] at hrow
    split at hrow
    · next hi =>
      obtain ⟨-, hrow⟩ := (Option.ite_none_right_eq_some).mp hrow
      obtain rfl := Option.some.inj hrow
      obtain rfl := Option.some.inj htag
      rw [Formula.icacheRow_eq, Formula.handle_eq, fillIcache_cfg]
      exact ⟨hi.symm, ha, rfl⟩
    · exact h.row i row tag hrow htag

theorem icacheOk_invalidateIcache (h : s.blk.IcacheOk) : (invalidateIcache s).blk.IcacheOk where
  length := by
    rw [invalidateIcache_icache, List.length_map, h.length, invalidateIcache_cfg]
  row i row tag hrow htag := by
    rw [invalidateIcache_icache, List.getElem?_map] at hrow
    obtain ⟨old, -, rfl⟩ := Option.map_eq_some_iff.mp hrow
    cases htag

/-- A translation keeps the TLB legal: what it installs is a page, or the base of a PPN (R34, R69, R79). -/
theorem translateVa_tlbOk {pa : Word} (hgo : translateVa va k s = .go pa t) (h : s.blk.TlbOk) : t.blk.TlbOk := by
  rcases translateVa_eq_go va k s t pa hgo with ⟨_, _, _, rfl⟩ | ⟨_, _, _, _, rfl⟩ | ⟨_, _, _, _, _, _, _, _, rfl⟩
  · exact h
  · exact tlbOk_refill (s := markWalked s) (tlbOk_congr h rfl rfl) (pageOf_pageOf _ _)
  · refine tlbOk_refill ?_ ?_
    · rw [updateRD_blk]
      exact tlbOk_congr h rfl rfl
    · rw [updateRD_blk]
      exact pageOf_ppnBase _ _

end Caches

section Requests

variable {i : Instr} {k : Kind} {a : Word} {A : Word → Prop} {s t u : State}

/-- Soundness speaks of the buffer, MEMSZ, the parameters, ROOT and the caches alone. -/
theorem Sound.congr (h : Sound s) (hmem : t.mem = s.mem) (hmemsz : t.memsz = s.memsz) (hcfg : t.blk.cfg = s.blk.cfg)
    (hroot : t.blk.root = s.blk.root) (htlb : t.blk.tlb = s.blk.tlb) (hicache : t.blk.icache = s.blk.icache) :
    Sound t where
  memWf := hmem ▸ h.memWf
  memBound := by
    rw [hmem, hmemsz]
    exact h.memBound
  root := by
    rw [hcfg, hroot]
    exact h.root
  tlb := tlbOk_congr h.tlb hcfg htlb
  icache := icacheOk_congr h.icache hcfg hicache

theorem translateVa_sound {va pa : Word} (hgo : translateVa va k s = .go pa t) (h : Sound s) : Sound t := by
  have hkeeps := translateVa_keepsRest va k s t pa hgo
  exact
    { memWf := translateVa_wf va k s t pa hgo h.memWf
      memBound := translateVa_bound va k s t pa hgo h.memBound
      root := by
        rw [hkeeps.cfg, hkeeps.root]
        exact h.root
      tlb := translateVa_tlbOk hgo h.tlb
      icache := icacheOk_congr h.icache hkeeps.cfg hkeeps.icache }

theorem Progress.sound (h : Progress k A s t) (hs : Sound s) : Sound t := by
  induction h with
  | refl => exact hs
  | walked _ ih => exact ih.congr rfl rfl rfl rfl rfl rfl
  | decoded _ ih => exact ih.congr rfl rfl rfl rfl rfl rfl
  | translated _ _ hgo ih => exact translateVa_sound hgo ih

/-- A write within MEMSZ keeps the buffer legal (20_memory.md R50, R62). -/
theorem sound_setMem_writeLE {x n v : Nat} (h : Sound s) (hb : x + n ≤ s.memsz) :
    Sound (setMem (s.mem.writeLE x n v) s) where
  memWf := Memory.wf_writeLE _ _ _ _ h.memWf
  memBound c hc := by
    rcases Memory.mem_writeLE _ _ _ _ _ hc with hin | hold
    · exact Nat.lt_of_lt_of_le hin.2 hb
    · exact h.memBound c hold
  root := h.root
  tlb := h.tlb
  icache := h.icache

theorem sound_fillIcache {bits : BitVec 32} (h : Sound s) (ha : a.toNat % 4 = 0) :
    Sound (fillIcache a bits (s.blk.cfg.handleOf bits.toNat) s) :=
  ⟨h.memWf, h.memBound, h.root, tlbOk_congr h.tlb rfl rfl, icacheOk_fillIcache h.icache ha⟩

theorem sound_setRoot (h : Sound s) : Sound (setRoot a s) :=
  ⟨h.memWf, h.memBound, pageOf_pageOf _ a, tlbOk_congr h.tlb rfl rfl, icacheOk_congr h.icache rfl rfl⟩

theorem sound_invalidateTlb (h : Sound s) : Sound (invalidateTlb s) :=
  ⟨h.memWf, h.memBound, h.root, tlbOk_invalidateTlb h.tlb, icacheOk_congr h.icache rfl rfl⟩

theorem sound_invalidateIcache (h : Sound s) : Sound (invalidateIcache s) :=
  ⟨h.memWf, h.memBound, h.root, tlbOk_congr h.tlb rfl rfl, icacheOk_invalidateIcache h.icache⟩

theorem sound_answer {r : Word} (h : Sound s) : Sound (answer r s) := h.congr rfl rfl rfl rfl rfl rfl

theorem Ends.sound (h : Ends i k a u t) (hu : Sound u) : Sound t := by
  cases h with
  | stored v _ hb => exact sound_answer (sound_setMem_writeLE hu hb)
  | filled r bits _ ha _ => exact (sound_fillIcache (bits := bits) hu ha).congr rfl rfl rfl rfl rfl rfl
  | misaligned _ _ => exact hu.congr rfl rfl rfl rfl rfl rfl
  | raised _ _ => exact hu.congr rfl rfl rfl rfl rfl rfl
  | fatal => exact hu.congr rfl rfl rfl rfl rfl rfl
  | loaded r => exact sound_answer hu
  | fetched _ _ => exact hu.congr rfl rfl rfl rfl rfl rfl

/-- A request that translates nothing keeps the state sound: ROOT gets a page, and a flush leaves no valid row. -/
theorem effect_sound_of_no_access (haccess : accessOf i = none) (h : Sound s) : Sound (effect i s) := by
  cases i with
  | setRoot b => exact sound_answer (sound_invalidateTlb (sound_setRoot h))
  | flushTlb => exact sound_answer (sound_invalidateTlb h)
  | flushIcache => exact sound_answer (sound_invalidateIcache h)
  | getFaultAddr | getRoot | setPriv _ | setVm _ => exact h.congr rfl rfl rfl rfl rfl rfl
  | loadU8 _ | loadU16 _ | loadU32 _ | loadU64 _ | loadS8 _ | loadS16 _ | loadS32 _ | loadS64 _ | storeU8 _ _
  | storeU16 _ _ | storeU32 _ _ | storeU64 _ _ | fetch _ _ => cases haccess

theorem effect_sound (hwf : i.wellFormed = true) (h : Sound s) : Sound (effect i s) := by
  cases haccess : accessOf i with
  | none => exact effect_sound_of_no_access haccess h
  | some ka =>
    obtain ⟨u, hprogress, hends⟩ := effect_ends (s := s) haccess hwf
    exact hends.sound (hprogress.sound h)

/-- After a request of a running instance HALTED is 1 exactly if the request ended fatal (R63). -/
theorem effect_halted_iff (hwf : i.wellFormed = true) (hrun : s.blk.halted = false) :
    (effect i s).blk.halted = true ↔ (effect i s).blk.resp.status = .fatal := by
  rcases effect_status_cases (s := s) hwf with ⟨hok, -, hhalted⟩ | ⟨f, va, u, hkeeps, e⟩ | ⟨u, -, e⟩
  · simp [hok, hhalted, hrun]
  · have hhalted : u.blk.halted = false := hkeeps.halted.trans hrun
    simp [e, hhalted]
  · simp [e]

/-! ### The whole state -/

theorem State.Inv.sound (h : s.Inv) : Sound s :=
  ⟨h.memWf, h.memBound, h.blk.root, h.blk.tlb, h.blk.icache⟩

/-- Every instance is legal exactly if the one at hand and the others are. -/
theorem mem_blocks_inv_iff (hindex : s.index ≤ s.others.length) :
    (∀ b ∈ s.blocks, b.Inv) ↔ s.blk.Inv ∧ ∀ b ∈ s.others, b.Inv := by
  simp only [State.blocks, List.mem_insertIdx hindex, forall_eq_or_imp]

/-- Putting another instance at hand keeps the state legal: it changes no instance (R212). -/
theorem select_inv {n : Nat} (hsel : select n s = some t) (h : s.Inv) : t.Inv := by
  obtain ⟨-, hindex, -, hblocks, hmemsz, hmem, -, -⟩ := select_eq_some n s t h.index hsel
  have hall : ∀ b ∈ t.blocks, b.Inv := hblocks ▸ (mem_blocks_inv_iff h.index).mpr ⟨h.blk, h.others⟩
  obtain ⟨hblk, hothers⟩ := (mem_blocks_inv_iff hindex).mp hall
  refine ⟨hmem ▸ h.memWf, ?_, hindex, hblk, hothers⟩
  rw [hmem, hmemsz]
  exact h.memBound

/-- A request keeps the state legal. -/
theorem exec_inv (hexec : exec i s = .next t) (h : s.Inv) : t.Inv := by
  obtain ⟨hrun, hwf, rfl⟩ := (exec_eq_next i s t).mp hexec
  obtain ⟨-, -, hindex, hothers, -⟩ := effect_keepsSurroundings (s := start s) hwf
  have hsound : Sound (effect i (start s)) := effect_sound hwf (h.sound.congr rfl rfl rfl rfl rfl rfl)
  refine ⟨hsound.memWf, hsound.memBound, ?_, ?_, ?_⟩
  · rw [hindex, hothers]
    exact h.index
  · exact ⟨hsound.root, hsound.tlb, hsound.icache, effect_halted_iff hwf hrun⟩
  · rw [hothers]
    exact h.others

end Requests

/-- Settles O13: taking a request from the port changes no instance, and its performance keeps the state legal. -/
theorem stepKeepsTheStateLegal : Obligations.StepKeepsTheStateLegal := by
  intro s t hinv hstep
  rcases step_eq_next s t hstep with ⟨-, rfl⟩ | ⟨e, rest, i, u, -, hsel, -, -, -, -, hexec⟩
  · exact hinv
  · have hport : State.Inv { s with port := rest } :=
      ⟨hinv.memWf, hinv.memBound, hinv.index, hinv.blk, hinv.others⟩
    exact exec_inv hexec (select_inv hsel hport)

end Sys2Proof.Machine

/-! ## Proofs: the translation is the spec's (20_memory.md)

The walk at each table it reaches, in both directions: what it does there by the PTE it reads, and what it read where it
ended. -/

namespace Sys2Proof.Machine

open Sys2Proof

section WalkEnds

variable {s : State} {va base pte addr : Word} {k : Kind} {n : Nat} {f : FaultKind}

/-- R73: a PTE with V = 0 ends the walk at any level. -/
theorem walk_of_invalid (hpte : PteAt s (s.blk.cfg.pteAddr base va n) pte) (hv : pte.getLsbD pteV = false) :
    walk s k va n base = .fault (accessFault k) := by
  cases n <;> simp [walk, readPte_eq_some_iff_pteAt.mpr hpte, hv]

/-- R75: a valid PTE with T = 0 above the last level is malformed. -/
theorem walk_of_earlyLeaf (hpte : PteAt s (s.blk.cfg.pteAddr base va (n + 1)) pte) (hv : pte.getLsbD pteV = true)
    (ht : pte.getLsbD pteT = false) : walk s k va (n + 1) base = .fault .malformed := by
  simp [walk, readPte_eq_some_iff_pteAt.mpr hpte, hv, ht]

/-- R75: a valid table descriptor at the last level is malformed. -/
theorem walk_of_lateTable (hpte : PteAt s (s.blk.cfg.pteAddr base va 0) pte) (hv : pte.getLsbD pteV = true)
    (ht : pte.getLsbD pteT = true) : walk s k va 0 base = .fault .malformed := by
  simp [walk, readPte_eq_some_iff_pteAt.mpr hpte, hv, ht]

/-- R62: a PTE out of bounds ends the walk at any level. -/
theorem walk_of_outOfBounds (h : s.memsz < (s.blk.cfg.pteAddr base va n).toNat + s.blk.cfg.pteBytes) :
    walk s k va n base = .outOfBounds := by
  cases n <;> simp [walk, (readPte_eq_none ..).mpr h]

/-- What the walk read where it faulted (R73, R75). -/
theorem walk_fault_cases (h : walk s k va n base = .fault f) :
    (∃ pte, PteAt s (s.blk.cfg.pteAddr base va n) pte ∧ pte.getLsbD pteV = false ∧ f = accessFault k) ∨
    (n = 0 ∧ f = .malformed ∧
      ∃ pte, PteAt s (s.blk.cfg.pteAddr base va 0) pte ∧ pte.getLsbD pteV = true ∧ pte.getLsbD pteT = true) ∨
    (∃ m pte, n = m + 1 ∧ f = .malformed ∧ PteAt s (s.blk.cfg.pteAddr base va (m + 1)) pte ∧
      pte.getLsbD pteV = true ∧ pte.getLsbD pteT = false) ∨
    (∃ m pte, n = m + 1 ∧ PteAt s (s.blk.cfg.pteAddr base va (m + 1)) pte ∧ pte.getLsbD pteV = true ∧
      pte.getLsbD pteT = true ∧ walk s k va m (ppnBase s.blk.cfg pte) = .fault f) := by
  cases n with
  | zero =>
    rw [walk] at h
    split at h
    · cases h
    · next pte hread =>
      have hpte := readPte_eq_some_iff_pteAt.mp hread
      split_ifs at h with hv ht <;> cases h
      · exact .inr (.inl ⟨rfl, rfl, pte, hpte, hv, ht⟩)
      · exact .inl ⟨pte, hpte, by simpa using hv, rfl⟩
  | succ m =>
    rw [walk] at h
    split at h
    · cases h
    · next pte hread =>
      have hpte := readPte_eq_some_iff_pteAt.mp hread
      split_ifs at h with hv ht
      · exact .inr (.inr (.inr ⟨m, pte, rfl, hpte, hv, ht, h⟩))
      · cases h
        exact .inr (.inr (.inl ⟨m, pte, rfl, rfl, hpte, hv, by simpa using ht⟩))
      · cases h
        exact .inl ⟨pte, hpte, by simpa using hv, rfl⟩

/-- What the walk read where it left the buffer (R62). -/
theorem walk_outOfBounds_cases (h : walk s k va n base = .outOfBounds) :
    s.memsz < (s.blk.cfg.pteAddr base va n).toNat + s.blk.cfg.pteBytes ∨
    (∃ m pte, n = m + 1 ∧ PteAt s (s.blk.cfg.pteAddr base va (m + 1)) pte ∧ pte.getLsbD pteV = true ∧
      pte.getLsbD pteT = true ∧ walk s k va m (ppnBase s.blk.cfg pte) = .outOfBounds) := by
  cases n with
  | zero =>
    rw [walk] at h
    split at h
    · next hread => exact .inl ((readPte_eq_none ..).mp hread)
    · split_ifs at h
  | succ m =>
    rw [walk] at h
    split at h
    · next hread => exact .inl ((readPte_eq_none ..).mp hread)
    · next pte hread =>
      split_ifs at h with hv ht
      exact .inr ⟨m, pte, rfl, readPte_eq_some_iff_pteAt.mp hread, hv, ht, h⟩

/-- A walk that faults, from any table on the way, is a fault of the spec's relation. -/
theorem translateFaults_of_walk (hmiss : tlbBase s k va = none) (hvm : s.blk.vm = true)
    (hva : va.toNat < 2 ^ s.blk.cfg.vaBits) (hreach : Reaches s va n base) (h : walk s k va n base = .fault f) :
    TranslateFaults s va k f := by
  induction n generalizing base with
  | zero =>
    rcases walk_fault_cases h with
      ⟨pte, hpte, hv, rfl⟩ | ⟨-, rfl, pte, hpte, hv, ht⟩ | ⟨m, pte, ⟨⟩, -⟩ | ⟨m, pte, ⟨⟩, -⟩
    · rw [← Formula.accessFault_eq]
      exact .invalid hmiss hvm hva hreach (by rwa [Formula.pteAddr_eq]) hv
    · exact .lateTable hmiss hvm hva hreach (by rwa [Formula.pteAddr_eq]) hv ht
  | succ n ih =>
    rcases walk_fault_cases h with
      ⟨pte, hpte, hv, rfl⟩ | ⟨⟨⟩, -⟩ | ⟨m, pte, ⟨⟩, rfl, hpte, hv, ht⟩ | ⟨m, pte, ⟨⟩, hpte, hv, ht, hrest⟩
    · rw [← Formula.accessFault_eq]
      exact .invalid hmiss hvm hva hreach (by rwa [Formula.pteAddr_eq]) hv
    · exact .earlyLeaf hmiss hvm hva hreach (by rwa [Formula.pteAddr_eq]) hv ht
    · exact ih (.descend hreach (by rwa [Formula.pteAddr_eq]) hv ht) hrest

/-- A walk that leaves the buffer does so at a table that the relation reaches. -/
theorem reaches_of_walk_outOfBounds (hreach : Reaches s va n base) (h : walk s k va n base = .outOfBounds) :
    ∃ m b, Reaches s va m b ∧ s.memsz < (s.blk.cfg.pteAddr b va m).toNat + s.blk.cfg.pteBytes := by
  induction n generalizing base with
  | zero =>
    rcases walk_outOfBounds_cases h with hout | ⟨m, pte, ⟨⟩, -⟩
    exact ⟨0, base, hreach, hout⟩
  | succ n ih =>
    rcases walk_outOfBounds_cases h with hout | ⟨m, pte, ⟨⟩, hpte, hv, ht, hrest⟩
    · exact ⟨n + 1, base, hreach, hout⟩
    · exact ih (.descend hreach (by rwa [Formula.pteAddr_eq]) hv ht) hrest

/-- With VM = 1 a walk that faults raises its fault at the address translated (R73, R75). -/
theorem engine_of_walk_fault (hvm : s.blk.vm = true) (hva : s.blk.cfg.beyondVa va = false)
    (hwalk : walk s k va (s.blk.cfg.levels - 1) s.blk.root = .fault f) : engine va k s = .raise f va s := by
  simp [engine, hvm, engineOn, hva, hwalk]

/-- With VM = 1 a walk that leaves the buffer ends fatal (R62). -/
theorem engine_of_walk_outOfBounds (hvm : s.blk.vm = true) (hva : s.blk.cfg.beyondVa va = false)
    (hwalk : walk s k va (s.blk.cfg.levels - 1) s.blk.root = .outOfBounds) : engine va k s = .fatal s := by
  simp [engine, hvm, engineOn, hva, hwalk]

/-- With VM = 1 a permitted leaf gives its base and gets its R/D update (R78, R79). -/
theorem engine_of_permitted_leaf (hvm : s.blk.vm = true) (hva : s.blk.cfg.beyondVa va = false)
    (hwalk : walk s k va (s.blk.cfg.levels - 1) s.blk.root = .leaf addr pte)
    (hperm : permBit k s.blk.sup pte = true) :
    engine va k s = .go (ppnBase s.blk.cfg pte) (updateRD k addr pte s) := by
  simp [engine, hvm, engineOn, hva, hwalk, hperm]

/-- A walk with VM = 1 that faults raises that fault from `translate`. -/
theorem translateVa_of_walk_fault (hmiss : tlbBase s k va = none) (hvm : s.blk.vm = true)
    (hva : va.toNat < 2 ^ s.blk.cfg.vaBits) (hreach : Reaches s va n base) (h : walk s k va n base = .fault f) :
    translateVa va k s = .raise f va (markWalked s) := by
  rw [← beyondVa_eq_false_iff] at hva
  refine translateVa_of_engine_raise hmiss (engine_of_walk_fault hvm hva ?_)
  rw [walk_markWalked]
  exact (walk_of_reaches hreach).trans h

end WalkEnds

section BothDirections

variable {s t : State} {va pa va' : Word} {k : Kind} {f : FaultKind}

/-- What the relation gives, the machine does. -/
theorem translateVa_of_translates (h : Translates s va k pa t) : translateVa va k s = .go pa t := by
  cases h with
  | hit hhit => exact translateVa_of_hit hhit
  | identity hmiss hvm hva => exact (identityTranslation s va k hmiss hvm).2 hva
  | @walked addr pte hmiss hvm hva hleaf hperm =>
    rw [Formula.vaBits_eq, ← beyondVa_eq_false_iff] at hva
    rw [Formula.permBit_eq] at hperm
    have hwalk : walk (markWalked s) k va (s.blk.cfg.levels - 1) s.blk.root = .leaf addr pte := by
      rw [walk_markWalked, walk_of_leafAt hleaf]
    rw [translateVa_of_engine_go hmiss (engine_of_permitted_leaf hvm hva hwalk hperm),
      updateRD_eq_setMem_leafWritten, installed_eq_refill]
    rfl

/-- What the relation faults on, the machine raises, with only `walked` set. -/
theorem translateVa_of_translateFaults (h : TranslateFaults s va k f) :
    translateVa va k s = .raise f va (markWalked s) := by
  cases h with
  | highBits hmiss hvm hva =>
    rw [Formula.accessFault_eq]
    exact translateVa_of_engine_raise hmiss (engine_of_beyondVa hvm ((beyondVa_iff ..).mpr hva))
  | invalid hmiss hvm hva hreach hpte hv =>
    rw [Formula.pteAddr_eq] at hpte
    rw [Formula.accessFault_eq]
    exact translateVa_of_walk_fault hmiss hvm hva hreach (walk_of_invalid hpte hv)
  | earlyLeaf hmiss hvm hva hreach hpte hv ht =>
    rw [Formula.pteAddr_eq] at hpte
    exact translateVa_of_walk_fault hmiss hvm hva hreach (walk_of_earlyLeaf hpte hv ht)
  | lateTable hmiss hvm hva hreach hpte hv ht =>
    rw [Formula.pteAddr_eq] at hpte
    exact translateVa_of_walk_fault hmiss hvm hva hreach (walk_of_lateTable hpte hv ht)
  | denied hmiss hvm hva hleaf hperm =>
    exact deniedLeafRaisesThePermissionFault s va _ _ k hmiss hvm hva hleaf hperm

/-- Where the relation leaves the buffer, the machine ends fatal, with only `walked` set. -/
theorem translateVa_of_translateFatal (h : TranslateFatal s va k) : translateVa va k s = .fatal (markWalked s) := by
  cases h with
  | outside hmiss hvm hva => exact (identityTranslation s va k hmiss hvm).1 hva
  | pteOutside hmiss hvm hva hreach hout =>
    rw [Formula.vaBits_eq, ← beyondVa_eq_false_iff] at hva
    rw [Formula.pteAddr_eq] at hout
    refine translateVa_of_engine_fatal hmiss (engine_of_walk_outOfBounds hvm hva ?_)
    rw [walk_markWalked]
    exact (walk_of_reaches hreach).trans (walk_of_outOfBounds hout)

/-- A fault that the machine raises is one of the relation. -/
theorem translateFaults_of_translateVa (h : translateVa va k s = .raise f va' t) : TranslateFaults s va k f := by
  rcases translateVa_cases va k s with
    ⟨_, _, e⟩ | ⟨_, _, _, _, e⟩ | ⟨f', va'', t', hmiss, he, e⟩ | ⟨_, _, _, e⟩ <;> rw [e] at h <;> cases h
  rcases engine_cases va k (markWalked s) with ⟨_, _, e⟩ | ⟨_, _, e⟩ | ⟨hvm, hva, e⟩ | ⟨_, _, _, e⟩ |
    ⟨g, hvm, hva, hwalk, e⟩ | ⟨_, _, _, _, _, _, e⟩ | ⟨addr, pte, hvm, hva, hwalk, hperm, e⟩ <;>
    rw [e] at he <;> cases he
  · rw [← Formula.accessFault_eq]
    exact .highBits hmiss hvm ((beyondVa_iff ..).mp hva)
  · rw [walk_markWalked] at hwalk
    exact translateFaults_of_walk hmiss hvm ((beyondVa_eq_false_iff ..).mp hva) .root hwalk
  · rw [walk_markWalked] at hwalk
    rw [← Formula.permBit_eq] at hperm
    rw [← Formula.permFault_eq]
    exact .denied hmiss hvm ((beyondVa_eq_false_iff ..).mp hva) (leafAt_of_walk .root hwalk) hperm

/-- A fatal end of the machine's translation is one of the relation. -/
theorem translateFatal_of_translateVa (h : translateVa va k s = .fatal t) : TranslateFatal s va k := by
  rcases translateVa_cases va k s with
    ⟨_, _, e⟩ | ⟨_, _, _, _, e⟩ | ⟨_, _, _, _, _, e⟩ | ⟨t', hmiss, he, e⟩ <;> rw [e] at h <;> cases h
  rcases engine_cases va k (markWalked s) with ⟨hvm, hva, e⟩ | ⟨_, _, e⟩ | ⟨_, _, e⟩ | ⟨hvm, hva, hwalk, e⟩ |
    ⟨_, _, _, _, e⟩ | ⟨_, _, _, _, _, _, e⟩ | ⟨_, _, _, _, _, _, e⟩ <;> rw [e] at he <;> cases he
  · exact .outside hmiss hvm hva
  · rw [walk_markWalked] at hwalk
    obtain ⟨m, b, hreach, hout⟩ := reaches_of_walk_outOfBounds .root hwalk
    exact .pteOutside hmiss hvm ((beyondVa_eq_false_iff ..).mp hva) hreach (by rwa [Formula.pteAddr_eq])

end BothDirections

/-- Settles O29: both directions of each end; a translation that stops has set `walked` alone. -/
theorem translateFollowsTheRules : Obligations.TranslateFollowsTheRules := by
  intro s va k
  refine ⟨fun pa t => ⟨translates_of_translateVa_go, translateVa_of_translates⟩, fun f va' t => ⟨fun h => ?_, ?_⟩,
    fun t => ⟨fun h => ?_, ?_⟩⟩
  · obtain ⟨hva, ht, -, -⟩ := translateVa_eq_raise va k s t f va' h
    exact ⟨translateFaults_of_translateVa h, hva, ht⟩
  · rintro ⟨h, rfl, rfl⟩
    exact translateVa_of_translateFaults h
  · exact ⟨translateFatal_of_translateVa h, (translateVa_eq_fatal va k s t h).1⟩
  · rintro ⟨h, rfl⟩
    exact translateVa_of_translateFatal h

end Sys2Proof.Machine

/-! ## Proofs: changes beside a request (60_exceptions.md R211, R212; 20_memory.md R67, R69)

A change of the state that no part of a request sees goes through the request: the other instances, SUP while VM = 0,
and every mode on a cache hit. -/

namespace Sys2Proof.Machine

open Sys2Proof

/-- The phase with the state it carries changed. -/
def Phase.mapState {α : Type} (g : State → State) (p : Phase α) : Phase α :=
  match p with
  | .go a s => .go a (g s)
  | .raise f va s => .raise f va (g s)
  | .fatal s => .fatal (g s)

/-- `g` leaves what the parts of a request read, but for ROOT, SUP and VM, and what they write does not meet it. -/
structure ActsBeside (g : State → State) : Prop where
  memsz : ∀ s, (g s).memsz = s.memsz
  mem : ∀ s, (g s).mem = s.mem
  cfg : ∀ s, (g s).blk.cfg = s.blk.cfg
  tlb : ∀ s, (g s).blk.tlb = s.blk.tlb
  icache : ∀ s, (g s).blk.icache = s.blk.icache
  comm_markWalked : ∀ s, markWalked (g s) = g (markWalked s)
  comm_markDecoded : ∀ s, markDecoded (g s) = g (markDecoded s)
  comm_setMem : ∀ m s, setMem m (g s) = g (setMem m s)
  comm_refill : ∀ k va base s, refill k va base (g s) = g (refill k va base s)
  comm_fillIcache : ∀ a bits h s, fillIcache a bits h (g s) = g (fillIcache a bits h s)
  comm_answer : ∀ r s, answer r (g s) = g (answer r s)
  comm_answerFetch : ∀ r h s, answerFetch r h (g s) = g (answerFetch r h s)
  comm_takeFault : ∀ f va s, takeFault f va (g s) = g (takeFault f va s)
  comm_takeFatal : ∀ s, takeFatal (g s) = g (takeFatal s)

/-- Other instances and another port act beside every request. -/
theorem actsBeside_withOthers (n : Nat) (o : List Block) (p : List PortEntry) : ActsBeside (withOthers n o p) := by
  constructor <;> intros <;> rfl

/-- Other modes act beside what does not read them. -/
theorem actsBeside_withModes (root : Word) (sup vm : Bool) : ActsBeside (withModes root sup vm) := by
  constructor <;> intros <;> rfl

theorem actsBeside_setSup (b : Bool) : ActsBeside (setSup b) := by
  constructor <;> intros <;> rfl

theorem actsBeside_markDecoded : ActsBeside markDecoded := by
  constructor <;> intros <;> rfl

section Parts

variable {g : State → State} (hg : ActsBeside g) {s : State} {a va : Word} {k : Kind}
include hg

/-! ### Translation -/

theorem ActsBeside.tlbBase_eq : tlbBase (g s) k va = tlbBase s k va :=
  tlbBase_congr s (g s) k va (hg.cfg s) (by rw [hg.tlb])

theorem ActsBeside.updateRD_eq {addr pte : Word} : updateRD k addr pte (g s) = g (updateRD k addr pte s) := by
  unfold updateRD
  split
  · rfl
  · rw [hg.mem, hg.cfg, hg.comm_setMem]

/-- The engine reads ROOT and SUP with VM = 1 alone (R69, R72, R76). -/
theorem ActsBeside.engine_eq (hvm : (g s).blk.vm = s.blk.vm)
    (hmodes : s.blk.vm = true → (g s).blk.root = s.blk.root ∧ (g s).blk.sup = s.blk.sup) :
    engine va k (g s) = (engine va k s).mapState g := by
  cases hon : s.blk.vm with
  | false =>
    simp only [engine, hvm, hon, Bool.false_eq_true, if_false, engineOff, hg.memsz, hg.cfg]
    split <;> rfl
  | true =>
    obtain ⟨hroot, hsup⟩ := hmodes hon
    have hwalk : walk (g s) k va (s.blk.cfg.levels - 1) s.blk.root = walk s k va (s.blk.cfg.levels - 1) s.blk.root :=
      walk_congr s (g s) k va _ _ (hg.cfg s) (hg.mem s) (hg.memsz s)
    simp only [engine, hvm, hon, if_true, engineOn, hg.cfg, hroot, hsup, hwalk, hg.updateRD_eq]
    split
    · rfl
    · split
      · rfl
      · rfl
      · split <;> rfl

/-- A change beside the request goes through a translation that does not read it. -/
theorem ActsBeside.translateVa_eq (hvm : (g s).blk.vm = s.blk.vm)
    (hmodes : s.blk.vm = true → (g s).blk.root = s.blk.root ∧ (g s).blk.sup = s.blk.sup) :
    translateVa va k (g s) = (translateVa va k s).mapState g := by
  cases hhit : tlbBase s k va with
  | some base =>
    rw [translateVa_of_hit hhit, translateVa_of_hit (hg.tlbBase_eq.trans hhit), hg.cfg, Phase.mapState]
  | none =>
    have hvm' : (g (markWalked s)).blk.vm = (markWalked s).blk.vm := by rw [← hg.comm_markWalked]; exact hvm
    have hmodes' : (markWalked s).blk.vm = true → (g (markWalked s)).blk.root = (markWalked s).blk.root ∧
        (g (markWalked s)).blk.sup = (markWalked s).blk.sup := by rw [← hg.comm_markWalked]; exact hmodes
    rw [translateVa_of_miss hhit, translateVa_of_miss (hg.tlbBase_eq.trans hhit), hg.comm_markWalked,
      hg.engine_eq hvm' hmodes']
    cases engine va k (markWalked s) with
    | go base t => simp only [Phase.mapState, Phase.andThen, hg.cfg, hg.comm_refill]
    | raise f va' t => rfl
    | fatal t => rfl

/-- A TLB hit reads none of the modes (R67). -/
theorem ActsBeside.translateVa_eq_of_hit {base : Word} (hhit : tlbBase s k va = some base) :
    translateVa va k (g s) = (translateVa va k s).mapState g := by
  rw [translateVa_of_hit hhit, translateVa_of_hit (hg.tlbBase_eq.trans hhit), hg.cfg, Phase.mapState]

/-! ### Requests that translate -/

theorem ActsBeside.finish_eq {α : Type} {p : Phase α} {last : α → State → State}
    (hlast : ∀ x t, p = .go x t → last x (g t) = g (last x t)) : (p.mapState g).finish last = g (p.finish last) := by
  cases p with
  | go x t => exact hlast x t rfl
  | raise f va t => exact hg.comm_takeFault f va t
  | fatal t => exact hg.comm_takeFatal t

theorem ActsBeside.inBounds_eq {pa : Word} {n : Nat} : inBounds (g s) pa n = inBounds s pa n := by
  rw [inBounds, inBounds, hg.memsz]

theorem ActsBeside.loadOp_eq (w : Width) (sg : Bool)
    (htr : translateVa a .load (g s) = (translateVa a .load s).mapState g) :
    loadOp w sg a (g s) = g (loadOp w sg a s) := by
  unfold loadOp
  split
  · rw [htr]
    refine hg.finish_eq fun pa t _ => ?_
    rw [hg.inBounds_eq]
    split
    · rw [hg.mem, hg.comm_answer]
    · exact hg.comm_takeFatal t
  · exact hg.comm_takeFault _ _ s

theorem ActsBeside.storeOp_eq (w : Width) (d : Word)
    (htr : translateVa a .store (g s) = (translateVa a .store s).mapState g) :
    storeOp w a d (g s) = g (storeOp w a d s) := by
  unfold storeOp
  split
  · rw [htr]
    refine hg.finish_eq fun pa t _ => ?_
    rw [hg.inBounds_eq]
    split
    · rw [hg.mem, hg.comm_setMem, hg.comm_answer]
    · exact hg.comm_takeFatal t
  · exact hg.comm_takeFault _ _ s

theorem ActsBeside.standardFetch_eq
    (htr : icacheHit s a = none → translateVa a .fetch (g s) = (translateVa a .fetch s).mapState g) :
    standardFetch a (g s) = g (standardFetch a s) := by
  have hicache : icacheHit (g s) a = icacheHit s a := icacheHit_congr s (g s) a (hg.cfg s) (hg.icache s)
  unfold standardFetch
  rw [hicache]
  cases hhit : icacheHit s a with
  | some row => exact hg.comm_answerFetch _ _ s
  | none =>
    simp only [htr hhit]
    refine hg.finish_eq fun pa t _ => ?_
    have hread : readInsn (g t) pa = readInsn t pa := by rw [readInsn, hg.mem, readInsn]
    rw [hg.inBounds_eq, hread, hg.cfg]
    split
    · rw [hg.comm_markDecoded, hg.comm_fillIcache, hg.comm_answerFetch]
    · exact hg.comm_takeFatal t

theorem ActsBeside.readHalf_eq {pa : Word} : readHalf (g s) pa = readHalf s pa := by
  rw [readHalf, hg.mem, readHalf]

theorem ActsBeside.splitHigh_eq (lo : BitVec 16) (h : Handle)
    (htr : translateVa (a + 2) .fetch (g s) = (translateVa (a + 2) .fetch s).mapState g) :
    splitHigh a lo h (g s) = g (splitHigh a lo h s) := by
  unfold splitHigh
  rw [htr]
  refine hg.finish_eq fun pa t _ => ?_
  rw [hg.inBounds_eq, hg.readHalf_eq]
  split
  · exact hg.comm_answerFetch _ _ t
  · exact hg.comm_takeFatal t

theorem ActsBeside.splitFetch_eq
    (htr : translateVa a .fetch (g s) = (translateVa a .fetch s).mapState g)
    (htr' : ∀ pa t, translateVa a .fetch s = .go pa t →
      translateVa (a + 2) .fetch (g (markDecoded t)) =
        (translateVa (a + 2) .fetch (markDecoded t)).mapState g) :
    splitFetch a (g s) = g (splitFetch a s) := by
  unfold splitFetch
  rw [htr]
  refine hg.finish_eq fun pa t hgo => ?_
  rw [hg.inBounds_eq, hg.readHalf_eq, hg.cfg, hg.comm_markDecoded]
  split
  · split
    · exact hg.comm_answerFetch _ _ _
    · exact hg.splitHigh_eq _ _ (htr' pa t hgo)
  · exact hg.comm_takeFatal t

/-- A change beside a request goes through it, if it goes through every translation made with the request's VM. -/
theorem ActsBeside.effect_eq {i : Instr} {ka : Kind × Word} (haccess : accessOf i = some ka)
    (htr : ∀ va k t, t.blk.vm = s.blk.vm → translateVa va k (g t) = (translateVa va k t).mapState g) :
    effect i (g s) = g (effect i s) := by
  cases i with
  | loadU8 b | loadU16 b | loadU32 b | loadU64 b | loadS8 b | loadS16 b | loadS32 b | loadS64 b =>
    exact hg.loadOp_eq _ _ (htr b .load s rfl)
  | storeU8 b d | storeU16 b d | storeU32 b d | storeU64 b d => exact hg.storeOp_eq _ d (htr b .store s rfl)
  | fetch v b =>
    rw [effect, effect]
    split
    · refine hg.splitFetch_eq (htr b .fetch s rfl) fun pa t hgo => htr _ _ _ ?_
      exact (translateVa_keepsRest b .fetch s t pa hgo).vm
    · exact hg.standardFetch_eq fun _ => htr b .fetch s rfl
  | getFaultAddr | getRoot | setRoot _ | setPriv _ | setVm _ | flushTlb | flushIcache => cases haccess

end Parts

/-- A request whose effect does not meet a change does the same with it. -/
theorem exec_eq_of_effect_eq {g : State → State} {i : Instr} {s t : State} (hstart : start (g s) = g (start s))
    (hhalted : (g s).blk.halted = s.blk.halted)
    (heffect : effect i (g (start s)) = g (effect i (start s))) (hexec : exec i s = .next t) :
    exec i (g s) = .next (g t) := by
  obtain ⟨hrun, hwf, rfl⟩ := (exec_eq_next i s t).mp hexec
  refine (exec_eq_next i (g s) _).mpr ⟨hhalted.trans hrun, hwf, ?_⟩
  rw [hstart, heffect]

/-- A translation does not read `decoded`. -/
theorem translateVa_markDecoded (va : Word) (k : Kind) (s : State) :
    translateVa va k (markDecoded s) = (translateVa va k s).mapState markDecoded :=
  actsBeside_markDecoded.translateVa_eq rfl fun _ => ⟨rfl, rfl⟩

/-- Settles O18: the other instances and the port act beside every part of a request. -/
theorem requestReadsNoOtherInstance : Obligations.RequestReadsNoOtherInstance := by
  intro i s t n o p hexec
  have hg := actsBeside_withOthers n o p
  refine exec_eq_of_effect_eq rfl rfl ?_ hexec
  cases haccess : accessOf i with
  | none =>
    cases i with
    | getFaultAddr | getRoot | setRoot _ | setPriv _ | setVm _ | flushTlb | flushIcache => rfl
    | loadU8 _ | loadU16 _ | loadU32 _ | loadU64 _ | loadS8 _ | loadS16 _ | loadS32 _ | loadS64 _ | storeU8 _ _
    | storeU16 _ _ | storeU32 _ _ | storeU64 _ _ | fetch _ _ => cases haccess
  | some ka => exact hg.effect_eq haccess fun va k t _ => hg.translateVa_eq rfl fun _ => ⟨rfl, rfl⟩

/-- Settles O26: with VM = 0 the engine does not read SUP, and no request that leaves it does. -/
theorem privilegeHasNoEffectWithTranslationOff : Obligations.PrivilegeHasNoEffectWithTranslationOff := by
  intro i s t b hvm hpriv hexec
  have hg := actsBeside_setSup b
  refine exec_eq_of_effect_eq (g := setSup b) rfl rfl ?_ hexec
  cases haccess : accessOf i with
  | none =>
    cases i with
    | setPriv a => exact absurd rfl (hpriv a)
    | getFaultAddr | getRoot | setRoot _ | setVm _ | flushTlb | flushIcache => rfl
    | loadU8 _ | loadU16 _ | loadU32 _ | loadU64 _ | loadS8 _ | loadS16 _ | loadS32 _ | loadS64 _ | storeU8 _ _
    | storeU16 _ _ | storeU32 _ _ | storeU64 _ _ | fetch _ _ => cases haccess
  | some ka =>
    refine hg.effect_eq haccess fun va k t ht => hg.translateVa_eq rfl fun hon => ?_
    rw [ht, start_vm, hvm] at hon
    cases hon

/-- Settles O27: a hit reads none of the modes. -/
theorem hitsIgnoreTheModes : Obligations.HitsIgnoreTheModes := by
  intro i s t root sup vm hexec hhit
  have hg := actsBeside_withModes root sup vm
  refine exec_eq_of_effect_eq rfl rfl ?_ hexec
  rcases hhit with hserve | ⟨k, a, base, haccess, hk, hbase⟩
  · cases i with
    | fetch v a =>
      obtain ⟨ha, hrow⟩ : a.toNat % 4 = 0 ∧ (icacheHit s a).isSome = true := by simpa [icacheServes] using hserve
      rw [effect_fetch_of_fourAligned v ha]
      refine hg.standardFetch_eq fun hmiss => ?_
      rw [show icacheHit s a = none from hmiss] at hrow
      cases hrow
    | _ => cases hserve
  · have htr : translateVa a k (withModes root sup vm (start s)) = _ := hg.translateVa_eq_of_hit hbase
    rcases form_of_accessOf haccess with ⟨rfl, w, sg, hform⟩ | ⟨rfl, w, d, hform⟩ | ⟨rfl, -⟩
    · rw [(effect_of_loadForm i w sg a hform).2]
      exact hg.loadOp_eq w sg htr
    · rw [(effect_of_storeForm i w a d hform).2]
      exact hg.storeOp_eq w d htr
    · exact absurd rfl hk

end Sys2Proof.Machine

/-! ## Proofs: loads, stores and fetches over the translation (41_load_store.md, 40_fetch.md)

Each request's ends as equations: its translation by the relation, then the bounds, then the access. -/

namespace Sys2Proof.Machine

open Sys2Proof

/-! ### The machine's ends as the spec's records -/

section Records

variable (s : State)

theorem answer_eq_answered (r : Word) : answer r s = answered r s.blk.resp.walked s.blk.resp.decoded s := rfl

theorem answerFetch_eq_fetched (r : Word) (h : Handle) :
    answerFetch r h s = fetched r h s.blk.resp.walked s.blk.resp.decoded s := rfl

theorem takeFatal_eq_halts : takeFatal s = halts s.blk.resp.walked s.blk.resp.decoded s := rfl

end Records

/-- What a translation leaves unchanged, by the relation. -/
theorem Translates.keepsRest {s u : State} {va pa : Word} {k : Kind} (h : Translates s va k pa u) : KeepsRest s u :=
  translateVa_keepsRest va k s u pa (translateVa_of_translates h)

/-- A first translation leaves `decoded` clear. -/
theorem Translates.decoded_start {s u : State} {va pa : Word} {k : Kind} (h : Translates (start s) va k pa u) :
    u.blk.resp.decoded = false :=
  h.keepsRest.decoded

/-! ### Stops -/

section Stops

variable {i : Instr} {k : Kind} {a : Word} {s : State}

/-- An access whose address is aligned keeps the caller's contract (20_memory.md R56). -/
theorem wellFormed_of_addressAligned (h : addressAligned i = true) : i.wellFormed = true := by
  cases i with
  | fetch v a => exact h
  | _ => rfl

/-- A fetch that is aligned and that the icache does not serve misses it, or is split (40_fetch.md R130, R133). -/
theorem fetch_path {v : Bool} (hal : addressAligned (.fetch v a) = true)
    (hserve : icacheServes (.fetch v a) s = false) : (a.toNat % 4 = 0 ∧ icacheHit s a = none) ∨ (v = true ∧ a.toNat % 4 = 2) := by
  by_cases ha : a.toNat % 4 = 0
  · refine .inl ⟨ha, ?_⟩
    simpa [icacheServes, ha] using hserve
  · obtain ⟨heven, hv⟩ := (fetch_wellFormed v a).mp hal
    exact .inr ⟨hv.resolve_right ha, by omega⟩

/-- An aligned access that the icache does not serve is its translation and a last part. Where the access leaves the
buffer the last part ends fatal (20_memory.md R62, R207); that of a load or a standard fetch writes no byte (R61). -/
theorem effect_eq_finish (haccess : accessOf i = some (k, a)) (hal : addressAligned i = true)
    (hserve : icacheServes i s = false) :
    ∃ last, effect i s = (translateVa a k s).finish last ∧
      (∀ pa t, t.memsz < pa.toNat + accessBytes i → last pa t = takeFatal t) ∧
      (k ≠ .store → isSplitFetch i = false → ∀ pa t, (last pa t).mem = t.mem) := by
  rcases form_of_accessOf haccess with ⟨rfl, w, sg, hform⟩ | ⟨rfl, w, d, hform⟩ | ⟨rfl, v, rfl⟩
  · have hw : aligned w a = true := addressAligned_of_loadForm hform ▸ hal
    have hbytes : accessBytes i = w.bytes := accessBytes_of_loadForm hform
    rw [(effect_of_loadForm i w sg a hform).2, hbytes]
    refine ⟨_, if_pos hw, fun pa t hout => ?_, fun _ _ pa t => ?_⟩
    · rw [(inBounds_eq_false_iff ..).mpr hout, if_neg Bool.false_ne_true]
    · split <;> rfl
  · have hw : aligned w a = true := addressAligned_of_storeForm hform ▸ hal
    have hbytes : accessBytes i = w.bytes := accessBytes_of_storeForm hform
    rw [(effect_of_storeForm i w a d hform).2, hbytes]
    refine ⟨_, if_pos hw, fun pa t hout => ?_, fun hk => absurd rfl hk⟩
    rw [(inBounds_eq_false_iff ..).mpr hout, if_neg Bool.false_ne_true]
  · rcases fetch_path hal hserve with ⟨ha, hmiss⟩ | ⟨rfl, ha⟩
    · have hbytes : accessBytes (.fetch v a) = Config.insnBytes := if_pos ha
      rw [effect_fetch_of_fourAligned v ha, hbytes, standardFetch, hmiss]
      refine ⟨_, rfl, fun pa t hout => ?_, fun _ _ pa t => ?_⟩
      · rw [(inBounds_eq_false_iff ..).mpr hout, if_neg Bool.false_ne_true]
      · split <;> rfl
    · have hbytes : accessBytes (.fetch true a) = Config.halfBytes := if_neg (by omega)
      have hsplit : isSplitFetch (.fetch true a) = true := (splitPath_eq_true true a).mpr ⟨rfl, ha⟩
      rw [effect_fetch_of_split ha, hbytes, splitFetch]
      refine ⟨_, rfl, fun pa t hout => ?_, fun _ hsplit' => ?_⟩
      · rw [(inBounds_eq_false_iff ..).mpr hout, if_neg Bool.false_ne_true]
      · rw [hsplit] at hsplit'
        cases hsplit'

end Stops

/-- Settles O36: the request is its translation and a last part, and the fault comes before the last part. -/
theorem translationFaultIsSignalled : Obligations.TranslationFaultIsSignalled := by
  intro i s k a f hrun haccess hal hserve hfaults
  obtain ⟨last, e, -⟩ := effect_eq_finish (s := start s) haccess hal hserve
  refine (exec_eq_next i s _).mpr ⟨hrun, wellFormed_of_addressAligned hal, ?_⟩
  rw [e, translateVa_of_translateFaults hfaults, finish_raise, takeFault_markWalked_start]

/-- Settles O37: the translation's fatal end, or the last part's bounds check. -/
theorem boundsViolationIsFatal : Obligations.BoundsViolationIsFatal := by
  intro i s k a hrun haccess hal hserve
  obtain ⟨last, e, hout, -⟩ := effect_eq_finish (s := start s) haccess hal hserve
  have hnext : ∀ t, t = effect i (start s) → exec i s = .next t := fun t ht =>
    (exec_eq_next i s t).mpr ⟨hrun, wellFormed_of_addressAligned hal, ht⟩
  constructor
  · intro hfatal
    apply hnext
    rw [e, translateVa_of_translateFatal hfatal, finish_fatal]
    rfl
  · intro pa u htrans hb
    apply hnext
    have hmemsz : u.memsz = s.memsz := htrans.keepsRest.memsz
    rw [e, translateVa_of_translates htrans, finish_go, hout pa u (hmemsz ▸ hb), takeFatal_eq_halts,
      htrans.decoded_start]

/-! ### Loads and stores -/

section LoadsAndStores

variable {i : Instr} {w : Width} {sg : Bool} {a d : Word} {s t u : State} {pa : Word}

/-- The bits of a wide read are those of its bytes, so nothing is lost at 8W bits (R50). -/
theorem bytesLE_lt (m : Memory) (x n : Nat) : bytesLE m x n < 2 ^ (8 * n) := by
  rw [← readLE_eq_bytesLE, Nat.pow_mul]
  exact Memory.readLE_lt m x n

/-- The value of a load: the little-endian bytes, sign- or zero-extended (00_scope.md R10, R162). -/
theorem extend_readLE (m : Memory) (x : Nat) :
    extend w sg (m.readLE x w.bytes) =
      if sg then (BitVec.ofNat (8 * w.bytes) (bytesLE m x w.bytes)).signExtend 64
      else BitVec.ofNat 64 (bytesLE m x w.bytes) := by
  rw [extend, readLE_eq_bytesLE, Nat.mod_eq_of_lt (bytesLE_lt m x w.bytes)]

theorem loadOp_of_go (ha : a.toNat % w.bytes = 0) (hgo : translateVa a .load s = .go pa t)
    (hb : pa.toNat + w.bytes ≤ t.memsz) :
    loadOp w sg a s = answer (extend w sg (t.mem.readLE pa.toNat w.bytes)) t := by
  rw [loadOp, if_pos ((aligned_eq_true w a).mpr ha), hgo, finish_go, if_pos ((inBounds_iff ..).mpr hb)]

theorem storeOp_of_go (ha : a.toNat % w.bytes = 0) (hgo : translateVa a .store s = .go pa t)
    (hb : pa.toNat + w.bytes ≤ t.memsz) :
    storeOp w a d s = answer 0 (setMem (t.mem.writeLE pa.toNat w.bytes d.toNat) t) := by
  rw [storeOp, if_pos ((aligned_eq_true w a).mpr ha), hgo, finish_go, if_pos ((inBounds_iff ..).mpr hb)]

/-- A store that is aligned, translates and is in bounds writes its bytes and answers 0. -/
theorem exec_store_of_translates (hform : storeForm i = some (w, a, d)) (hrun : s.blk.halted = false)
    (ha : a.toNat % w.bytes = 0) (htrans : Translates (start s) a .store pa u) (hb : pa.toNat + w.bytes ≤ s.memsz) :
    exec i s = .next (answered 0 u.blk.resp.walked false
      { u with mem := u.mem.writeLE pa.toNat w.bytes d.toNat }) := by
  obtain ⟨hwf, heffect⟩ := effect_of_storeForm i w a d hform
  have hmemsz : u.memsz = s.memsz := htrans.keepsRest.memsz
  refine (exec_eq_next i s _).mpr ⟨hrun, hwf, ?_⟩
  rw [heffect, storeOp_of_go ha (translateVa_of_translates htrans) (hmemsz ▸ hb), answer_eq_answered, setMem_resp,
    htrans.decoded_start]
  rfl

/-- Byte j of a word as a number is bits 8j+7:8j (R50). -/
theorem ofNat_div_eq_extractLsb' (d : Word) (j : Nat) :
    BitVec.ofNat 8 (d.toNat / 256 ^ j) = d.extractLsb' (8 * j) 8 := by
  rw [BitVec.extractLsb', Nat.shiftRight_eq_div_pow, Nat.pow_mul]

end LoadsAndStores

/-- Settles O38: the load's last part answers the bytes at the offset. -/
theorem loadCompletes : Obligations.LoadCompletes := by
  intro i w sg a s pa u hform hrun ha htrans hb
  obtain ⟨hwf, heffect⟩ := effect_of_loadForm i w sg a hform
  have hmemsz : u.memsz = s.memsz := htrans.keepsRest.memsz
  refine (exec_eq_next i s _).mpr ⟨hrun, hwf, ?_⟩
  rw [heffect, loadOp_of_go ha (translateVa_of_translates htrans) (hmemsz ▸ hb), answer_eq_answered, extend_readLE,
    htrans.decoded_start]

/-- Settles O39: the store's last part is one little-endian write. -/
theorem storeCompletes : Obligations.StoreCompletes := by
  intro i w a d s pa u hform hrun ha hmem htrans hb
  have hmem' : u.mem.wf := translateVa_wf a .store (start s) u pa (translateVa_of_translates htrans) hmem
  refine ⟨_, exec_store_of_translates hform hrun ha htrans hb, Memory.wf_writeLE _ _ _ _ hmem', ?_, ?_⟩
  · intro j hj
    rw [Memory.read_writeLE_inside _ _ _ _ _ hmem' hj, ofNat_div_eq_extractLsb']
  · intro x hx
    exact Memory.read_writeLE_outside _ _ _ _ _ hx

section StoreThenLoad

variable {i : Instr} {w : Width} {a d pa : Word} {s t u : State}

/-- A store that answers OK was aligned and in bounds: its other ends have other statuses. -/
theorem aligned_inBounds_of_store_ok (hform : storeForm i = some (w, a, d)) (hexec : exec i s = .next t)
    (hok : t.blk.resp.status = .ok) (htrans : Translates (start s) a .store pa u) :
    a.toNat % w.bytes = 0 ∧ pa.toNat + w.bytes ≤ s.memsz := by
  obtain ⟨hrun, -, -⟩ := (exec_eq_next i s t).mp hexec
  have ha : a.toNat % w.bytes = 0 := by
    by_contra hmis
    rw [misalignedAccessFaults.2.1 i w a d s hform hrun hmis] at hexec
    cases hexec
    cases hok
  refine ⟨ha, ?_⟩
  by_contra hb
  have hal : addressAligned i = true := (addressAligned_of_storeForm hform).trans ((aligned_eq_true w a).mpr ha)
  have hserve : icacheServes i s = false := icacheServes_of_storeForm hform
  have hbytes : accessBytes i = w.bytes := accessBytes_of_storeForm hform
  rw [(boundsViolationIsFatal i s .store a hrun (accessOf_of_storeForm hform) hal hserve).2 pa u htrans
    (hbytes ▸ Nat.lt_of_not_le hb)] at hexec
  cases hexec
  cases hok

end StoreThenLoad

/-- Settles O41: the load reads the bytes of the store's one write. -/
theorem loadAfterStoreGivesTheValue : Obligations.LoadAfterStoreGivesTheValue := by
  intro i j w sg a d s t u u' pa hstore hload hmem hexec hok htrans htrans' hkept
  obtain ⟨hrun, -, -⟩ := (exec_eq_next i s t).mp hexec
  obtain ⟨ha, hb⟩ := aligned_inBounds_of_store_ok hstore hexec hok htrans
  rw [exec_store_of_translates hstore hrun ha htrans hb] at hexec
  cases hexec
  have hmem' : u.mem.wf := translateVa_wf a .store (start s) u pa (translateVa_of_translates htrans) hmem
  have hvalue : bytesLE u'.mem pa.toNat w.bytes = (d.setWidth (8 * w.bytes)).toNat := by
    rw [← readLE_eq_bytesLE, Memory.readLE_congr _ _ _ _ fun j hj => hkept _ (by omega) (by omega),
      BitVec.toNat_setWidth, Nat.pow_mul]
    exact Memory.readLE_writeLE _ _ _ _ hmem'
  have hrun' : u.blk.halted = false := htrans.keepsRest.halted.trans hrun
  have hmemsz : u.memsz = s.memsz := htrans.keepsRest.memsz
  refine ⟨_, loadCompletes j w sg a _ pa u' hload hrun' ha htrans' (hmemsz ▸ hb), rfl, ?_⟩
  simp only [answered, hvalue, BitVec.ofNat_toNat, BitVec.setWidth_eq]

/-! ### Fetches -/

section Fetches

variable {a pa : Word} {s t u : State} {lo : BitVec 16} {h : Handle}

/-- The instruction word at an offset, as its bytes (20_memory.md R50, R52). -/
theorem readInsn_eq_bytesLE (s : State) (pa : Word) : readInsn s pa = BitVec.ofNat 32 (bytesLE s.mem pa.toNat 4) := by
  rw [readInsn, readLE_eq_bytesLE]
  rfl

/-- The unit at an offset, as its bytes (R50, R52). -/
theorem readHalf_eq_bytesLE (s : State) (pa : Word) : readHalf s pa = BitVec.ofNat 16 (bytesLE s.mem pa.toNat 2) := by
  rw [readHalf, readLE_eq_bytesLE]
  rfl

theorem toNat_readInsn (s : State) (pa : Word) : (readInsn s pa).toNat = bytesLE s.mem pa.toNat 4 := by
  rw [readInsn_eq_bytesLE, BitVec.toNat_ofNat, Nat.mod_eq_of_lt (bytesLE_lt s.mem pa.toNat 4)]

theorem toNat_readHalf (s : State) (pa : Word) : (readHalf s pa).toNat = bytesLE s.mem pa.toNat 2 := by
  rw [readHalf_eq_bytesLE, BitVec.toNat_ofNat, Nat.mod_eq_of_lt (bytesLE_lt s.mem pa.toNat 2)]

/-- The handle of the instruction word at an offset (30_encoding.md R114). -/
theorem handleOf_readInsn (c : Config) (s : State) (pa : Word) :
    c.handleOf (readInsn s pa).toNat = Config.dispatch c.decoder (bytesLE s.mem pa.toNat 4 % c.dts) := by
  rw [toNat_readInsn, Config.handleOf]

/-- The handle of the unit at an offset (R114). -/
theorem handleOf_readHalf (c : Config) (s : State) (pa : Word) :
    c.handleOf (readHalf s pa).toNat = Config.dispatch c.decoder (bytesLE s.mem pa.toNat 2 % c.dts) := by
  rw [toNat_readHalf, Config.handleOf]

/-- A standard fetch that misses the icache, translates and is in bounds (R130, R134). -/
theorem standardFetch_of_go (hmiss : icacheHit s a = none) (hgo : translateVa a .fetch s = .go pa t)
    (hb : pa.toNat + 4 ≤ t.memsz) :
    standardFetch a s = answerFetch ((readInsn t pa).setWidth 64) (t.blk.cfg.handleOf (readInsn t pa).toNat)
      (fillIcache a (readInsn t pa) (t.blk.cfg.handleOf (readInsn t pa).toNat) (markDecoded t)) := by
  rw [standardFetch, hmiss]
  simp only [hgo, finish_go]
  rw [if_pos ((inBounds_iff t pa Config.insnBytes).mpr hb)]

/-- A split fetch of a short unit answers it (R133). -/
theorem splitFetch_of_short (hgo : translateVa a .fetch s = .go pa t) (hb : pa.toNat + 2 ≤ t.memsz)
    (hshort : t.blk.cfg.isShort.test (readHalf t pa) = true) :
    splitFetch a s = answerFetch ((readHalf t pa).setWidth 64) (t.blk.cfg.handleOf (readHalf t pa).toNat)
      (markDecoded t) := by
  rw [splitFetch, hgo, finish_go, if_pos ((inBounds_iff t pa Config.halfBytes).mpr hb), if_pos hshort]

/-- A split fetch of a long unit goes on with the second (R133). -/
theorem splitFetch_of_long (hgo : translateVa a .fetch s = .go pa t) (hb : pa.toNat + 2 ≤ t.memsz)
    (hlong : t.blk.cfg.isShort.test (readHalf t pa) = false) :
    splitFetch a s = splitHigh a (readHalf t pa) (t.blk.cfg.handleOf (readHalf t pa).toNat) (markDecoded t) := by
  rw [splitFetch, hgo, finish_go, if_pos ((inBounds_iff t pa Config.halfBytes).mpr hb), hlong,
    if_neg Bool.false_ne_true]

/-- The second unit of a split fetch once translated (R133). -/
theorem splitHigh_of_go (hgo : translateVa (a + 2) .fetch s = .go pa t) :
    splitHigh a lo h s =
      if inBounds t pa Config.halfBytes then answerFetch ((readHalf t pa ++ lo).setWidth 64) h t
      else takeFatal t := by
  rw [splitHigh, hgo, finish_go]

/-- The two units of a split fetch as one number, low first (40_fetch.md R133). -/
theorem setWidth_append_eq (hi lo : BitVec 16) :
    (hi ++ lo).setWidth 64 = BitVec.ofNat 64 (lo.toNat + 2 ^ 16 * hi.toNat) := by
  rw [← toNat_append_units, BitVec.ofNat_toNat]

end Fetches

/-- Settles O43: the last part reads the word and writes the row; the handle is that of the word's bytes. -/
theorem standardFetchFillsTheIcache : Obligations.StandardFetchFillsTheIcache := by
  intro v a s pa u hrun ha hmiss htrans hb
  have hmemsz : u.memsz = s.memsz := htrans.keepsRest.memsz
  have hcfg : u.blk.cfg = s.blk.cfg := htrans.keepsRest.cfg
  refine (exec_eq_next _ s _).mpr ⟨hrun, fetch_wellFormed_of_fourAligned v ha, ?_⟩
  rw [effect_fetch_of_fourAligned v ha,
    standardFetch_of_go (s := start s) hmiss (translateVa_of_translates htrans) (hmemsz ▸ hb), handleOf_readInsn, hcfg,
    readInsn_eq_bytesLE, answerFetch_eq_fetched]
  rfl

/-- Settles O44: the first unit's last part answers without a second translation. -/
theorem splitFetchOfAShortUnit : Obligations.SplitFetchOfAShortUnit := by
  intro a s pa u hrun ha htrans hb hshort
  have hmemsz : u.memsz = s.memsz := htrans.keepsRest.memsz
  have hcfg : u.blk.cfg = s.blk.cfg := htrans.keepsRest.cfg
  rw [Formula.isShort_eq, ← hcfg, ← readHalf_eq_bytesLE] at hshort
  refine (exec_eq_next _ s _).mpr ⟨hrun, (fetch_wellFormed true a).mpr ⟨by omega, .inl rfl⟩, ?_⟩
  rw [effect_fetch_of_split ha, splitFetch_of_short (translateVa_of_translates htrans) (hmemsz ▸ hb) hshort,
    handleOf_readHalf, hcfg, readHalf_eq_bytesLE, answerFetch_eq_fetched]
  rfl

/-- The effect of a split fetch of a long unit is that of its second unit, after the first unit's translation. -/
theorem effect_of_long_unit {a pa : Word} {s u : State} (ha : a.toNat % 4 = 2)
    (htrans : Translates (start s) a .fetch pa u) (hb : pa.toNat + 2 ≤ s.memsz)
    (hlong : Formula.isShort s.blk.cfg (BitVec.ofNat 16 (bytesLE u.mem pa.toNat 2)) = false) :
    effect (.fetch true a) (start s) = splitHigh a (readHalf u pa)
      (Config.dispatch s.blk.cfg.decoder (bytesLE u.mem pa.toNat 2 % s.blk.cfg.dts)) (markDecoded u) := by
  have hmemsz : u.memsz = s.memsz := htrans.keepsRest.memsz
  have hcfg : u.blk.cfg = s.blk.cfg := htrans.keepsRest.cfg
  rw [Formula.isShort_eq, ← hcfg, ← readHalf_eq_bytesLE] at hlong
  rw [effect_fetch_of_split ha, splitFetch_of_long (translateVa_of_translates htrans) (hmemsz ▸ hb) hlong,
    handleOf_readHalf, hcfg]

/-- Settles O45: the second translation does not read `decoded`, so it is one from the state the first has left. -/
theorem splitFetchOfTwoUnits : Obligations.SplitFetchOfTwoUnits := by
  intro a s pa u hrun ha htrans hb hlong
  have hmemsz : u.memsz = s.memsz := htrans.keepsRest.memsz
  have heffect := effect_of_long_unit ha htrans hb hlong
  have hnext : ∀ t, t = effect (.fetch true a) (start s) → exec (.fetch true a) s = .next t := fun t ht =>
    (exec_eq_next _ s t).mpr ⟨hrun, (fetch_wellFormed true a).mpr ⟨by omega, .inl rfl⟩, ht⟩
  have hgo : ∀ {pa' u'}, Translates u (a + 2) .fetch pa' u' →
      translateVa (a + 2) .fetch (markDecoded u) = .go pa' (markDecoded u') := fun h => by
    rw [translateVa_markDecoded, translateVa_of_translates h, Phase.mapState]
  refine ⟨fun pa' u' htrans' hb' => hnext _ ?_, fun f hfaults => hnext _ ?_, fun hfatal => hnext _ ?_,
    fun pa' u' htrans' hout => hnext _ ?_⟩
  · have hin : inBounds (markDecoded u') pa' Config.halfBytes = true :=
      (inBounds_iff ..).mpr (htrans'.keepsRest.memsz.trans hmemsz ▸ hb')
    rw [heffect, splitHigh_of_go (hgo htrans'), if_pos hin, setWidth_append_eq, toNat_readHalf, toNat_readHalf]
    rfl
  · rw [heffect, splitHigh, translateVa_markDecoded, translateVa_of_translateFaults hfaults]
    rfl
  · rw [heffect, splitHigh, translateVa_markDecoded, translateVa_of_translateFatal hfatal]
    rfl
  · have hin : inBounds (markDecoded u') pa' Config.halfBytes = false :=
      (inBounds_eq_false_iff ..).mpr (htrans'.keepsRest.memsz.trans hmemsz ▸ hout)
    rw [heffect, splitHigh_of_go (hgo htrans'), hin, if_neg Bool.false_ne_true]
    rfl

/-- Settles O47: the first fetch hit the row or has just filled it. -/
theorem secondFetchIsAHit : Obligations.SecondFetchIsAHit := by
  intro v v' a s t hlen hpos ha hexec hok
  obtain ⟨hrun, -, rfl⟩ := (exec_eq_next _ s t).mp hexec
  rw [effect_fetch_of_fourAligned v ha] at hok ⊢
  suffices hhit : ∃ row, icacheHit (standardFetch a (start s)) a = some row ∧
      (standardFetch a (start s)).blk.halted = false ∧
      (standardFetch a (start s)).blk.resp.r = row.bits.setWidth 64 ∧
      (standardFetch a (start s)).blk.resp.h = row.handle by
    obtain ⟨row, hrow, hhalted, hr, hh⟩ := hhit
    obtain ⟨hrow, htag⟩ := (icacheHit_eq_some _ a row).mp hrow
    rw [hr, hh]
    exact icacheHitIsReturned v' a _ row hhalted ha hrow htag
  rcases standardFetch_cases a (start s) with
    ⟨row, hhit, e⟩ | ⟨pa, u, -, hgo, -, e⟩ | ⟨pa, u, -, -, -, e⟩ | ⟨f, -, -, e⟩ | ⟨-, -, e⟩ <;> rw [e] at hok ⊢
  · exact ⟨row, hhit, hrun, rfl, rfl⟩
  · have hkeeps := translateVa_keepsRest a .fetch (start s) u pa hgo
    have hindex : (markDecoded u).blk.cfg.icacheIndex a < (markDecoded u).blk.icache.length := by
      rw [markDecoded_cfg, markDecoded_icache, hkeeps.cfg, hkeeps.icache, start_cfg, start_icache, hlen]
      exact Nat.mod_lt _ hpos
    exact ⟨_, icacheHit_fillIcache (markDecoded u) a _ _ hindex, hkeeps.halted.trans hrun, rfl, rfl⟩
  · cases hok
  · cases hok
  · cases hok

/-! ### Instrumentation bits and flushes -/

section Bits

variable {s t : State} {a va pa : Word} {k : Kind}

/-- A translation sets `walked` exactly if it misses its TLB array (20_memory.md R65). -/
theorem translateVa_walked (h : translateVa va k s = .go pa t) :
    t.blk.resp.walked = (s.blk.resp.walked || (tlbBase s k va).isNone) := by
  rcases translateVa_eq_go va k s t pa h with
    ⟨base, hhit, _, rfl⟩ | ⟨hmiss, _, _, _, rfl⟩ | ⟨_, _, hmiss, _, _, _, _, _, rfl⟩
  · simp [hhit]
  · simp [hmiss]
  · simp [hmiss]

/-- So does a request that only translates, whatever its end. -/
theorem finish_walked {last : Word → State → State}
    (hlast : ∀ pa t, (last pa t).blk.resp.walked = t.blk.resp.walked) :
    ((translateVa va k s).finish last).blk.resp.walked = (s.blk.resp.walked || (tlbBase s k va).isNone) := by
  cases htr : translateVa va k s with
  | go pa t => rw [finish_go, hlast, translateVa_walked htr]
  | raise f va' t =>
    obtain ⟨-, rfl, hmiss, -⟩ := translateVa_eq_raise va k s t f va' htr
    simp [finish_raise, hmiss]
  | fatal t =>
    obtain ⟨rfl, hmiss⟩ := translateVa_eq_fatal va k s t htr
    simp [finish_fatal, hmiss]

/-- `walked` stays set through the rest of a request that translates. -/
theorem finish_walked_of_miss {last : Word → State → State}
    (hlast : ∀ pa t, t.blk.resp.walked = true → (last pa t).blk.resp.walked = true)
    (h : s.blk.resp.walked = true ∨ tlbBase s k va = none) :
    ((translateVa va k s).finish last).blk.resp.walked = true := by
  cases htr : translateVa va k s with
  | go pa t =>
    refine hlast pa t ?_
    rw [translateVa_walked htr]
    rcases h with h | h <;> simp [h]
  | raise f va' t =>
    obtain ⟨-, rfl, -, -⟩ := translateVa_eq_raise va k s t f va' htr
    rfl
  | fatal t =>
    obtain ⟨rfl, -⟩ := translateVa_eq_fatal va k s t htr
    rfl

/-- A translation leaves `decoded`, and so does a request whose last part does. -/
theorem finish_decoded {last : Word → State → State}
    (hlast : ∀ pa t, (last pa t).blk.resp.decoded = t.blk.resp.decoded) :
    ((translateVa va k s).finish last).blk.resp.decoded = s.blk.resp.decoded := by
  cases htr : translateVa va k s with
  | go pa t => rw [finish_go, hlast, (translateVa_keepsRest va k s t pa htr).decoded]
  | raise f va' t =>
    obtain ⟨-, rfl, -, -⟩ := translateVa_eq_raise va k s t f va' htr
    rfl
  | fatal t =>
    obtain ⟨rfl, -⟩ := translateVa_eq_fatal va k s t htr
    rfl

/-- A load sets `walked` exactly if it is aligned and misses, and leaves `decoded` (60_exceptions.md R213). -/
theorem loadOp_bits (w : Width) (sg : Bool) :
    (loadOp w sg a s).blk.resp.decoded = s.blk.resp.decoded ∧
    (loadOp w sg a s).blk.resp.walked = (s.blk.resp.walked || (aligned w a && (tlbBase s .load a).isNone)) := by
  unfold loadOp
  cases aligned w a with
  | false => simp
  | true =>
    rw [if_pos rfl, Bool.true_and]
    exact ⟨finish_decoded fun pa t => by split <;> rfl, finish_walked fun pa t => by split <;> rfl⟩

/-- So does a store (R213). -/
theorem storeOp_bits (w : Width) (d : Word) :
    (storeOp w a d s).blk.resp.decoded = s.blk.resp.decoded ∧
    (storeOp w a d s).blk.resp.walked = (s.blk.resp.walked || (aligned w a && (tlbBase s .store a).isNone)) := by
  unfold storeOp
  cases aligned w a with
  | false => simp
  | true =>
    rw [if_pos rfl, Bool.true_and]
    exact ⟨finish_decoded fun pa t => by split <;> rfl, finish_walked fun pa t => by split <;> rfl⟩

/-- A standard fetch sets `walked` exactly if it misses the icache and the TLB (R213). -/
theorem standardFetch_walked :
    (standardFetch a s).blk.resp.walked =
      (s.blk.resp.walked || ((icacheHit s a).isNone && (tlbBase s .fetch a).isNone)) := by
  unfold standardFetch
  cases icacheHit s a with
  | some row => simp
  | none => exact finish_walked fun pa t => by split <;> rfl

/-- A standard fetch decodes exactly if it misses the icache and answers OK (R213). -/
theorem standardFetch_decoded (hs : s.blk.resp.decoded = false) :
    (standardFetch a s).blk.resp.decoded = true ↔
      icacheHit s a = none ∧ (standardFetch a s).blk.resp.status = .ok := by
  rcases standardFetch_cases a s with
    ⟨row, hhit, e⟩ | ⟨pa, t, hmiss, -, -, e⟩ | ⟨pa, t, -, hgo, -, e⟩ | ⟨f, -, -, e⟩ | ⟨-, -, e⟩ <;> rw [e]
  · simp [hhit, hs]
  · simp [hmiss]
  · have hdecoded := (translateVa_keepsRest a .fetch s t pa hgo).decoded
    simp [hdecoded, hs]
  · simp [hs]
  · simp [hs]

/-- A split fetch whose first unit misses its TLB array has walked, whatever its end. -/
theorem splitFetch_walked_of_miss (h : tlbBase s .fetch a = none) : (splitFetch a s).blk.resp.walked = true := by
  refine finish_walked_of_miss (fun pa t ht => ?_) (.inr h)
  split
  · split
    · exact ht
    · refine finish_walked_of_miss (fun pa' t' ht' => ?_) (.inl ht)
      split <;> exact ht'
  · exact ht

end Bits

/-- Settles O28: the bits are 0 at the start of a request, and each part's lemma says what it sets. -/
theorem instrumentationBits : Obligations.InstrumentationBits := by
  intro i s t hexec
  obtain ⟨-, hwf, rfl⟩ := (exec_eq_next i s t).mp hexec
  refine ⟨fun haccess => ?_, fun k a haccess hk => ?_, fun v a hi ha => ?_⟩
  · obtain ⟨r, t, e, -, -, -, -, hresp⟩ := effect_of_no_access (s := start s) haccess
    rw [e, answer_resp, hresp]
    exact ⟨rfl, rfl⟩
  · rcases form_of_accessOf haccess with ⟨rfl, w, sg, hform⟩ | ⟨rfl, w, d, hform⟩ | ⟨rfl, -⟩
    · rw [(effect_of_loadForm i w sg a hform).2, addressAligned_of_loadForm hform]
      obtain ⟨hdecoded, hwalked⟩ := loadOp_bits (a := a) (s := start s) w sg
      refine ⟨hdecoded, ?_⟩
      rw [hwalked, start_resp, Bool.false_or, Bool.and_eq_true, Option.isNone_iff_eq_none]
      rfl
    · rw [(effect_of_storeForm i w a d hform).2, addressAligned_of_storeForm hform]
      obtain ⟨hdecoded, hwalked⟩ := storeOp_bits (a := a) (s := start s) w d
      refine ⟨hdecoded, ?_⟩
      rw [hwalked, start_resp, Bool.false_or, Bool.and_eq_true, Option.isNone_iff_eq_none]
      rfl
    · exact absurd rfl hk
  · subst hi
    rw [effect_fetch_of_fourAligned v ha]
    refine ⟨?_, standardFetch_decoded rfl⟩
    rw [standardFetch_walked, start_resp, Bool.false_or, Bool.and_eq_true, Option.isNone_iff_eq_none,
      Option.isNone_iff_eq_none]
    rfl

section Flushes

variable {s t : State}

/-- A flushed TLB is hit by no address (42_flush.md R170). -/
theorem tlbBase_invalidateTlb (k : Kind) (va : Word) : tlbBase (invalidateTlb s) k va = none := by
  rw [tlbBase, invalidateTlb_rows, List.getElem?_map]
  cases (s.blk.tlb.rows k)[(invalidateTlb s).blk.cfg.tlbIndex va]? <;> rfl

/-- A flushed icache is hit by no address (R171). -/
theorem icacheHit_invalidateIcache (a : Word) : icacheHit (invalidateIcache s) a = none := by
  rw [icacheHit, invalidateIcache_icache, List.getElem?_map]
  cases s.blk.icache[(invalidateIcache s).blk.cfg.icacheIndex a]? <;> rfl

/-- With no TLB row to hit, every aligned access that the icache does not serve walks. -/
theorem walked_of_tlb_empty {i : Instr} (hempty : ∀ k va, tlbBase s k va = none) (haccess : accessOf i ≠ none)
    (hal : addressAligned i = true) (hserve : icacheServes i s = false) (hexec : exec i s = .next t) :
    t.blk.resp.walked = true := by
  obtain ⟨⟨k, a⟩, haccess⟩ := Option.ne_none_iff_exists'.mp haccess
  obtain ⟨-, hbits, hfetch⟩ := instrumentationBits i s t hexec
  by_cases hk : k = .fetch
  · obtain ⟨⟨⟩, -⟩ | ⟨⟨⟩, -⟩ | ⟨-, v, rfl⟩ := hk ▸ form_of_accessOf haccess
    rcases fetch_path hal hserve with ⟨ha, hmiss⟩ | ⟨rfl, ha⟩
    · exact (hfetch v a rfl ha).1.mpr ⟨hmiss, hempty .fetch a⟩
    · obtain ⟨-, -, rfl⟩ := (exec_eq_next _ s t).mp hexec
      rw [effect_fetch_of_split ha]
      exact splitFetch_walked_of_miss (s := start s) (hempty .fetch a)
  · exact (hbits k a haccess hk).2.mpr ⟨hal, hempty k a⟩

end Flushes

/-- Settles O57: both requests leave the TLB with no valid row. -/
theorem translationsWalkAfterAFlush : Obligations.TranslationsWalkAfterAFlush := by
  intro i s t hi hexec
  obtain ⟨-, -, rfl⟩ := (exec_eq_next i s t).mp hexec
  have hempty : ∀ k va, tlbBase (effect i (start s)) k va = none := by
    rcases hi with rfl | ⟨a, rfl⟩
    · exact fun k va => tlbBase_invalidateTlb (s := start s) k va
    · exact fun k va => tlbBase_invalidateTlb (s := setRoot a (start s)) k va
  exact ⟨hempty, fun j u haccess hal hserve hexec' => walked_of_tlb_empty hempty haccess hal hserve hexec'⟩

/-- Settles O58: the icache has no valid row, so an OK standard fetch decodes. -/
theorem fetchDecodesAfterFlushIcache : Obligations.FetchDecodesAfterFlushIcache := by
  intro s t hexec
  obtain ⟨-, -, rfl⟩ := (exec_eq_next _ s t).mp hexec
  have hempty : ∀ a, icacheHit (effect .flushIcache (start s)) a = none := fun a =>
    icacheHit_invalidateIcache (s := start s) a
  refine ⟨rfl, hempty, fun v a u ha hexec' hok => ?_⟩
  obtain ⟨-, -, hfetch⟩ := instrumentationBits _ _ u hexec'
  exact (hfetch v a rfl ha).2.mpr ⟨hempty a, hok⟩

/-! ### The address of a fault -/

/-- After a fault GET_FAULT_ADDR answers the address it recorded. -/
theorem exec_getFaultAddr_faulted {f : FaultKind} {va : Word} {walked decoded : Bool} {s : State}
    (hrun : s.blk.halted = false) :
    exec .getFaultAddr (faulted f va walked decoded s) =
      .next (answered va false false (faulted f va walked decoded s)) :=
  (getFaultAddrAnswersLastFault (faulted f va walked decoded s) hrun).1 rfl

/-- Settles O50: a fault is the spec's record with the address translated, or A + 2 in a split fetch. -/
theorem faultAddressIsReadBack : Obligations.FaultAddressIsReadBack := by
  intro i s t f hexec hfault
  obtain ⟨hrun, -, -⟩ := (exec_eq_next i s t).mp hexec
  cases hsplit : isSplitFetch i with
  | false =>
    obtain ⟨k, a, haccess, e⟩ := faultsArePrecise.1 i s t f hexec hfault hsplit
    rw [e]
    exact ⟨_, k, a, exec_getFaultAddr_faulted hrun, rfl, haccess, .inl rfl⟩
  | true =>
    cases i with
    | fetch v a =>
      obtain ⟨rfl, ha⟩ := (splitPath_eq_true v a).mp hsplit
      rcases faultsArePrecise.2 a s t f ha hexec hfault with e | ⟨pa, u, htrans, e⟩
      · rw [e]
        exact ⟨_, .fetch, a, exec_getFaultAddr_faulted hrun, rfl, rfl, .inl rfl⟩
      · rw [e]
        exact ⟨_, .fetch, a, exec_getFaultAddr_faulted (htrans.keepsRest.halted.trans hrun), rfl, rfl,
          .inr ⟨rfl, rfl⟩⟩
    | _ => cases hsplit

end Sys2Proof.Machine

/-! ## Proofs: the referenced and dirty bits (20_memory.md R78, R80)

What the update of a leaf writes, byte by byte; what a translation changes of the buffer; and from them what a load or a
fetch changes. -/

namespace Sys2Proof.Machine

open Sys2Proof

/-! ### The leaf after its update -/

section Leaf

variable {s t : State} {k : Kind} {va addr pte : Word}

/-- The update sets R, and D for a store (R78). -/
theorem referencedPte_eq (k : Kind) (pte : Word) :
    referencedPte k pte = pte ||| 0b100#64 ||| (if k = .store then 0b1000#64 else 0#64) := by
  rw [referencedPte, BitVec.or_assoc]
  cases k <;> rfl

theorem referencedPte_of_ne_store (hk : k ≠ .store) : referencedPte k pte = pte ||| 0b100#64 := by
  rw [referencedPte, if_neg hk]

/-- A PTE is a number of PTE_BYTES bytes (R51). -/
theorem toNat_of_pteAt (hsize : s.blk.cfg.pteBytes = 4 ∨ s.blk.cfg.pteBytes = 8) (hpte : PteAt s addr pte) :
    pte.toNat = bytesLE s.mem addr.toNat s.blk.cfg.pteBytes := by
  have hlt := bytesLE_lt s.mem addr.toNat s.blk.cfg.pteBytes
  have hle : 2 ^ (8 * s.blk.cfg.pteBytes) ≤ 2 ^ 64 := Nat.pow_le_pow_right (by decide) (by omega)
  rw [hpte.2, BitVec.toNat_ofNat, Nat.mod_eq_of_lt (Nat.lt_of_lt_of_le hlt hle)]

/-- R and D are among the bits of a PTE of either size (R71). -/
theorem referencedPte_lt (hsize : s.blk.cfg.pteBytes = 4 ∨ s.blk.cfg.pteBytes = 8) (hpte : PteAt s addr pte) :
    (referencedPte k pte).toNat < 2 ^ (8 * s.blk.cfg.pteBytes) := by
  have hpow : 2 ^ 32 ≤ 2 ^ (8 * s.blk.cfg.pteBytes) := Nat.pow_le_pow_right (by decide) (by omega)
  have hbits : (if k = .store then 0b1100#64 else 0b0100#64).toNat < 2 ^ 32 := by split <;> decide
  rw [referencedPte, BitVec.toNat_or]
  refine Nat.or_lt_two_pow ?_ (Nat.lt_of_lt_of_le hbits hpow)
  rw [toNat_of_pteAt hsize hpte]
  exact bytesLE_lt _ _ _

/-- The update writes inside the leaf (R80). -/
theorem leafWritten_read_outside {x : Nat} (h : x < addr.toNat ∨ addr.toNat + s.blk.cfg.pteBytes ≤ x) :
    (leafWritten s k addr pte).read x = s.mem.read x := by
  rw [leafWritten]
  split
  · rfl
  · exact Memory.read_writeLE_outside _ _ _ _ _ h

/-- The updated leaf reads with its new bits (R78). -/
theorem pteAt_leafWritten (hmem : s.mem.wf) (hsize : s.blk.cfg.pteBytes = 4 ∨ s.blk.cfg.pteBytes = 8)
    (hpte : PteAt s addr pte) (ht : t.mem = leafWritten s k addr pte) (hmemsz : t.memsz = s.memsz)
    (hcfg : t.blk.cfg = s.blk.cfg) : PteAt t addr (referencedPte k pte) := by
  rw [PteAt, hmemsz, hcfg, ht]
  refine ⟨hpte.1, ?_⟩
  rw [leafWritten]
  split
  · next hsame =>
    rw [hsame]
    exact hpte.2
  · rw [← readLE_eq_bytesLE, Memory.readLE_writeLE _ _ _ _ hmem, show (256 : Nat) = 2 ^ 8 from rfl, ← Nat.pow_mul,
      Nat.mod_eq_of_lt (referencedPte_lt hsize hpte), BitVec.ofNat_toNat, BitVec.setWidth_eq]

/-- Byte j of a leaf is the buffer's (R50, R51). -/
theorem extractLsb'_of_pteAt (hsize : s.blk.cfg.pteBytes = 4 ∨ s.blk.cfg.pteBytes = 8) (hpte : PteAt s addr pte)
    {j : Nat} (hj : j < s.blk.cfg.pteBytes) : pte.extractLsb' (8 * j) 8 = s.mem.read (addr.toNat + j) := by
  apply BitVec.eq_of_toNat_eq
  rw [← ofNat_div_eq_extractLsb', BitVec.toNat_ofNat, toNat_of_pteAt hsize hpte, ← readLE_eq_bytesLE]
  exact Memory.readLE_div_mod _ _ _ _ hj

/-- R is bit 2 of the first byte of a PTE (R71). -/
theorem extractLsb'_referenced {j : Nat} (hj : j < 8) :
    (0b100#64).extractLsb' (8 * j) 8 = 0#8 ∨ (0b100#64).extractLsb' (8 * j) 8 = 0b100#8 := by
  revert j
  decide

/-- The update of a load or a fetch changes no byte but by bit 2 (R78). -/
theorem leafWritten_read (hmem : s.mem.wf) (hsize : s.blk.cfg.pteBytes = 4 ∨ s.blk.cfg.pteBytes = 8)
    (hpte : PteAt s addr pte) (hk : k ≠ .store) (x : Nat) :
    (leafWritten s k addr pte).read x = s.mem.read x ∨
      (leafWritten s k addr pte).read x = s.mem.read x ||| 0b100#8 := by
  by_cases hx : x < addr.toNat ∨ addr.toNat + s.blk.cfg.pteBytes ≤ x
  · exact .inl (leafWritten_read_outside hx)
  · obtain ⟨j, rfl⟩ : ∃ j, x = addr.toNat + j := ⟨x - addr.toNat, by omega⟩
    have hj : j < s.blk.cfg.pteBytes := by omega
    rw [leafWritten]
    split
    · exact .inl rfl
    · rw [Memory.read_writeLE_inside _ _ _ _ _ hmem hj, ofNat_div_eq_extractLsb', referencedPte_of_ne_store hk,
        BitVec.extractLsb'_or, extractLsb'_of_pteAt hsize hpte hj]
      rcases extractLsb'_referenced (j := j) (by omega) with hbits | hbits <;> rw [hbits]
      · exact .inl BitVec.or_zero
      · exact .inr rfl

/-- A walk ends at one leaf. -/
theorem leafAt_unique {addr' pte' : Word} (h : LeafAt s va addr pte) (h' : LeafAt s va addr' pte') :
    addr' = addr ∧ pte' = pte := by
  have hwalk := (walk_of_leafAt (k := .load) h).symm.trans (walk_of_leafAt h')
  cases hwalk
  exact ⟨rfl, rfl⟩

theorem LeafAt.pteAt (h : LeafAt s va addr pte) : PteAt s addr pte := by
  obtain ⟨-, -, -, hpte, -, -⟩ := h
  exact hpte

end Leaf

/-! ### The buffer after a translation -/

section Translation

variable {s t : State} {k : Kind} {va pa addr pte : Word} {x : Nat}

/-- A translation changes the buffer only where it updates a leaf. -/
theorem Translates.mem_cases (h : Translates s va k pa t) :
    t.mem = s.mem ∨ ∃ addr pte, UpdatesLeaf s k va addr pte ∧ t.mem = leafWritten s k addr pte := by
  cases h with
  | hit _ => exact .inl rfl
  | identity _ _ _ => exact .inl rfl
  | walked hmiss hvm hva hleaf hperm => exact .inr ⟨_, _, ⟨hmiss, hvm, hva, hleaf, hperm⟩, rfl⟩

/-- A translation leaves every byte outside the leaf it updates (R80). -/
theorem Translates.read_outside (h : Translates s va k pa t) (hx : ¬ LeafByte s k va x) :
    t.mem.read x = s.mem.read x := by
  rcases h.mem_cases with hmem | ⟨addr, pte, hupdates, hmem⟩
  · rw [hmem]
  · rw [hmem]
    refine leafWritten_read_outside ?_
    by_contra hin
    exact hx ⟨addr, pte, hupdates, by omega, by omega⟩

/-- A translation for a load or a fetch changes no byte but by bit 2. -/
theorem Translates.read_eq_or (h : Translates s va k pa t) (hmem : s.mem.wf)
    (hsize : s.blk.cfg.pteBytes = 4 ∨ s.blk.cfg.pteBytes = 8) (hk : k ≠ .store) (x : Nat) :
    t.mem.read x = s.mem.read x ∨ t.mem.read x = s.mem.read x ||| 0b100#8 := by
  rcases h.mem_cases with hsame | ⟨addr, pte, hupdates, hwritten⟩
  · rw [hsame]
    exact .inl rfl
  · rw [hwritten]
    obtain ⟨-, -, -, hleaf, -⟩ := hupdates
    exact leafWritten_read hmem hsize hleaf.pteAt hk x

/-- A leaf to update makes the translation go on, and reads as updated after it. -/
theorem UpdatesLeaf.translates (h : UpdatesLeaf s k va addr pte) :
    ∃ pa u, Translates s va k pa u ∧ u.mem = leafWritten s k addr pte := by
  obtain ⟨hmiss, hvm, hva, hleaf, hperm⟩ := h
  exact ⟨_, _, .walked hmiss hvm hva hleaf hperm, rfl⟩

end Translation

/-- Settles O35: the walk ended at this leaf, and its update is one write inside it. -/
theorem refillUpdatesTheLeafAlone : Obligations.RefillUpdatesTheLeafAlone := by
  intro s t va pa addr pte k hmem hsize hmiss hvm _ hleaf hgo
  cases translates_of_translateVa_go hgo with
  | hit hhit =>
    rw [hmiss] at hhit
    cases hhit
  | identity _ hoff _ =>
    rw [hvm] at hoff
    cases hoff
  | walked _ _ _ hleaf' _ =>
    obtain ⟨rfl, rfl⟩ := leafAt_unique hleaf hleaf'
    rw [← referencedPte_eq]
    exact ⟨fun x hx => leafWritten_read_outside hx, pteAt_leafWritten hmem hsize hleaf.pteAt rfl rfl rfl⟩

/-! ### The buffer after a load or a fetch -/

section Buffer

variable {i : Instr} {k : Kind} {a va : Word} {A : Word → Prop} {s t u : State} {x : Nat}

/-- Progress of a load or a fetch changes no byte but by bit 2. -/
theorem Progress.read_eq_or (h : Progress k A s t) (hmem : s.mem.wf)
    (hsize : s.blk.cfg.pteBytes = 4 ∨ s.blk.cfg.pteBytes = 8) (hk : k ≠ .store) :
    t.mem.wf ∧ ∀ x, t.mem.read x = s.mem.read x ∨ t.mem.read x = s.mem.read x ||| 0b100#8 := by
  induction h with
  | refl => exact ⟨hmem, fun x => .inl rfl⟩
  | walked _ ih => exact ih
  | decoded _ ih => exact ih
  | @translated t u va pa _ ht hgo ih =>
    obtain ⟨hwf, hread⟩ := ih
    have hcfg : t.blk.cfg = s.blk.cfg := ht.keepsRest.cfg
    refine ⟨translateVa_wf va k t u pa hgo hwf, fun x => ?_⟩
    rcases (translates_of_translateVa_go hgo).read_eq_or hwf (hcfg ▸ hsize) hk x with e | e <;>
      rcases hread x with e' | e' <;> rw [e, e']
    · exact .inl rfl
    · exact .inr rfl
    · exact .inr rfl
    · exact .inr (by rw [BitVec.or_assoc, BitVec.or_self])

/-- The end of a load or a fetch writes no byte (R61). -/
theorem Ends.mem_of_ne_store (h : Ends i k a u t) (hk : k ≠ .store) : t.mem = u.mem := by
  cases h with
  | stored _ hstore _ => exact absurd hstore hk
  | misaligned _ _ => rfl
  | raised _ _ => rfl
  | fatal => rfl
  | loaded _ => rfl
  | fetched _ _ => rfl
  | filled _ _ _ _ _ => rfl

/-- A load or a fetch changes no byte but by bit 2. -/
theorem effect_read_eq_or (haccess : accessOf i = some (k, a)) (hwf : i.wellFormed = true) (hmem : s.mem.wf)
    (hsize : s.blk.cfg.pteBytes = 4 ∨ s.blk.cfg.pteBytes = 8) (hk : k ≠ .store) (x : Nat) :
    (effect i s).mem.read x = s.mem.read x ∨ (effect i s).mem.read x = s.mem.read x ||| 0b100#8 := by
  obtain ⟨u, hprogress, hends⟩ := effect_ends (s := s) haccess hwf
  rw [hends.mem_of_ne_store hk]
  exact (hprogress.read_eq_or hmem hsize hk).2 x

/-- A request that translates leaves a byte that its translation leaves, if its last part does. -/
theorem finish_read {last : Word → State → State}
    (hlast : ∀ pa t, Translates s va k pa t → (last pa t).mem.read x = s.mem.read x) :
    ((translateVa va k s).finish last).mem.read x = s.mem.read x := by
  cases htr : translateVa va k s with
  | go pa t => exact hlast pa t (translates_of_translateVa_go htr)
  | raise f va' t =>
    obtain ⟨-, rfl, -, -⟩ := translateVa_eq_raise va k s t f va' htr
    rfl
  | fatal t =>
    obtain ⟨rfl, -⟩ := translateVa_eq_fatal va k s t htr
    rfl

/-- A load or a fetch that does not come to its translation leaves the buffer (R54, 40_fetch.md R132). -/
theorem effect_mem_of_no_translation (haccess : accessOf i = some (k, a)) (hwf : i.wellFormed = true)
    (hk : k ≠ .store) (h : ¬ (addressAligned i = true ∧ icacheServes i s = false)) : (effect i s).mem = s.mem := by
  rcases form_of_accessOf haccess with ⟨rfl, w, sg, hform⟩ | ⟨rfl, -⟩ | ⟨rfl, v, rfl⟩
  · have hmis : aligned w a = false := by
      rw [← addressAligned_of_loadForm hform, ← Bool.not_eq_true]
      exact fun hal => h ⟨hal, icacheServes_of_loadForm hform⟩
    rw [(effect_of_loadForm i w sg a hform).2, loadOp_of_misaligned sg s hmis]
    rfl
  · exact absurd rfl hk
  · have hserve : icacheServes (.fetch v a) s = true := by
      rw [← Bool.not_eq_false]
      exact fun hserve => h ⟨hwf, hserve⟩
    obtain ⟨ha, hrow⟩ : a.toNat % 4 = 0 ∧ (icacheHit s a).isSome = true := by simpa [icacheServes] using hserve
    obtain ⟨row, hhit⟩ := Option.isSome_iff_exists.mp hrow
    rw [effect_fetch_of_fourAligned v ha, standardFetch_of_hit hhit]
    rfl

/-- A load or a standard fetch leaves every byte outside the leaf it updates (R61, R80). -/
theorem effect_read_outside (haccess : accessOf i = some (k, a)) (hwf : i.wellFormed = true) (hk : k ≠ .store)
    (hsplit : isSplitFetch i = false)
    (hx : ¬ (addressAligned i = true ∧ icacheServes i s = false ∧ LeafByte s k a x)) :
    (effect i s).mem.read x = s.mem.read x := by
  by_cases htr : addressAligned i = true ∧ icacheServes i s = false
  · obtain ⟨hal, hserve⟩ := htr
    obtain ⟨last, e, -, hkeeps⟩ := effect_eq_finish haccess hal hserve
    rw [e]
    refine finish_read fun pa t htrans => ?_
    rw [hkeeps hk hsplit]
    exact htrans.read_outside fun hleaf => hx ⟨hal, hserve, hleaf⟩
  · rw [effect_mem_of_no_translation haccess hwf hk htr]

/-- After a load or a standard fetch the leaf it updates reads as before with R set (R78). -/
theorem pteAt_effect {addr pte : Word} (haccess : accessOf i = some (k, a)) (hk : k ≠ .store)
    (hsplit : isSplitFetch i = false) (hmem : s.mem.wf)
    (hsize : s.blk.cfg.pteBytes = 4 ∨ s.blk.cfg.pteBytes = 8) (hal : addressAligned i = true)
    (hserve : icacheServes i s = false) (hupdates : UpdatesLeaf s k a addr pte) :
    PteAt (effect i s) addr (pte ||| 0b100#64) := by
  obtain ⟨last, e, -, hkeeps⟩ := effect_eq_finish haccess hal hserve
  obtain ⟨pa, u, htrans, hwritten⟩ := hupdates.translates
  obtain ⟨-, -, -, hleaf, -⟩ := hupdates
  obtain ⟨hmemsz, hcfg, -, -, -⟩ := effect_keepsSurroundings (s := s) (wellFormed_of_addressAligned hal)
  have hmem' : (effect i s).mem = leafWritten s k addr pte := by
    rw [e, translateVa_of_translates htrans, finish_go, hkeeps hk hsplit, hwritten]
  rw [← referencedPte_of_ne_store hk]
  exact pteAt_leafWritten hmem hsize hleaf.pteAt hmem' hmemsz hcfg

/-- The second unit of a split fetch leaves every byte outside the leaf that the translation of A + 2 updates. -/
theorem splitHigh_read_outside {lo : BitVec 16} {h : Handle} (hx : ¬ LeafByte u .fetch (a + 2) x) :
    (splitHigh a lo h (markDecoded u)).mem.read x = u.mem.read x := by
  rw [splitHigh, translateVa_markDecoded]
  cases htr : translateVa (a + 2) .fetch u with
  | go pa t =>
    have hread := (translates_of_translateVa_go htr).read_outside hx
    rw [Phase.mapState, finish_go]
    split <;> exact hread
  | raise f va' t =>
    obtain ⟨-, rfl, -, -⟩ := translateVa_eq_raise _ _ _ _ _ _ htr
    rfl
  | fatal t =>
    obtain ⟨rfl, -⟩ := translateVa_eq_fatal _ _ _ _ htr
    rfl

/-- A split fetch leaves every byte outside the leaf of A and, if its low unit is in bounds and not short, the leaf of
A + 2 (40_fetch.md R133). -/
theorem splitFetch_read_outside (hx : ¬ LeafByte s .fetch a x)
    (hx' : ∀ pa u, Translates s a .fetch pa u → pa.toNat + 2 ≤ s.memsz →
      Formula.isShort s.blk.cfg (BitVec.ofNat 16 (bytesLE u.mem pa.toNat 2)) = false →
      ¬ LeafByte u .fetch (a + 2) x) :
    (splitFetch a s).mem.read x = s.mem.read x := by
  refine finish_read fun pa u htrans => ?_
  have hread := htrans.read_outside hx
  have hmemsz : u.memsz = s.memsz := htrans.keepsRest.memsz
  have hcfg : u.blk.cfg = s.blk.cfg := htrans.keepsRest.cfg
  split
  · next hb =>
    split
    · exact hread
    · next hlong =>
      rw [splitHigh_read_outside (hx' pa u htrans (hmemsz ▸ (inBounds_iff ..).mp hb) ?_), hread]
      rwa [Formula.isShort_eq, ← hcfg, ← readHalf_eq_bytesLE, ← Bool.not_eq_true]
  · exact hread

end Buffer

/-- Settles O25: no access, one translation, two translations, and each byte. -/
theorem loadsAndFetchesSetOnlyReferenced : Obligations.LoadsAndFetchesSetOnlyReferenced := by
  intro i s t hexec
  obtain ⟨-, hwf, rfl⟩ := (exec_eq_next i s t).mp hexec
  refine ⟨fun haccess => ?_,
    fun k a haccess hk hsplit => ⟨fun x hx => ?_, fun hmem hsize hal hserve addr pte hupd => ?_⟩,
    fun a hi ha x hx hx' => ?_, fun hmem hsize k a haccess hk x => ?_⟩
  · obtain ⟨r, t, e, -, hmem, -⟩ := effect_of_no_access (s := start s) haccess
    rw [e]
    exact hmem
  · exact effect_read_outside (s := start s) haccess hwf hk hsplit hx
  · exact pteAt_effect (s := start s) haccess hk hsplit hmem hsize hal hserve hupd
  · subst hi
    rw [effect_fetch_of_split ha]
    exact splitFetch_read_outside (s := start s) hx hx'
  · exact effect_read_eq_or (s := start s) haccess hwf hmem hsize hk x

end Sys2Proof.Machine
